-- ==== Sys2Proof/Word.lean ====
section
/-! DEFINITION. The word and byte types of CORE and the size of its host address space (00_scope.md R7). -/

namespace Sys2Proof

/-- Every interface register, address, byte count, offset and index is 32 bits wide and unsigned (R7, R12). -/
abbrev Word := BitVec 32

/-- The unit of host memory (R50, R54). -/
abbrev Byte := BitVec 8

/-- The host address space is `2^32` bytes (R7, R50). -/
def addressSpace : Nat := 4294967296

/-- A range of host bytes: `base .. base + size - 1`, on unbounded naturals (R57, R60). -/
structure Region where
  base : Nat
  size : Nat
deriving DecidableEq, Repr

end Sys2Proof
end

