-- ==== Sys2Proof/Config.lean ====
section
/-! DEFINITION. The open parameters of 00_scope.md R9, and the free values the spec leaves to the hardware. -/

namespace Sys2Proof

/-- The width `N` of every length prefix: 4 or 8 bytes (R6). -/
inductive PrefixWidth where
  | four
  | eight
deriving DecidableEq, Repr

/-- What is fixed when the block is built (R9). It stands in State, where no step writes it, so that a statement
about every state is a statement about every build (log 3, 4, 5). -/
structure Config where
  /-- `N` (R6), which CONFIG[7:0] shows (R37) -/
  prefixWidth : PrefixWidth
  /-- `CORE_BASE`, the host address of the register window (R9) -/
  coreBase : Word
  /-- the host bytes that memory backs: `HostMemAdmits` as a list of ranges (R9, R53) -/
  backed : List Region
deriving DecidableEq, Repr

/-- FREE VALUE (R36, 93_implementation_defined.md entry 5): what the host's draw number `k` returns, where it reads
a register other than STATUS while BUSY = 1. Nothing constrains it (log 10). -/
opaque Config.freeRead (k : Nat) : BitVec 32

/-- FREE VALUE (R201, 93_implementation_defined.md entry 6): for the draw number `k` of a reset that abandons a
command, whether host byte `a` already holds the value the command would have written. Nothing constrains it
(log 11). -/
opaque Config.freeLanded (k a : Nat) : Bool

end Sys2Proof
end

