-- ==== Sys2Proof/Syntax.lean ====
section
/-! DEFINITION. The 21 commands (30_encoding.md R73), the pseudo-instructions and source lines of R78 and R79, and
the moves of the host and of the platform's reset input (R20, R78, R200, R204, R213). -/

namespace Sys2Proof

/-- The commands of the opcode map R73. Format C carries no operand field (R70): the operands are the ARG registers
(R71), so no constructor has an argument. -/
inductive Instr where
  | init
  | clear
  | length
  | space
  | write
  | writeAll
  | read
  | peek
  | peekOffset
  | discard
  | find
  | writeBlock
  | peekBlockLength
  | readBlock
  | peekBlock
  | discardBlock
  | countBlocks
  | writeFrame
  | peekFrame
  | readFrame
  | countFrames
deriving DecidableEq, Repr

/-- The three kinds of operand of R71. -/
inductive OperandKind where
  | address
  | count
  | offset
deriving DecidableEq, Repr

/-- The pseudo-instructions of R79. -/
inductive Pseudo where
  | discardFrame
  | peekFrameLength
  | writeStrict
deriving DecidableEq, Repr

/-- A source line of R78: a command and the operands written for it, in ARG order. -/
structure Line where
  command : Instr
  operands : List Word
deriving DecidableEq, Repr

/-- The width of a host access to the register window (R52 allows `word` alone). -/
inductive AccessWidth where
  | byte
  | half
  | word
  | double
deriving DecidableEq, Repr

/-- One move from outside the engine: of the host (R20, R78, R204) or of the platform's reset input (R200). -/
inductive Input where
  /-- the host writes the register window at a host address (R29, R30, R39) -/
  | writeReg (addr : Word) (width : AccessWidth) (value : Word)
  /-- the host reads the register window at a host address (R29, R36) -/
  | readReg (addr : Word) (width : AccessWidth)
  /-- the host writes a byte of host memory by its own means (R50) -/
  | writeMem (addr : Word) (value : Byte)
  /-- the host reads a byte of host memory by its own means (R50) -/
  | readMem (addr : Word)
  /-- "wait until STATUS.BUSY == 0" (R78, R205 step 5) -/
  | pollIdle
  /-- the host takes its storage back (R195 "end of use", R204) -/
  | release
  /-- the platform's reset input (R200) -/
  | reset
deriving DecidableEq, Repr

end Sys2Proof
end

