-- ==== Sys2Proof/WellFormed.lean ====
section
/-! DEFINITION. What a well-formed command, source line, build and host move is. -/

namespace Sys2Proof

/-- Every command is well formed: a command word carries no operand field, and an ARG register may hold any value
(R39 "write-any", R70, R71). -/
def Instr.wellFormed : Instr → Bool
  | .init | .clear | .length | .space | .write | .writeAll | .read | .peek | .peekOffset | .discard | .find
  | .writeBlock | .peekBlockLength | .readBlock | .peekBlock | .discardBlock | .countBlocks
  | .writeFrame | .peekFrame | .readFrame | .countFrames => true

/-- The operands of a command, in ARG order (the ARG columns of R73). -/
def Instr.operandKinds : Instr → List OperandKind
  | .init => [.address, .count]
  | .clear => []
  | .length => []
  | .space => []
  | .write => [.address, .count]
  | .writeAll => [.address, .count]
  | .read => [.address, .count]
  | .peek => [.address, .count]
  | .peekOffset => [.offset, .address, .count]
  | .discard => [.count]
  | .find => [.offset, .address, .count]
  | .writeBlock => [.address, .count]
  | .peekBlockLength => []
  | .readBlock => [.address, .count]
  | .peekBlock => [.address, .count]
  | .discardBlock => []
  | .countBlocks => []
  | .writeFrame => [.address, .count, .address, .count]
  | .peekFrame => [.address, .count, .address, .count]
  | .readFrame => [.address, .count, .address, .count]
  | .countFrames => []

/-- A line writes at most the operands of its command's row; the rest come from the ARG registers as they stand
(R78). -/
def Line.wellFormed (l : Line) : Bool :=
  decide (l.operands.length ≤ l.command.operandKinds.length)

/-- CORE_BASE is 4-byte aligned (R9), and the 256-byte window it starts lies in the host address space (R51). -/
def Config.wellFormed (c : Config) : Bool :=
  decide (c.coreBase.toNat % 4 = 0) && decide (c.coreBase.toNat + 256 ≤ addressSpace)

/-- A host move that touches the window is a 32-bit access at a 4-byte aligned offset of it (R29, R52). -/
def Input.wellFormed (c : Config) : Input → Bool
  | .writeReg addr width _ | .readReg addr width =>
    decide (width = .word) && decide (c.coreBase.toNat ≤ addr.toNat) &&
      decide (addr.toNat < c.coreBase.toNat + 256) && decide ((addr.toNat - c.coreBase.toNat) % 4 = 0)
  | .writeMem _ _ | .readMem _ | .pollIdle | .release | .reset => true

end Sys2Proof
end

