-- ==== Sys2Proof/Decode.lean ====
section
/-! DEFINITION. Decoding a command word (30_encoding.md R70, R73, R74), then the encoder written from the same map. -/

namespace Sys2Proof

/-- Why a command word selects no command: the two bullets of R74. -/
inductive IllegalWord where
  /-- the OP value is not in the opcode map -/
  | reservedOpcode
  /-- CMD[31:8] is not 0, whatever OP is -/
  | reservedBitsSet
deriving DecidableEq, Repr

/-- CMD[31:8], the reserved field of format C (R70). -/
def wordReserved (w : Word) : BitVec 24 := w.extractLsb' 8 24

/-- CMD[7:0], the OP field of format C (R70). -/
def wordOpcode (w : Word) : Byte := w.extractLsb' 0 8

/-- The opcode map of R73, read from its OP column. -/
def decodeOpcode (op : Byte) : Option Instr :=
  match op.toNat with
  | 0x01 => some .init
  | 0x02 => some .clear
  | 0x03 => some .length
  | 0x04 => some .space
  | 0x05 => some .write
  | 0x06 => some .writeAll
  | 0x07 => some .read
  | 0x08 => some .peek
  | 0x09 => some .peekOffset
  | 0x0A => some .discard
  | 0x0B => some .find
  | 0x10 => some .writeBlock
  | 0x11 => some .peekBlockLength
  | 0x12 => some .readBlock
  | 0x13 => some .peekBlock
  | 0x14 => some .discardBlock
  | 0x15 => some .countBlocks
  | 0x20 => some .writeFrame
  | 0x21 => some .peekFrame
  | 0x22 => some .readFrame
  | 0x23 => some .countFrames
  | _ => none

/-- The decode of R75: total on every 32-bit word, each illegal word rejected by name. -/
def decodeWord (w : Word) : Except IllegalWord Instr :=
  if wordReserved w ≠ 0 then .error .reservedBitsSet
  else
    match decodeOpcode (wordOpcode w) with
    | some i => .ok i
    | none => .error .reservedOpcode

/-- The command a word selects, if it selects one (R73). -/
def decode (w : Word) : Option Instr :=
  match decodeWord w with
  | .ok i => some i
  | .error _ => none

/-- The OP column of R73. -/
def opcode : Instr → Byte
  | .init => 0x01
  | .clear => 0x02
  | .length => 0x03
  | .space => 0x04
  | .write => 0x05
  | .writeAll => 0x06
  | .read => 0x07
  | .peek => 0x08
  | .peekOffset => 0x09
  | .discard => 0x0A
  | .find => 0x0B
  | .writeBlock => 0x10
  | .peekBlockLength => 0x11
  | .readBlock => 0x12
  | .peekBlock => 0x13
  | .discardBlock => 0x14
  | .countBlocks => 0x15
  | .writeFrame => 0x20
  | .peekFrame => 0x21
  | .readFrame => 0x22
  | .countFrames => 0x23

/-- The command word of a command: OP below 24 zero bits (R70). -/
def encode (i : Instr) : Word := (0 : BitVec 24) ++ opcode i

/-- The command a pseudo-instruction stands for (R79). -/
def expandPseudo : Pseudo → Instr
  | .discardFrame => .discardBlock
  | .peekFrameLength => .peekBlockLength
  | .writeStrict => .writeAll

/-- The instruction decoded from the bits `w` of an opcode-table row of `nbits` bits. A command is one 32-bit word
(R70); the bits above `nbits` are 0, and a row with bits above 31 is no command. -/
def decodeTableWord (nbits w : Nat) : Option Instr :=
  if w % 2 ^ nbits < addressSpace then decode (BitVec.ofNat 32 (w % 2 ^ nbits)) else none

end Sys2Proof
end

