-- ==== Sys2Proof/Machine/State.lean ====
section
/-! DEFINITION. The state of CORE, its host memory and its outside world (10_state.md), the two ways a step can stop,
and the state after reset. Plain data. -/

namespace Sys2Proof.Machine

/-- The ten values STATUS.CODE takes (R181). Codes 10 to 255 are never written (R33), so the set is closed. -/
inductive StatusCode where
  | ok
  | invalidArgument
  | insufficientSpace
  | partialWrite
  | notPresent
  | corrupt
  | destTooSmall
  | shortFrame
  | notFound
  | illegalCommand
deriving DecidableEq, Repr

/-- Host memory (R50): the bytes that differ from what an unlisted address reads as, by strictly rising address. What
an unlisted address reads as is `unlistedByte`; the canonical form is `Memory.wf` (both in Machine/Memory.lean). -/
abbrev Memory := List Host.Cell

/-- Why the machine stops with a fault. -/
inductive Fault where
  /-- Raised by every command that would touch a host byte that HostMemAdmits does not admit: "the engine has no
  step", a stuck state (R53). SAFE: the model stops where the spec has no step either (log 7). -/
  | hostMemNotAdmitted
deriving DecidableEq, Repr

/-- Why the machine has no meaning for a move. Each is a run the spec says a model refuses (R210). -/
inductive Refusal where
  /-- Raised by an arm of `exec` whose command has no meaning yet. SAFE: nothing is claimed of such a run. -/
  | notModelled (mnemonic : String)
  /-- Raised by a command in which a region the engine writes overlaps another region the command accesses (R60).
  SAFE: nothing is claimed of a host that breaks the contract (log 8). -/
  | overlapContract
  /-- Raised by a host write to the window while BUSY = 1 (R30, R36, R207). SAFE, as above. -/
  | windowWriteWhileBusy
  /-- Raised by a window access that is not 32 bits wide or not 4-byte aligned (R52). SAFE, as above. -/
  | windowAccessShape
  /-- Raised by a register access outside the 256-byte window, which reaches no register of CORE (R51). SAFE: it is no
  access to CORE (log 14). -/
  | outsideWindow
  /-- Raised while BUSY = 1 by a host access to a region the pending command names or to a bound ring's storage (R195,
  R206). SAFE, as above (log 14, log 24). -/
  | bufferAccessWhileBusy
  /-- Raised by a host write to the storage region of a bound ring, released or not (R67, R206). SAFE, as above
  (log 12). -/
  | storageWriteWhileBound
  /-- Raised by a host access to a host byte that no memory backs (R9); what such an access does is the platform's and
  the spec does not give it. SAFE: the model stops (log 14). -/
  | hostByteNotBacked
  /-- Raised when the host takes its storage back while BUSY = 1 (R204). SAFE, as above. -/
  | releaseWhileBusy
  /-- Raised by a command other than INIT issued after the host has taken its storage back (R204,
  93_implementation_defined.md entry 18). SAFE, as above (log 12). -/
  | commandAfterRelease
deriving DecidableEq, Repr

/-- The machine: ring state (R21 to R26), interface registers (R29 to R39), the build's parameters (R9), host memory
(R50), and four fields of the model's own. -/
structure State where
  /-- STORAGE_BASE (R21) -/
  storageBase : Word
  /-- CAPACITY (R22) -/
  capacity : Word
  /-- LENGTH (R23) -/
  length : Word
  /-- WR_IDX (R24) -/
  wrIdx : Word
  /-- RD_IDX (R25) -/
  rdIdx : Word
  /-- BOUND (R26), which STATUS[30] mirrors (R35) -/
  bound : Bool
  /-- CMD (R30); while `busy`, the pending command (R42) -/
  cmd : Word
  /-- STATUS.CODE (R33) -/
  code : StatusCode
  /-- STATUS.TRUNC (R34) -/
  trunc : Bool
  /-- STATUS.BUSY (R36) -/
  busy : Bool
  /-- RESULT (R31) -/
  result : Word
  /-- ARG0 (R39) -/
  arg0 : Word
  /-- ARG1 (R39) -/
  arg1 : Word
  /-- ARG2 (R39) -/
  arg2 : Word
  /-- ARG3 (R39) -/
  arg3 : Word
  /-- N, CORE_BASE and HostMemAdmits (R9); `cfg.prefixWidth` is what CONFIG shows (R37) -/
  cfg : Config
  /-- host memory (R50), storage region included (R28) -/
  mem : Memory
  /-- the model's own: the host has taken its storage back, the third phase of R204 (log 12) -/
  released : Bool
  /-- the model's own: the outside moves still to come, in their order (log 1) -/
  inputs : List Input
  /-- the model's own: what the host's latest read returned (log 13) -/
  readData : Word
  /-- the model's own: how many free values have been drawn (log 15) -/
  draws : Nat
deriving DecidableEq, Repr

/-- The parameters in `State.reset`: `N` = 4, the default of R6, and two DESIGN CHOICE values for what R9 leaves open
(log 3, 4, 5). -/
def defaultConfig : Config :=
  { prefixWidth := .four, coreBase := 0x40000000, backed := [⟨0, addressSpace⟩] }

/-- The machine right after reset (R43, R200). Nothing is pending and the ring is unbound. -/
def State.reset : State :=
  { storageBase := 0, capacity := 0, length := 0, wrIdx := 0, rdIdx := 0, bound := false
    cmd := 0, code := .ok, trunc := false, busy := false, result := 0
    arg0 := 0, arg1 := 0, arg2 := 0, arg3 := 0
    cfg := defaultConfig, mem := [], released := false, inputs := [], readData := 0, draws := 0 }

end Sys2Proof.Machine
end

