-- ==== Sys2Proof/Machine/Memory.lean ====
section
/-! DEFINITION. Reading and writing host memory, one byte at a time (20_memory.md R50, R54), in one canonical form. -/

namespace Sys2Proof.Machine

/-- What a byte of host memory reads as that the list does not hold: DESIGN CHOICE (log 6). -/
def unlistedByte : Byte := 0

/-- The canonical form: addresses strictly rising and in the address space, no entry equal to `unlistedByte`. -/
abbrev Memory.wf (m : Memory) : Prop :=
  m.Pairwise (fun x y => x.1 < y.1) ∧ ∀ c ∈ m, c.1 < addressSpace ∧ c.2 ≠ unlistedByte

/-- `MemRead(a, 1)` (R13). -/
def Memory.read : Memory → Nat → Byte
  | [], _ => unlistedByte
  | (k, v) :: rest, a => if k = a then v else Memory.read rest a

/-- `MemWrite(a, 1, v)` (R13), keeping the canonical form. -/
def Memory.write : Memory → Nat → Byte → Memory
  | [], a, b => if b = unlistedByte then [] else [(a, b)]
  | (k, v) :: rest, a, b =>
    if a < k then
      if b = unlistedByte then (k, v) :: rest else (a, b) :: (k, v) :: rest
    else if a = k then
      if b = unlistedByte then rest else (a, b) :: rest
    else (k, v) :: Memory.write rest a b

/-- Write the bytes `bs` at the places `addr j`, `addr (j + 1)`, … in ascending order (R101). -/
def Memory.storeRun (addr : Nat → Nat) : Memory → Nat → List Byte → Memory
  | m, _, [] => m
  | m, j, b :: bs => Memory.storeRun addr (m.write (addr j) b) (j + 1) bs

/-- `HostBytes(a, m)` (R104): the `n` bytes from `a` on. -/
def Memory.hostBytes (m : Memory) (a n : Nat) : List Byte :=
  (List.range n).map fun j => m.read (a + j)

/-- Take the byte at each listed address from `new` where `landed` says so (R201). -/
def Memory.merge (landed : Nat → Bool) (new : Memory) : Memory → List Host.Cell → Memory
  | m, [] => m
  | m, c :: rest =>
    Memory.merge landed new (if landed c.1 then m.write c.1 (new.read c.1) else m) rest

/-- Each byte of `old` or of `new`, as `landed` says of its address (R201). Only the addresses that either lists can
differ. -/
def Memory.mix (landed : Nat → Bool) (old new : Memory) : Memory :=
  Memory.merge landed new old (old ++ new)

end Sys2Proof.Machine
end

