-- ==== Sys2Proof/Machine/Operands.lean ====
section
/-! DEFINITION. Operands: the ARG registers as addresses, counts and offsets (30_encoding.md R71, R73), the reference
checks (20_memory.md R57), the regions of a command (R60, R206) and the bytes host memory admits (R53). -/

namespace Sys2Proof.Machine

/-- Is `a` one of the region's bytes. -/
def regionContains (r : Region) (a : Nat) : Bool :=
  decide (r.base ≤ a) && decide (a < r.base + r.size)

/-- Do the two regions share a byte. -/
def regionsOverlap (r q : Region) : Bool :=
  decide (0 < r.size) && decide (0 < q.size) &&
    decide (r.base < q.base + q.size) && decide (q.base < r.base + r.size)

/-- `RegionOK(a, n)` (R57). -/
def regionOK (r : Region) : Bool :=
  decide (r.base ≠ 0) && decide (r.base + r.size ≤ addressSpace)

/-- The region an address register and a count register name (kinds A and C of R71). -/
def reference (address count : Word) : Region := ⟨address.toNat, count.toNat⟩

/-- The storage region `[STORAGE_BASE, STORAGE_BASE + CAPACITY)` (R50). -/
def storageRegion (s : State) : Region := reference s.storageBase s.capacity

/-- The source buffers of a command, with the sizes its operands give (R50 second bullet, R73). -/
def sourceRegions (i : Instr) (s : State) : List Region :=
  match i with
  | .write | .writeAll | .writeBlock => [reference s.arg0 s.arg1]
  | .find => [reference s.arg1 s.arg2]
  | .writeFrame => [reference s.arg0 s.arg1, reference s.arg2 s.arg3]
  | .init | .clear | .length | .space | .read | .peek | .peekOffset | .discard
  | .peekBlockLength | .readBlock | .peekBlock | .discardBlock | .countBlocks
  | .peekFrame | .readFrame | .countFrames => []

/-- The destination buffers of a command, with the sizes its operands give (R50 third bullet, R73). -/
def destinationRegions (i : Instr) (s : State) : List Region :=
  match i with
  | .read | .peek | .readBlock | .peekBlock => [reference s.arg0 s.arg1]
  | .peekOffset => [reference s.arg1 s.arg2]
  | .peekFrame | .readFrame => [reference s.arg0 s.arg1, reference s.arg2 s.arg3]
  | .init | .clear | .length | .space | .write | .writeAll | .discard | .find
  | .writeBlock | .peekBlockLength | .discardBlock | .countBlocks
  | .writeFrame | .countFrames => []

/-- Every reference operand of a command, which RegionOK checks with its requested size (R57). INIT's `storage` is a
reference operand and no buffer. -/
def referenceOperands (i : Instr) (s : State) : List Region :=
  match i with
  | .init => [reference s.arg0 s.arg1]
  | .clear | .length | .space | .write | .writeAll | .read | .peek | .peekOffset | .discard | .find
  | .writeBlock | .peekBlockLength | .readBlock | .peekBlock | .discardBlock | .countBlocks
  | .writeFrame | .peekFrame | .readFrame | .countFrames => sourceRegions i s ++ destinationRegions i s

/-- The commands that append bytes (R23). -/
def appends : Instr → Bool
  | .write | .writeAll | .writeBlock | .writeFrame => true
  | .init | .clear | .length | .space | .read | .peek | .peekOffset | .discard | .find
  | .peekBlockLength | .readBlock | .peekBlock | .discardBlock | .countBlocks
  | .peekFrame | .readFrame | .countFrames => false

/-- The overlap contract (R60): no region the engine writes overlaps another region the
command accesses. The storage region counts as written by an appending command and as read by a copying one; the
buffers have the sizes the operands give (log 8). -/
def overlapFree (i : Instr) (s : State) : Bool :=
  let storage := storageRegion s
  (destinationRegions i s).all (fun d => !regionsOverlap d storage) &&
    decide ((destinationRegions i s).Pairwise fun d e => regionsOverlap d e = false) &&
    (!appends i || (sourceRegions i s).all fun r => !regionsOverlap r storage)

/-- Is host byte `a` one that memory backs. R51 leaves open what the engine finds at the addresses of the register
window; DESIGN CHOICE (log 23): they are backed or not like any other address, and where they are, the engine finds
ordinary bytes of host memory that no host move reaches. -/
def byteBacked (c : Config) (a : Nat) : Bool :=
  decide (a < addressSpace) && c.backed.any fun r => regionContains r a

/-- `HostMemAdmits(a, n)` (R9): memory backs every byte of the range (log 5). -/
def hostMemAdmits (c : Config) (a n : Nat) : Bool :=
  (List.range n).all fun j => byteBacked c (a + j)

/-- `HostMemAdmits(a, 1)` for every byte `a` of the set (R53). -/
def admitsAll (s : State) (touched : List Nat) : Bool :=
  touched.all fun a => hostMemAdmits s.cfg a 1

/-- The host bytes of an operand buffer from `a` on that a command touches. -/
def bufferBytes (a n : Nat) : List Nat := (List.range n).map fun j => a + j

end Sys2Proof.Machine
end

