-- ==== Sys2Proof/Machine/Flags.lean ====
section
/-! DEFINITION. STATUS as a word and its fields (10_state.md R32 to R36, 60_exceptions.md R181), TRUNC's computation
(R34), and CONFIG as a word (R37). -/

namespace Sys2Proof.Machine

/-- The number of a status code (R181). -/
def codeBits : StatusCode → BitVec 8
  | .ok => 0
  | .invalidArgument => 1
  | .insufficientSpace => 2
  | .partialWrite => 3
  | .notPresent => 4
  | .corrupt => 5
  | .destTooSmall => 6
  | .shortFrame => 7
  | .notFound => 8
  | .illegalCommand => 9

/-- TRUNC of a command that moved `moved` bytes where `asked` were asked for (R34). -/
def truncated (moved asked : Nat) : Bool := decide (moved < asked)

/-- STATUS as the host reads it: BUSY [31], BOUND [30], 21 zero bits, TRUNC [8], CODE [7:0] (R32, R35). -/
def statusWord (s : State) : Word :=
  BitVec.ofBool s.busy ++ BitVec.ofBool s.bound ++ (0 : BitVec 21) ++ BitVec.ofBool s.trunc ++ codeBits s.code

/-- `N` in bytes (R6). -/
def prefixBytesOf : PrefixWidth → Nat
  | .four => 4
  | .eight => 8

/-- `N` of this build (R6). -/
def prefixBytes (s : State) : Nat := prefixBytesOf s.cfg.prefixWidth

/-- CONFIG as the host reads it: `N` in [7:0], 0 elsewhere (R37). -/
def configWord (s : State) : Word := BitVec.ofNat 32 (prefixBytes s)

end Sys2Proof.Machine
end

