-- ==== Sys2Proof/Machine/Ops.lean ====
section
/-! DEFINITION. The shared operations of the commands: completion and failure (30_encoding.md R75 to R77), the
wrap-around primitives (40_core_ring.md R100 to R105), the prefix (20_memory.md R55) and the block helpers
(41_block_codec.md R141, R142, 42_frame_codec.md R161). -/

namespace Sys2Proof.Machine

/-- What a command or a step answers. -/
abbrev Answer := Host.Outcome State Fault Refusal

/-! ## Completion (R77). CORE has no trap: a failure is a completion with a code (R180, R186). -/

/-- `finish(code, result, trunc)` (R77). -/
def finish (s : State) (code : StatusCode) (result : Nat) (trunc : Bool) : State :=
  { s with code := code, result := BitVec.ofNat 32 result, trunc := trunc, busy := false }

/-- `fail(code)` = `finish(code, 0, 0)` (R77). -/
def fail (s : State) (code : StatusCode) : State := finish s code 0 false

/-- The bound gate of R75 and R76, before the body of every command but INIT. -/
def boundGate (s : State) (body : Answer) : Answer :=
  if s.bound then body else .next (fail s .invalidArgument)

/-- The reference checks of a command (R57, R183 stage 3). -/
def checkReferences (i : Instr) (s : State) (body : Answer) : Answer :=
  if (referenceOperands i s).all regionOK then body else .next (fail s .invalidArgument)

/-- The overlap contract as a gate (R60). A strict writer passes it right after its references, since storage counts
as written by every appending command; a copying command that fails its own checks writes no region and is not asked
(log 8). -/
def keepContract (i : Instr) (s : State) (body : Answer) : Answer :=
  if overlapFree i s then body else .refused .overlapContract

/-- The last gate before a command touches host bytes: HostMemAdmits for every byte it will touch (R53). `t` is the
state it completes in. -/
def touchBytes (s : State) (touched : List Nat) (t : State) : Answer :=
  if admitsAll s touched then .next t else .fault .hostMemNotAdmitted

/-- Both gates, for a command that moves data with no check left that could fail it. -/
def moveData (i : Instr) (s : State) (touched : List Nat) (t : State) : Answer :=
  keepContract i s (touchBytes s touched t)

/-! ## The ring (R100 to R105) -/

/-- CAPACITY − LENGTH, the free space (R15, R113). -/
def space (s : State) : Nat := s.capacity.toNat - s.length.toNat

/-- `Adv(idx, m)` (R100). -/
def adv (capacity idx m : Nat) : Nat :=
  if m < capacity - idx then idx + m else m - (capacity - idx)

/-- `Phys(idx, j)` (R101). -/
def phys (capacity idx j : Nat) : Nat :=
  if j < capacity - idx then idx + j else j - (capacity - idx)

/-- The host address of physical storage index `i`: where `S(i)` stands (R13, R21). -/
def storageAddr (s : State) (i : Nat) : Nat := s.storageBase.toNat + i

/-- The host address of logical offset `k` (R14, R102). -/
def liveAddr (s : State) (k : Nat) : Nat := storageAddr s (phys s.capacity.toNat s.rdIdx.toNat k)

/-- The host address of the `j`-th byte that is appended (R101, R104). -/
def freeAddr (s : State) (j : Nat) : Nat := storageAddr s (phys s.capacity.toNat s.wrIdx.toNat j)

/-- `RingByte(k)` (R102). -/
def ringByte (s : State) (k : Nat) : Byte := s.mem.read (liveAddr s k)

/-- The live bytes `off .. off + m - 1`. -/
def ringBytes (s : State) (off m : Nat) : List Byte := (List.range m).map fun j => ringByte s (off + j)

/-- The host bytes that reading those live bytes touches (R53). -/
def liveBytes (s : State) (off m : Nat) : List Nat := (List.range m).map fun j => liveAddr s (off + j)

/-- The host bytes that appending `m` bytes touches (R53). -/
def freeBytes (s : State) (m : Nat) : List Nat := (List.range m).map fun j => freeAddr s j

/-- `CopyOut(off, m, dst)` (R103) into `t`; the bytes are those of `s`, the state the step began in (R61). -/
def copyOut (s t : State) (off m dst : Nat) : State :=
  { t with mem := t.mem.storeRun (fun j => dst + j) 0 (ringBytes s off m) }

/-- `Append(b)` (R104). -/
def append (s : State) (b : List Byte) : State :=
  { s with
    mem := s.mem.storeRun (freeAddr s) 0 b
    wrIdx := BitVec.ofNat 32 (adv s.capacity.toNat s.wrIdx.toNat b.length)
    length := BitVec.ofNat 32 (s.length.toNat + b.length) }

/-- `Remove(m)` (R105). -/
def remove (s : State) (m : Nat) : State :=
  { s with
    rdIdx := BitVec.ofNat 32 (adv s.capacity.toNat s.rdIdx.toNat m)
    length := BitVec.ofNat 32 (s.length.toNat - m) }

/-- Empty the ring: what INIT and CLEAR share (R110, R111). -/
def emptyRing (s : State) : State := { s with length := 0, wrIdx := 0, rdIdx := 0 }

/-- Bind the ring to storage and empty it (R110). The storage is CORE's again, whatever the host had released (R67,
R204, log 12). -/
def bindRing (s : State) (storage capacity : Word) : State :=
  { emptyRing s with storageBase := storage, capacity := capacity, bound := true, released := false }

/-! ## The length prefix (R55) -/

/-- `PrefixEnc(v)` in `n` bytes, little-endian (R55). -/
def prefixEnc : Nat → Nat → List Byte
  | 0, _ => []
  | n + 1, v => BitVec.ofNat 8 v :: prefixEnc n (v / 256)

/-- The value of a little-endian byte list (R55). -/
def prefixValue : List Byte → Nat
  | [] => 0
  | b :: bs => b.toNat + 256 * prefixValue bs

/-- `PrefixAt(p)` (R55, R102). -/
def prefixAt (s : State) (p : Nat) : Nat := prefixValue (ringBytes s p (prefixBytes s))

/-! ## Blocks and frames (R141, R142, R161) -/

/-- `Head(off)`, ABSENT as `none` (R141). -/
def head (s : State) (off : Nat) : Option Nat :=
  if s.length.toNat - off < prefixBytes s then none
  else if s.length.toNat - off - prefixBytes s < prefixAt s off then none
  else some (prefixAt s off)

/-- The host bytes `Head(off)` touches: the prefix, where one is buffered (R141). -/
def headBytes (s : State) (off : Nat) : List Nat :=
  if s.length.toNat - off < prefixBytes s then [] else liveBytes s off (prefixBytes s)

/-- `Walk()` from offset `off` with `count` blocks behind it, CORRUPT as `none` (R142). Each pass adds at least 4 to
`off`, so `fuel` = LENGTH is never used up. -/
def walkFrom (s : State) : Nat → Nat → Nat → Option Nat
  | 0, off, count => if off < s.length.toNat then none else some count
  | fuel + 1, off, count =>
    if off < s.length.toNat then
      match head s off with
      | none => none
      | some len => walkFrom s fuel (off + prefixBytes s + len) (count + 1)
    else some count

/-- `Walk()` (R142). -/
def walk (s : State) : Option Nat := walkFrom s s.length.toNat 0 0

/-- The host bytes `Walk()` touches from offset `off` on: one prefix per pass (R142, R212). -/
def walkBytesFrom (s : State) : Nat → Nat → List Nat
  | 0, _ => []
  | fuel + 1, off =>
    if off < s.length.toNat then
      match head s off with
      | none => headBytes s off
      | some len => headBytes s off ++ walkBytesFrom s fuel (off + prefixBytes s + len)
    else []

/-- The host bytes `Walk()` touches. -/
def walkBytes (s : State) : List Nat := walkBytesFrom s s.length.toNat 0

/-- `FrameCheck(hlen, maxp)` (R161): the code it fails with, or the declared length. -/
def frameCheck (s : State) (hlen maxp : Nat) : Except StatusCode Nat :=
  match head s 0 with
  | none => .error .notPresent
  | some len =>
    if len < hlen then .error .shortFrame
    else if hlen + maxp < len then .error .destTooSmall
    else .ok len

/-! ## Search (R120) -/

/-- `RingByte(k + j) == p[j]` for every `j` (R120). -/
def matchesAt (s : State) (p : List Byte) (k : Nat) : Bool := decide (ringBytes s k p.length = p)

/-- The loop of R120 from `k` on, with `left` further offsets to try after `k`. -/
def findFrom (s : State) (p : List Byte) : Nat → Nat → Option Nat
  | 0, k => if matchesAt s p k then some k else none
  | left + 1, k => if matchesAt s p k then some k else findFrom s p left (k + 1)

/-- The smallest matching offset in `off .. LENGTH - plen` (R120). -/
def search (s : State) (off : Nat) (p : List Byte) : Option Nat :=
  findFrom s p (s.length.toNat - p.length - off) off

end Sys2Proof.Machine
end

