-- ==== Sys2Proof/Machine/BlockCodec.lean ====
section
/-! DEFINITION. The six Block Codec commands (41_block_codec.md R143 to R148), over the primitives of R100 to R105 and
`Head` and `Walk` alone (R2). -/

namespace Sys2Proof.Machine

/-- The ring after a codec writer's first append: the prefix holding `len` (R143, R162). -/
def withPrefix (s : State) (len : Nat) : State := append s (prefixEnc (prefixBytes s) len)

/-- WRITE_BLOCK (R143). The PARTIAL_WRITE path is kept as the spec writes it; R149 says no run takes it (log 16). -/
def execWriteBlock (s : State) : Answer :=
  boundGate s <| checkReferences .writeBlock s <| keepContract .writeBlock s <|
    if space s < prefixBytes s + s.arg1.toNat then .next (fail s .insufficientSpace)
    else if space (withPrefix s s.arg1.toNat) < s.arg1.toNat then
      touchBytes s (freeBytes s (prefixBytes s)) (fail (withPrefix s s.arg1.toNat) .partialWrite)
    else
      touchBytes s
        (freeBytes s (prefixBytes s) ++ bufferBytes s.arg0.toNat s.arg1.toNat ++
          freeBytes (withPrefix s s.arg1.toNat) s.arg1.toNat)
        (finish (append (withPrefix s s.arg1.toNat) (s.mem.hostBytes s.arg0.toNat s.arg1.toNat)) .ok
          (prefixBytes s + s.arg1.toNat) false)

/-- PEEK_BLOCK_LENGTH (R144). -/
def execPeekBlockLength (s : State) : Answer :=
  boundGate s <|
    match head s 0 with
    | none => touchBytes s (headBytes s 0) (fail s .notPresent)
    | some len => touchBytes s (headBytes s 0) (finish s .ok len false)

/-- READ_BLOCK (R145). -/
def execReadBlock (s : State) : Answer :=
  boundGate s <| checkReferences .readBlock s <|
    match head s 0 with
    | none => touchBytes s (headBytes s 0) (fail s .notPresent)
    | some len =>
      if s.arg1.toNat < len then touchBytes s (headBytes s 0) (fail s .destTooSmall)
      else
        moveData .readBlock s
          (headBytes s 0 ++ liveBytes s (prefixBytes s) len ++ bufferBytes s.arg0.toNat len)
          (finish (remove (copyOut s s (prefixBytes s) len s.arg0.toNat) (prefixBytes s + len)) .ok len false)

/-- PEEK_BLOCK (R146): it truncates to `out_cap`. -/
def execPeekBlock (s : State) : Answer :=
  boundGate s <| checkReferences .peekBlock s <|
    match head s 0 with
    | none => touchBytes s (headBytes s 0) (fail s .notPresent)
    | some len =>
      moveData .peekBlock s
        (headBytes s 0 ++ liveBytes s (prefixBytes s) (min len s.arg1.toNat) ++
          bufferBytes s.arg0.toNat (min len s.arg1.toNat))
        (finish (copyOut s s (prefixBytes s) (min len s.arg1.toNat) s.arg0.toNat) .ok (min len s.arg1.toNat)
          (truncated (min len s.arg1.toNat) len))

/-- DISCARD_BLOCK (R147). -/
def execDiscardBlock (s : State) : Answer :=
  boundGate s <|
    match head s 0 with
    | none => touchBytes s (headBytes s 0) (fail s .notPresent)
    | some len =>
      touchBytes s (headBytes s 0) (finish (remove s (prefixBytes s + len)) .ok (prefixBytes s + len) false)

/-- What both counters complete with: the count of `Walk()`, or CORRUPT with RESULT 0 (R148, R165). -/
def countResult (s : State) : State :=
  match walk s with
  | none => fail s .corrupt
  | some count => finish s .ok count false

/-- COUNT_BLOCKS (R148). -/
def execCountBlocks (s : State) : Answer :=
  boundGate s <| touchBytes s (walkBytes s) (countResult s)

end Sys2Proof.Machine
end

