-- ==== Sys2Proof/Machine/CoreRing.lean ====
section
/-! DEFINITION. The eleven Core Ring commands (40_core_ring.md R110 to R120). -/

namespace Sys2Proof.Machine

/-- INIT (R110), the one command without the bound gate (R76). -/
def execInit (s : State) : Answer :=
  checkReferences .init s <|
    if s.arg1 = 0 then .next (fail s .invalidArgument)
    else .next (finish (bindRing s s.arg0 s.arg1) .ok 0 false)

/-- CLEAR (R111). -/
def execClear (s : State) : Answer :=
  boundGate s <| .next (finish (emptyRing s) .ok 0 false)

/-- LENGTH (R112). -/
def execLength (s : State) : Answer :=
  boundGate s <| .next (finish s .ok s.length.toNat false)

/-- SPACE (R113). -/
def execSpace (s : State) : Answer :=
  boundGate s <| .next (finish s .ok (space s) false)

/-- WRITE's count: `min(n, CAPACITY - LENGTH)` (R114). -/
def writeCount (s : State) : Nat := min s.arg1.toNat (space s)

/-- WRITE (R114). -/
def execWrite (s : State) : Answer :=
  boundGate s <| checkReferences .write s <|
    moveData .write s (bufferBytes s.arg0.toNat (writeCount s) ++ freeBytes s (writeCount s))
      (finish (append s (s.mem.hostBytes s.arg0.toNat (writeCount s))) .ok (writeCount s)
        (truncated (writeCount s) s.arg1.toNat))

/-- WRITE_ALL (R115). -/
def execWriteAll (s : State) : Answer :=
  boundGate s <| checkReferences .writeAll s <| keepContract .writeAll s <|
    if space s < s.arg1.toNat then .next (fail s .insufficientSpace)
    else
      touchBytes s (bufferBytes s.arg0.toNat s.arg1.toNat ++ freeBytes s s.arg1.toNat)
        (finish (append s (s.mem.hostBytes s.arg0.toNat s.arg1.toNat)) .ok s.arg1.toNat false)

/-- READ's count: `min(n, LENGTH)` (R116). -/
def readCount (s : State) : Nat := min s.arg1.toNat s.length.toNat

/-- READ (R116). -/
def execRead (s : State) : Answer :=
  boundGate s <| checkReferences .read s <|
    moveData .read s (liveBytes s 0 (readCount s) ++ bufferBytes s.arg0.toNat (readCount s))
      (finish (remove (copyOut s s 0 (readCount s) s.arg0.toNat) (readCount s)) .ok (readCount s)
        (truncated (readCount s) s.arg1.toNat))

/-- PEEK's count: `min(n, LENGTH)` (R117). -/
def peekCount (s : State) : Nat := min s.arg1.toNat s.length.toNat

/-- PEEK (R117). -/
def execPeek (s : State) : Answer :=
  boundGate s <| checkReferences .peek s <|
    moveData .peek s (liveBytes s 0 (peekCount s) ++ bufferBytes s.arg0.toNat (peekCount s))
      (finish (copyOut s s 0 (peekCount s) s.arg0.toNat) .ok (peekCount s)
        (truncated (peekCount s) s.arg1.toNat))

/-- PEEK_OFFSET's count: 0 from LENGTH on, else `min(n, LENGTH - off)` (R118). -/
def peekOffsetCount (s : State) : Nat :=
  if s.length.toNat ≤ s.arg0.toNat then 0 else min s.arg2.toNat (s.length.toNat - s.arg0.toNat)

/-- PEEK_OFFSET (R118). -/
def execPeekOffset (s : State) : Answer :=
  boundGate s <| checkReferences .peekOffset s <|
    moveData .peekOffset s
      (liveBytes s s.arg0.toNat (peekOffsetCount s) ++ bufferBytes s.arg1.toNat (peekOffsetCount s))
      (finish (copyOut s s s.arg0.toNat (peekOffsetCount s) s.arg1.toNat) .ok (peekOffsetCount s)
        (truncated (peekOffsetCount s) s.arg2.toNat))

/-- DISCARD's count: `min(n, LENGTH)` (R119). -/
def discardCount (s : State) : Nat := min s.arg0.toNat s.length.toNat

/-- DISCARD (R119). -/
def execDiscard (s : State) : Answer :=
  boundGate s <|
    .next (finish (remove s (discardCount s)) .ok (discardCount s) (truncated (discardCount s) s.arg0.toNat))

/-- FIND's pattern (R120). -/
def findPattern (s : State) : List Byte := s.mem.hostBytes s.arg1.toNat s.arg2.toNat

/-- The live bytes R120's loop reads: up to the end of the first match, or to LENGTH where there is none (log 9). -/
def findSpan (s : State) : Nat :=
  match search s s.arg0.toNat (findPattern s) with
  | some k => k + s.arg2.toNat - s.arg0.toNat
  | none => s.length.toNat - s.arg0.toNat

/-- The host bytes FIND touches (R53). -/
def findBytes (s : State) : List Nat :=
  bufferBytes s.arg1.toNat s.arg2.toNat ++ liveBytes s s.arg0.toNat (findSpan s)

/-- FIND's completion: the match's offset, or NOT_FOUND with RESULT 0xFFFFFFFF (R120). -/
def findResult (s : State) : State :=
  match search s s.arg0.toNat (findPattern s) with
  | some k => finish s .ok k false
  | none => finish s .notFound 0xFFFFFFFF false

/-- FIND (R120). -/
def execFind (s : State) : Answer :=
  boundGate s <| checkReferences .find s <|
    if s.arg2 = 0 then .next (fail s .invalidArgument)
    else if s.length.toNat ≤ s.arg0.toNat ∨ s.length.toNat - s.arg0.toNat < s.arg2.toNat then
      .next (fail s .invalidArgument)
    else touchBytes s (findBytes s) (findResult s)

end Sys2Proof.Machine
end

