-- ==== Sys2Proof/Machine/FrameCodec.lean ====
section
/-! DEFINITION. The four Frame Codec commands (42_frame_codec.md R162 to R165), over the primitives of R100 to R105 and
the block helpers (R2). -/

namespace Sys2Proof.Machine

/-- The ring after WRITE_FRAME's second append: prefix and header (R162). -/
def withHeader (s : State) : State :=
  append (withPrefix s (s.arg1.toNat + s.arg3.toNat)) (s.mem.hostBytes s.arg0.toNat s.arg1.toNat)

/-- WRITE_FRAME (R162). The two PARTIAL_WRITE paths are kept as the spec writes them; R166 says no run takes them
(log 16). -/
def execWriteFrame (s : State) : Answer :=
  boundGate s <| checkReferences .writeFrame s <| keepContract .writeFrame s <|
    if space s < prefixBytes s + s.arg1.toNat + s.arg3.toNat then .next (fail s .insufficientSpace)
    else if space (withPrefix s (s.arg1.toNat + s.arg3.toNat)) < s.arg1.toNat then
      touchBytes s (freeBytes s (prefixBytes s))
        (fail (withPrefix s (s.arg1.toNat + s.arg3.toNat)) .partialWrite)
    else if space (withHeader s) < s.arg3.toNat then
      touchBytes s
        (freeBytes s (prefixBytes s) ++ bufferBytes s.arg0.toNat s.arg1.toNat ++
          freeBytes (withPrefix s (s.arg1.toNat + s.arg3.toNat)) s.arg1.toNat)
        (fail (withHeader s) .partialWrite)
    else
      touchBytes s
        (freeBytes s (prefixBytes s) ++ bufferBytes s.arg0.toNat s.arg1.toNat ++
          freeBytes (withPrefix s (s.arg1.toNat + s.arg3.toNat)) s.arg1.toNat ++
          bufferBytes s.arg2.toNat s.arg3.toNat ++ freeBytes (withHeader s) s.arg3.toNat)
        (finish (append (withHeader s) (s.mem.hostBytes s.arg2.toNat s.arg3.toNat)) .ok
          (prefixBytes s + s.arg1.toNat + s.arg3.toNat) false)

/-- The frame of declared length `len` copied out, split after `hlen` bytes (R163, R164). -/
def copyFrame (s : State) (len : Nat) : State :=
  copyOut s (copyOut s s (prefixBytes s) s.arg1.toNat s.arg0.toNat)
    (prefixBytes s + s.arg1.toNat) (len - s.arg1.toNat) s.arg2.toNat

/-- The host bytes that copying that frame touches (R53). -/
def frameBytes (s : State) (len : Nat) : List Nat :=
  headBytes s 0 ++ liveBytes s (prefixBytes s) len ++
    bufferBytes s.arg0.toNat s.arg1.toNat ++ bufferBytes s.arg2.toNat (len - s.arg1.toNat)

/-- PEEK_FRAME (R163): it never truncates. -/
def execPeekFrame (s : State) : Answer :=
  boundGate s <| checkReferences .peekFrame s <|
    match frameCheck s s.arg1.toNat s.arg3.toNat with
    | .error code => touchBytes s (headBytes s 0) (fail s code)
    | .ok len =>
      moveData .peekFrame s (frameBytes s len) (finish (copyFrame s len) .ok (len - s.arg1.toNat) false)

/-- READ_FRAME (R164). -/
def execReadFrame (s : State) : Answer :=
  boundGate s <| checkReferences .readFrame s <|
    match frameCheck s s.arg1.toNat s.arg3.toNat with
    | .error code => touchBytes s (headBytes s 0) (fail s code)
    | .ok len =>
      moveData .readFrame s (frameBytes s len)
        (finish (remove (copyFrame s len) (prefixBytes s + len)) .ok (len - s.arg1.toNat) false)

/-- COUNT_FRAMES (R165): the walk of COUNT_BLOCKS, since a frame has a block's outer layout (R160). -/
def execCountFrames (s : State) : Answer :=
  boundGate s <| touchBytes s (walkBytes s) (countResult s)

end Sys2Proof.Machine
end

