-- ==== Sys2Proof/Machine/Dispatch.lean ====
section
/-! DEFINITION. The meaning of each command of the opcode map (30_encoding.md R73). -/

namespace Sys2Proof.Machine

def exec (i : Instr) (s : State) : Host.Outcome State Fault Refusal :=
  match i with
  | .init => Sys2Proof.Machine.execInit s
  | .clear => Sys2Proof.Machine.execClear s
  | .length => Sys2Proof.Machine.execLength s
  | .space => Sys2Proof.Machine.execSpace s
  | .write => Sys2Proof.Machine.execWrite s
  | .writeAll => Sys2Proof.Machine.execWriteAll s
  | .read => Sys2Proof.Machine.execRead s
  | .peek => Sys2Proof.Machine.execPeek s
  | .peekOffset => Sys2Proof.Machine.execPeekOffset s
  | .discard => Sys2Proof.Machine.execDiscard s
  | .find => Sys2Proof.Machine.execFind s
  | .writeBlock => Sys2Proof.Machine.execWriteBlock s
  | .peekBlockLength => Sys2Proof.Machine.execPeekBlockLength s
  | .readBlock => Sys2Proof.Machine.execReadBlock s
  | .peekBlock => Sys2Proof.Machine.execPeekBlock s
  | .discardBlock => Sys2Proof.Machine.execDiscardBlock s
  | .countBlocks => Sys2Proof.Machine.execCountBlocks s
  | .writeFrame => Sys2Proof.Machine.execWriteFrame s
  | .peekFrame => Sys2Proof.Machine.execPeekFrame s
  | .readFrame => Sys2Proof.Machine.execReadFrame s
  | .countFrames => Sys2Proof.Machine.execCountFrames s

end Sys2Proof.Machine
end

