-- ==== Sys2Proof/Machine/Window.lean ====
section
/-! DEFINITION. The register window (10_state.md R29 to R39, 20_memory.md R51, R52) and the host's moves on it and on
host memory, with the duties R210 makes a model refuse (R36, R60, R67, R204, R206, R207). -/

namespace Sys2Proof.Machine

/-- The offset of a host address in the 256-byte window at CORE_BASE (R51). -/
def windowOffset (c : Config) (addr : Word) : Option Nat :=
  if c.coreBase.toNat ≤ addr.toNat ∧ addr.toNat < c.coreBase.toNat + 256 then
    some (addr.toNat - c.coreBase.toNat)
  else none

/-- The register at an offset, as the host reads it while BUSY = 0 (R29); offsets 0x34 to 0xFC read 0 (R38). -/
def readRegister (s : State) (off : Nat) : Word :=
  match off with
  | 0x00 => s.cmd
  | 0x04 => statusWord s
  | 0x08 => s.result
  | 0x0C => s.arg0
  | 0x10 => s.arg1
  | 0x14 => s.arg2
  | 0x18 => s.arg3
  | 0x1C => configWord s
  | 0x20 => s.storageBase
  | 0x24 => s.capacity
  | 0x28 => s.length
  | 0x2C => s.wrIdx
  | 0x30 => s.rdIdx
  | _ => 0

/-- A host write to any offset but CMD's: ARG0 to ARG3 take the value (R39), every other offset is read-only and the
write has no effect (R29, R38). -/
def writeRegister (s : State) (off : Nat) (value : Word) : State :=
  match off with
  | 0x0C => { s with arg0 := value }
  | 0x10 => { s with arg1 := value }
  | 0x14 => { s with arg2 := value }
  | 0x18 => { s with arg3 := value }
  | _ => s

/-- Does the word select a command other than INIT (R73). -/
def selectsOtherThanInit (w : Word) : Bool :=
  match decodeWord w with
  | .ok .init => false
  | .ok _ => true
  | .error _ => false

/-- The CMD write of R30: it stores the word, sets BUSY and makes the word pending. After the host has taken its
storage back, a command other than INIT is outside the contract (R204, log 12). -/
def issue (s : State) (w : Word) : Answer :=
  if s.released && selectsOtherThanInit w then .refused .commandAfterRelease
  else .next { s with cmd := w, busy := true }

/-- The shape every window access must have: inside the window, 32 bits wide, 4-byte aligned (R29, R52). -/
def windowAccess (s : State) (addr : Word) (width : AccessWidth) (body : Nat → Answer) : Answer :=
  match windowOffset s.cfg addr with
  | none => .refused .outsideWindow
  | some off => if width = .word ∧ off % 4 = 0 then body off else .refused .windowAccessShape

/-- A host write to the window (R29, R30, R39). While BUSY = 1 it is refused at every offset (R207). -/
def hostWriteReg (s : State) (addr : Word) (width : AccessWidth) (value : Word) : Answer :=
  windowAccess s addr width fun off =>
    if s.busy then .refused .windowWriteWhileBusy
    else if off = 0x00 then issue s value
    else .next (writeRegister s off value)

/-- Is a read of the offset unspecified while BUSY = 1: every register of R29 but STATUS (R36); the reserved offsets
hold no register (R38). -/
def unspecifiedWhileBusy (off : Nat) : Bool := decide (off ≠ 0x04) && decide (off < 0x34)

/-- A host read of the window (R29, R36). -/
def hostReadReg (s : State) (addr : Word) (width : AccessWidth) : Answer :=
  windowAccess s addr width fun off =>
    if s.busy && unspecifiedWhileBusy off then
      .next { s with readData := Config.freeRead s.draws, draws := s.draws + 1 }
    else .next { s with readData := readRegister s off }

/-- The regions the host may not touch while BUSY = 1: the pending command's operand buffers (R206), the region a
pending INIT binds, which R195 hands over "from now" while R67 starts at a successful INIT (DEDUCED, log 24), and the
storage region of a bound ring (R195, R206). -/
def busyRegions (s : State) : List Region :=
  if s.busy then
    (match decodeWord s.cmd with
      | .ok i => referenceOperands i s
      | .error _ => []) ++ (if s.bound then [storageRegion s] else [])
  else []

/-- A host access to a byte of host memory (R50): refused in the window, whose accesses are 32 bits wide (R52), in a
region the engine holds (R206), and where no memory backs the byte (R9, log 14). -/
def hostByteAccess (s : State) (addr : Word) (body : Answer) : Answer :=
  if (windowOffset s.cfg addr).isSome then .refused .windowAccessShape
  else if (busyRegions s).any fun r => regionContains r addr.toNat then .refused .bufferAccessWhileBusy
  else if byteBacked s.cfg addr.toNat then body
  else .refused .hostByteNotBacked

/-- Is the byte one of a bound ring's storage, which the host must not write "until the next INIT or reset" (R67); a
release does not end that (log 12). -/
def heldStorage (s : State) (a : Nat) : Bool :=
  s.bound && regionContains (storageRegion s) a

/-- The host writes a byte of host memory; never one of the bound ring's storage (R67, R206). -/
def hostWriteMem (s : State) (addr : Word) (value : Byte) : Answer :=
  hostByteAccess s addr <|
    if heldStorage s addr.toNat then .refused .storageWriteWhileBound
    else .next { s with mem := s.mem.write addr.toNat value }

/-- The host reads a byte of host memory. -/
def hostReadMem (s : State) (addr : Word) : Answer :=
  hostByteAccess s addr <|
    .next { s with readData := (s.mem.read addr.toNat).setWidth 32 }

/-- The host takes its storage back (R195 "end of use", R204). -/
def hostRelease (s : State) : Answer :=
  if s.busy then .refused .releaseWhileBusy else .next { s with released := s.bound }

end Sys2Proof.Machine
end

