-- ==== Sys2Proof/Machine/Engine.lean ====
section
/-! DEFINITION. The engine's move (30_encoding.md R75), the reset event (70_reset_and_hazards.md R200 to R202), and
which agent moves next (10_state.md R20). -/

namespace Sys2Proof.Machine

/-- The engine's step for the pending command word (R75). -/
def engineMove (s : State) : Answer :=
  match decodeWord s.cmd with
  | .error _ => .next (fail s .illegalCommand)
  | .ok i => exec i s

/-- Every register at its reset value, CONFIG kept (R200). Host memory is the platform's, and what the host has read
and has still to do is the host's: reset changes none of it (R202, log 22). -/
def resetRegisters (s : State) : State :=
  { State.reset with
    cfg := s.cfg, mem := s.mem, inputs := s.inputs, readData := s.readData, draws := s.draws }

/-- The reset event (R200). A pending command is abandoned: each byte it would have written holds its old or its new
value, drawn freely, and every other byte is unchanged (R201). A stuck command writes no byte; a command outside the
overlap contract stays refused (log 11). -/
def resetMove (s : State) : Answer :=
  if s.busy then
    match engineMove s with
    | .next t =>
      .next { resetRegisters s with
        mem := s.mem.mix (Config.freeLanded s.draws) t.mem, draws := s.draws + 1 }
    | .fault _ => .next (resetRegisters s)
    | .refused r => .refused r
  else .next (resetRegisters s)

/-- The engine moves while a command is pending; with none pending it is idle (R20, R194). -/
def engineTurn (s : State) (idle : State) : Answer :=
  if s.busy then engineMove s else .next idle

/-- Whose move is next (log 1): the next outside move, where one is due; the engine's, where the host waits for BUSY =
0 or has nothing left to do (R20). A wait that finds BUSY = 0 has read STATUS (R78). -/
def nextMove (s : State) : Answer :=
  match s.inputs with
  | [] => engineTurn s s
  | .pollIdle :: rest => engineTurn s { s with inputs := rest, readData := statusWord s }
  | .writeReg addr width value :: rest => hostWriteReg { s with inputs := rest } addr width value
  | .readReg addr width :: rest => hostReadReg { s with inputs := rest } addr width
  | .writeMem addr value :: rest => hostWriteMem { s with inputs := rest } addr value
  | .readMem addr :: rest => hostReadMem { s with inputs := rest } addr
  | .release :: rest => hostRelease { s with inputs := rest }
  | .reset :: rest => resetMove { s with inputs := rest }

/-- The state in which the word of an opcode-table row is pending and nothing comes before the engine's move: what the
host's CMD write leaves (R30), with no other outside move due (log 2). -/
def withPendingWord (s : State) (nbits w : Nat) : State :=
  { s with cmd := BitVec.ofNat 32 (w % 2 ^ nbits), busy := true, inputs := [] }

end Sys2Proof.Machine
end

