-- ==== Sys2Proof/Machine/Assemble.lean ====
section
/-! DEFINITION. The assembler of 30_encoding.md R78 and R79: a source line as the host moves it stands for. -/

namespace Sys2Proof.Machine

/-- A host address of the window. -/
def windowAddr (c : Config) (off : Nat) : Word := c.coreBase + BitVec.ofNat 32 off

/-- The ARG writes of a line, `i` ascending, at `CORE_BASE + 0x0C + 4*i` (R78). -/
def argWrites (c : Config) : Nat → List Word → List Input
  | _, [] => []
  | i, op :: ops => .writeReg (windowAddr c (0x0C + 4 * i)) .word op :: argWrites c (i + 1) ops

/-- A source line: its ARG writes, the CMD write, and the wait for BUSY = 0 (R78, R205). -/
def assemble (c : Config) (l : Line) : List Input :=
  argWrites c 0 l.operands ++ [.writeReg (windowAddr c 0x00) .word (encode l.command), .pollIdle]

/-- A pseudo-instruction's line is its expansion's (R79). -/
def assemblePseudo (c : Config) (p : Pseudo) (operands : List Word) : List Input :=
  assemble c ⟨expandPseudo p, operands⟩

/-- The boot sequence of R203: INIT with the storage region the host chose, then a wait. -/
def bootInputs (c : Config) (storage capacity : Word) : List Input :=
  assemble c ⟨.init, [storage, capacity]⟩

end Sys2Proof.Machine
end

