-- ==== Sys2Proof/Machine/Run.lean ====
section
/-! DEFINITION. A run: its launch, its steps, when it has ended, and its final state (70_reset_and_hazards.md R213). -/

namespace Sys2Proof.Machine

/-- The run of a host program from a stated state: the program is all that is still to come (R213, log 25). -/
def launch (s : State) (program : List Input) : State := { s with inputs := program }

/-- The run has ended: the host program has executed its last step, and STATUS.BUSY = 0, so no command is pending
(R213). -/
def runEnded (s : State) : Bool := s.inputs.isEmpty && !s.busy

/-- The final state of R213: the ring registers of R21 to R26, the interface registers of R29 (those of its offsets
0x20 to 0x30 are the ring registers again), and host memory. The model's own fields are no part of it. -/
structure FinalState where
  storageBase : Word
  capacity : Word
  length : Word
  wrIdx : Word
  rdIdx : Word
  bound : Bool
  cmd : Word
  status : Word
  result : Word
  arg0 : Word
  arg1 : Word
  arg2 : Word
  arg3 : Word
  config : Word
  mem : Memory
deriving DecidableEq, Repr

/-- What R213 takes from a state in which the run has ended. -/
def finalState (s : State) : FinalState :=
  { storageBase := s.storageBase, capacity := s.capacity, length := s.length, wrIdx := s.wrIdx, rdIdx := s.rdIdx
    bound := s.bound, cmd := s.cmd, status := statusWord s, result := s.result
    arg0 := s.arg0, arg1 := s.arg1, arg2 := s.arg2, arg3 := s.arg3, config := configWord s, mem := s.mem }

/-- `k` steps one after the other, up to the first fault or refusal. A run that has ended stays as it is (log 20). -/
def runSteps : Nat → State → Answer
  | 0, s => .next s
  | k + 1, s =>
    match step s with
    | .next s' => runSteps k s'
    | .fault f => .fault f
    | .refused r => .refused r

/-- As many steps as a run can take: each outside move is one, and it can make one command pending. -/
def runBound (s : State) : Nat := 2 * s.inputs.length + s.busy.toNat

/-- The whole run: a state in which it has ended, or the stuck command (R53) or refused step (R210) that it never gets
past. -/
def run (s : State) : Answer := runSteps (runBound s) s

/-- The final state of a run, where it ends: "A run that reaches a stuck command or a refused step never ends, and it
has no final state" (R213). -/
def runFinal (s : State) : Option FinalState :=
  match run s with
  | .next t => if runEnded t then some (finalState t) else none
  | .fault _ => none
  | .refused _ => none

end Sys2Proof.Machine
end

