-- ==== Sys2Proof/Safety.lean ====
section
/-! DEFINITION. The terms of the claims: the invariants of CORE (10_state.md R27), the live bytes as a list (R14), and
for each command the conditions on state and operands under which it executes normally. All of it is decidable. -/

namespace Sys2Proof.Safety

open Sys2Proof.Machine

/-! ## Invariants -/

/-- The invariants of R27 while BOUND = 1, with the legal capacities of R8 and the region check INIT made (R110). -/
abbrev RingInv (s : State) : Prop :=
  s.storageBase.toNat ≠ 0 ∧ s.storageBase.toNat + s.capacity.toNat ≤ addressSpace ∧
    s.length.toNat ≤ s.capacity.toNat ∧ s.wrIdx.toNat < s.capacity.toNat ∧ s.rdIdx.toNat < s.capacity.toNat ∧
    s.wrIdx.toNat = (s.rdIdx.toNat + s.length.toNat) % s.capacity.toNat

/-- While BOUND = 0 the ring registers hold their reset values: only INIT sets them first (R21 to R26, R43). -/
abbrev UnboundInv (s : State) : Prop :=
  s.storageBase = 0 ∧ s.capacity = 0 ∧ s.length = 0 ∧ s.wrIdx = 0 ∧ s.rdIdx = 0 ∧ s.released = false

/-- What the last completion left: TRUNC only with OK (R34), RESULT 0 after every failure but NOT_FOUND, which leaves
0xFFFFFFFF (R31), and never PARTIAL_WRITE (R149, R166). -/
abbrev StatusInv (s : State) : Prop :=
  (s.trunc = true → s.code = .ok) ∧
    (s.code ≠ .ok → s.code ≠ .notFound → s.result = 0) ∧
    (s.code = .notFound → s.result = 0xFFFFFFFF) ∧
    s.code ≠ .partialWrite

/-- The invariant every step keeps. -/
abbrev MachineInv (s : State) : Prop :=
  (s.bound = true → RingInv s) ∧ (s.bound = false → UnboundInv s) ∧ StatusInv s ∧ s.mem.wf

/-! ## The live region as a list of bytes (R14, R15) -/

/-- The live bytes, logical offset 0 first. -/
def contents (s : State) : List Byte := ringBytes s 0 s.length.toNat

/-- A block on the wire: prefix, then payload (R140). -/
def blockWire (s : State) (payload : List Byte) : List Byte :=
  prefixEnc (prefixBytes s) payload.length ++ payload

/-- Blocks back to back: "with no gap and no padding" (R140). -/
def blocksWire (s : State) (payloads : List (List Byte)) : List Byte := payloads.flatMap (blockWire s)

/-- A frame on the wire: combined length, header, payload (R160). -/
def frameWire (s : State) (header payload : List Byte) : List Byte :=
  prefixEnc (prefixBytes s) (header.length + payload.length) ++ header ++ payload

/-- The declared length of the block that starts at the read position: the little-endian value of the first `N` live
bytes (R55, R141). -/
def declaredLength (s : State) : Nat := prefixValue ((contents s).take (prefixBytes s))

/-- A complete block or frame is buffered at the read position: both stages of `Head(0)` (R141). -/
abbrev BlockPresent (s : State) : Prop :=
  prefixBytes s ≤ s.length.toNat ∧ declaredLength s ≤ s.length.toNat - prefixBytes s

/-- The pattern of FIND stands at logical offset `k`, not before `offset`, and ends inside the live region (R120). -/
abbrev MatchAt (s : State) (k : Nat) : Prop :=
  s.arg0.toNat ≤ k ∧ k + s.arg2.toNat ≤ s.length.toNat ∧
    ((contents s).drop k).take s.arg2.toNat = s.mem.hostBytes s.arg1.toNat s.arg2.toNat

/-- A run of the engine's commands where the list of outside moves lets the engine move next (R20, log 1). -/
abbrev EngineNext (s : State) : Prop :=
  s.busy = true ∧ (s.inputs = [] ∨ s.inputs.head? = some .pollIdle)

/-! ## When a command executes normally -/

/-- The two regions share no byte (R60). -/
abbrev Apart (r q : Region) : Prop :=
  r.size = 0 ∨ q.size = 0 ∨ r.base + r.size ≤ q.base ∨ q.base + q.size ≤ r.base

/-- `RegionOK` of an address and a count register (R57). -/
abbrev ReferenceOK (address count : Word) : Prop :=
  address ≠ 0 ∧ address.toNat + count.toNat ≤ addressSpace

/-- The regions of a command break the overlap contract (R60): a destination buffer overlaps the storage region or the
other destination buffer, or a source buffer of an appending command overlaps the storage region (log 8). -/
abbrev OverlapBroken (i : Instr) (s : State) : Prop :=
  (∃ d ∈ destinationRegions i s, ¬ Apart d (storageRegion s)) ∨ ¬ (destinationRegions i s).Pairwise Apart ∨
    (appends i = true ∧ ∃ r ∈ sourceRegions i s, ¬ Apart r (storageRegion s))

/-- The checks a decoder makes before it copies out (R145, R146, R161); no other command that writes a destination
buffer has any. -/
abbrev ReachesCopy (i : Instr) (s : State) : Prop :=
  (i = .readBlock → BlockPresent s ∧ declaredLength s ≤ s.arg1.toNat) ∧
    (i = .peekBlock → BlockPresent s) ∧
    (i = .peekFrame ∨ i = .readFrame →
      BlockPresent s ∧ s.arg1.toNat ≤ declaredLength s ∧ declaredLength s ≤ s.arg1.toNat + s.arg3.toNat)

/-- Host memory backs the `n` places `addr 0`, `addr 1`, … (R53). -/
abbrev Backed (s : State) (addr : Nat → Nat) (n : Nat) : Prop :=
  ∀ j < n, byteBacked s.cfg (addr j) = true

/-- Host memory backs the first `n` bytes of a buffer. -/
abbrev BufferBacked (s : State) (address : Word) (n : Nat) : Prop :=
  Backed s (fun j => address.toNat + j) n

/-- Host memory backs the `n` live bytes from logical offset `off` on. -/
abbrev LiveBacked (s : State) (off n : Nat) : Prop := Backed s (fun j => liveAddr s (off + j)) n

/-- A bound ring that keeps R27. -/
abbrev RingReady (s : State) : Prop := s.bound = true ∧ RingInv s

/-- INIT (R110): the storage reference passes RegionOK and the capacity is not 0. -/
abbrev InitReady (s : State) : Prop := ReferenceOK s.arg0 s.arg1 ∧ s.arg1 ≠ 0

/-- A buffer operand of a command that moves data between it and the ring: its reference passes (R57) and it keeps the
overlap contract with the storage region (R60). -/
abbrev BufferReady (s : State) (address count : Word) : Prop :=
  ReferenceOK address count ∧ Apart (reference address count) (storageRegion s)

/-- WRITE (R114). -/
abbrev WriteReady (s : State) : Prop :=
  RingReady s ∧ BufferReady s s.arg0 s.arg1 ∧
    BufferBacked s s.arg0 (min s.arg1.toNat (space s)) ∧ Backed s (freeAddr s) (min s.arg1.toNat (space s))

/-- WRITE_ALL (R115), where the bytes fit. -/
abbrev WriteAllReady (s : State) : Prop :=
  RingReady s ∧ BufferReady s s.arg0 s.arg1 ∧ s.arg1.toNat ≤ space s ∧
    BufferBacked s s.arg0 s.arg1.toNat ∧ Backed s (freeAddr s) s.arg1.toNat

/-- READ and PEEK (R116, R117). -/
abbrev ReadReady (s : State) : Prop :=
  RingReady s ∧ BufferReady s s.arg0 s.arg1 ∧
    LiveBacked s 0 (min s.arg1.toNat s.length.toNat) ∧ BufferBacked s s.arg0 (min s.arg1.toNat s.length.toNat)

/-- PEEK_OFFSET (R118); natural subtraction makes the count 0 from LENGTH on. -/
abbrev PeekOffsetReady (s : State) : Prop :=
  RingReady s ∧ BufferReady s s.arg1 s.arg2 ∧
    LiveBacked s s.arg0.toNat (min s.arg2.toNat (s.length.toNat - s.arg0.toNat)) ∧
    BufferBacked s s.arg1 (min s.arg2.toNat (s.length.toNat - s.arg0.toNat))

/-- FIND (R120): a pattern of at least one byte, no longer than the searchable remainder. -/
abbrev FindReady (s : State) : Prop :=
  RingReady s ∧ ReferenceOK s.arg1 s.arg2 ∧ s.arg2 ≠ 0 ∧
    s.arg0.toNat < s.length.toNat ∧ s.arg2.toNat ≤ s.length.toNat - s.arg0.toNat ∧
    BufferBacked s s.arg1 s.arg2.toNat ∧ LiveBacked s s.arg0.toNat (s.length.toNat - s.arg0.toNat)

/-- WRITE_BLOCK (R143), where prefix and payload fit. -/
abbrev WriteBlockReady (s : State) : Prop :=
  RingReady s ∧ BufferReady s s.arg0 s.arg1 ∧ prefixBytes s + s.arg1.toNat ≤ space s ∧
    BufferBacked s s.arg0 s.arg1.toNat ∧ Backed s (freeAddr s) (prefixBytes s + s.arg1.toNat)

/-- The commands that only look at the ring (R144, R147, R148, R165): host memory backs the first `n` live bytes. -/
abbrev LookReady (s : State) (n : Nat) : Prop := RingReady s ∧ LiveBacked s 0 n

/-- How many live bytes `Head(0)` reads: the prefix, where one is buffered (R141). -/
def headSpan (s : State) : Nat := if s.length.toNat < prefixBytes s then 0 else prefixBytes s

/-- READ_BLOCK and PEEK_BLOCK (R145, R146), where `n` payload bytes are copied. -/
abbrev BlockOutReady (s : State) (n : Nat) : Prop :=
  LookReady s (prefixBytes s + n) ∧ BufferReady s s.arg0 s.arg1 ∧ BufferBacked s s.arg0 n

/-- WRITE_FRAME (R162), where prefix, header and payload fit. -/
abbrev WriteFrameReady (s : State) : Prop :=
  RingReady s ∧ BufferReady s s.arg0 s.arg1 ∧ BufferReady s s.arg2 s.arg3 ∧
    prefixBytes s + s.arg1.toNat + s.arg3.toNat ≤ space s ∧
    BufferBacked s s.arg0 s.arg1.toNat ∧ BufferBacked s s.arg2 s.arg3.toNat ∧
    Backed s (freeAddr s) (prefixBytes s + s.arg1.toNat + s.arg3.toNat)

/-- PEEK_FRAME and READ_FRAME (R163, R164): two buffers apart from each other and from the ring; `n` payload bytes are
copied. -/
abbrev FrameOutReady (s : State) (n : Nat) : Prop :=
  LookReady s (prefixBytes s + s.arg1.toNat + n) ∧ BufferReady s s.arg0 s.arg1 ∧ BufferReady s s.arg2 s.arg3 ∧
    Apart (reference s.arg0 s.arg1) (reference s.arg2 s.arg3) ∧
    BufferBacked s s.arg0 s.arg1.toNat ∧ BufferBacked s s.arg2 n

/-! ## When a command is stuck -/

/-- Memory does not back some byte that the command accesses by its own rule (R53, log 9). -/
def MissingByte (i : Instr) (s : State) : Prop :=
  match i with
  | .init | .clear | .length | .space | .discard => False
  | .write =>
    ¬ BufferBacked s s.arg0 (min s.arg1.toNat (space s)) ∨ ¬ Backed s (freeAddr s) (min s.arg1.toNat (space s))
  | .writeAll =>
    s.arg1.toNat ≤ space s ∧ (¬ BufferBacked s s.arg0 s.arg1.toNat ∨ ¬ Backed s (freeAddr s) s.arg1.toNat)
  | .read | .peek =>
    ¬ BufferBacked s s.arg0 (min s.arg1.toNat s.length.toNat) ∨ ¬ LiveBacked s 0 (min s.arg1.toNat s.length.toNat)
  | .peekOffset =>
    ¬ BufferBacked s s.arg1 (min s.arg2.toNat (s.length.toNat - s.arg0.toNat)) ∨
      ¬ LiveBacked s s.arg0.toNat (min s.arg2.toNat (s.length.toNat - s.arg0.toNat))
  | .find =>
    (s.arg2 ≠ 0 ∧ s.arg0.toNat < s.length.toNat ∧ s.arg2.toNat ≤ s.length.toNat - s.arg0.toNat) ∧
      (¬ BufferBacked s s.arg1 s.arg2.toNat ∨
        (∃ k, MatchAt s k ∧ (∀ j < k, ¬ MatchAt s j) ∧
          ¬ LiveBacked s s.arg0.toNat (k + s.arg2.toNat - s.arg0.toNat)) ∨
        ((∀ k, ¬ MatchAt s k) ∧ ¬ LiveBacked s s.arg0.toNat (s.length.toNat - s.arg0.toNat)))
  | .writeBlock =>
    prefixBytes s + s.arg1.toNat ≤ space s ∧
      (¬ BufferBacked s s.arg0 s.arg1.toNat ∨ ¬ Backed s (freeAddr s) (prefixBytes s + s.arg1.toNat))
  | .peekBlockLength | .discardBlock => ¬ LiveBacked s 0 (headSpan s)
  | .readBlock =>
    ¬ LiveBacked s 0 (headSpan s) ∨
      (ReachesCopy .readBlock s ∧
        (¬ LiveBacked s (prefixBytes s) (declaredLength s) ∨ ¬ BufferBacked s s.arg0 (declaredLength s)))
  | .peekBlock =>
    ¬ LiveBacked s 0 (headSpan s) ∨
      (ReachesCopy .peekBlock s ∧
        (¬ LiveBacked s (prefixBytes s) (min (declaredLength s) s.arg1.toNat) ∨
          ¬ BufferBacked s s.arg0 (min (declaredLength s) s.arg1.toNat)))
  | .countBlocks | .countFrames =>
    ∃ payloads rest, contents s = blocksWire s payloads ++ rest ∧ prefixBytes s ≤ rest.length ∧
      ¬ LiveBacked s (blocksWire s payloads).length (prefixBytes s)
  | .writeFrame =>
    prefixBytes s + s.arg1.toNat + s.arg3.toNat ≤ space s ∧
      (¬ BufferBacked s s.arg0 s.arg1.toNat ∨ ¬ BufferBacked s s.arg2 s.arg3.toNat ∨
        ¬ Backed s (freeAddr s) (prefixBytes s + s.arg1.toNat + s.arg3.toNat))
  | .peekFrame | .readFrame =>
    ¬ LiveBacked s 0 (headSpan s) ∨
      (ReachesCopy .readFrame s ∧
        (¬ LiveBacked s (prefixBytes s) (declaredLength s) ∨ ¬ BufferBacked s s.arg0 s.arg1.toNat ∨
          ¬ BufferBacked s s.arg2 (declaredLength s - s.arg1.toNat)))

/-! ## What a command leaves -/

/-- The state a completion that changes nothing else leaves (R77). -/
def completed (s : State) (code : StatusCode) (result : Nat) (trunc : Bool) : State :=
  { s with code := code, result := BitVec.ofNat 32 result, trunc := trunc, busy := false }

/-- Every byte of host memory but those of the range reads as before. -/
def MemoryKeptOutside (s t : State) (base size : Nat) : Prop :=
  ∀ a, ¬ (base ≤ a ∧ a < base + size) → t.mem.read a = s.mem.read a

/-- Every byte of host memory but the `n` free places of the ring from WR_IDX on reads as before. -/
def MemoryKeptButAppended (s t : State) (n : Nat) : Prop :=
  ∀ a, (∀ j < n, a ≠ freeAddr s j) → t.mem.read a = s.mem.read a

end Sys2Proof.Safety
end

