-- ==== Sys2Proof/Certificates/Slice0/Obligations.lean ====
section
/-! DEFINITION. The statements about CORE for the provers. Each docstring names the rule of spec/ it formalises. -/

open Sys2Proof Sys2Proof.Machine Sys2Proof.Safety

/-! ## Encoding -/

/-- Every command's word decodes to that command (R70, R73). -/
def Obligations.DecodeOfEncode : Prop := ∀ i : Instr, i.wellFormed = true → decode (encode i) = some i

/-- R73: "A command word selects a command exactly when CMD[31:8] = 0 and CMD[7:0] equals the OP column." -/
def Obligations.WordSelectsCommandExactly : Prop :=
  ∀ (w : Word) (i : Instr),
    decode w = some i ↔ w.toNat / 256 = 0 ∧ w.toNat % 256 = (opcode i).toNat

/-- Words written out from the OP column of R73 decode to their rows. -/
def Obligations.OpcodeMapWords : Prop :=
  decode 0x00000001#32 = some .init ∧ decode 0x00000005#32 = some .write ∧ decode 0x0000000B#32 = some .find ∧
    decode 0x00000015#32 = some .countBlocks ∧ decode 0x00000022#32 = some .readFrame ∧
    decode 0x00000000#32 = none ∧ decode 0x0000000C#32 = none ∧ decode 0x00000105#32 = none

/-! ## The step -/

/-- When the engine's turn has come and the pending word decodes to a well-formed command, the step is that command's
meaning (R20, R75); whose turn it is, is the model's schedule (log 1). -/
def Obligations.StepRunsDecodedCommand : Prop :=
  ∀ (s : State) (i : Instr), EngineNext s → decode s.cmd = some i → i.wellFormed = true → step s = exec i s

/-- R74: a word outside the opcode map completes with ILLEGAL_COMMAND, RESULT = 0 and TRUNC = 0, and changes nothing
else. The schedule is the model's (log 1). -/
def Obligations.IllegalWordOnlyCompletes : Prop :=
  ∀ s : State, EngineNext s →
    (s.cmd.toNat / 256 ≠ 0 ∨ ∀ i : Instr, s.cmd.toNat % 256 ≠ (opcode i).toNat) →
    step s = .next (completed s .illegalCommand 0 false)

/-- R76: while BOUND = 0, every legal command except INIT completes with INVALID_ARGUMENT and changes nothing else. -/
def Obligations.UnboundCommandsOnlyFail : Prop :=
  ∀ (i : Instr) (s : State), i ≠ .init → s.bound = false →
    exec i s = .next (completed s .invalidArgument 0 false)

/-! ## What holds of every command -/

/-- A command is refused for the overlap contract alone, and only where it has bound storage, good references and two
regions that share a byte (R60). -/
def Obligations.OnlyOverlapIsRefused : Prop :=
  ∀ (i : Instr) (s : State) (r : Refusal), exec i s = .refused r →
    r = .overlapContract ∧ s.bound = true ∧ (∀ q ∈ referenceOperands i s, regionOK q = true) ∧
      OverlapBroken i s

/-- A command is stuck only where memory does not back some byte of the storage region or of an operand buffer (R53).
-/
def Obligations.StuckOnlyOnMissingMemory : Prop :=
  ∀ (i : Instr) (s : State) (f : Fault), MachineInv s → exec i s = .fault f →
    f = .hostMemNotAdmitted ∧ s.bound = true ∧
      ∃ r ∈ storageRegion s :: (sourceRegions i s ++ destinationRegions i s),
        ∃ a, r.base ≤ a ∧ a < r.base + r.size ∧ byteBacked s.cfg a = false

/-- Every pending command completes whose storage and buffers memory backs and whose regions keep the contract (R20,
R53, R60): the next step ends with BUSY = 0. And every run (R213) ends, in a state with nothing left of the host program
and BUSY = 0, whose registers and memory are its final state; or it reaches a stuck command or a refused step, and has
none. What counts as the host program's last step is the model's reading (log 25). -/
def Obligations.PendingCommandsCompleteAndRunsEnd : Prop :=
  (∀ s : State, MachineInv s → EngineNext s →
    (∀ i, decode s.cmd = some i →
      (∀ r ∈ storageRegion s :: (sourceRegions i s ++ destinationRegions i s), ∀ a, r.base ≤ a → a < r.base + r.size →
        byteBacked s.cfg a = true) ∧
      (∀ d ∈ destinationRegions i s, Apart d (storageRegion s)) ∧
      (destinationRegions i s).Pairwise Apart ∧
      (appends i = true → ∀ r ∈ sourceRegions i s, Apart r (storageRegion s))) →
    ∃ t, step s = .next t ∧ t.busy = false) ∧
    (∀ s : State,
      (∃ t, run s = .next t ∧ t.inputs = [] ∧ t.busy = false ∧ runFinal s = some (finalState t)) ∨
        (((∃ f, run s = .fault f) ∨ ∃ r, run s = .refused r) ∧ runFinal s = none)) ∧
    ∀ (s t : State) (k : Nat), runSteps k s = .next t → t.inputs = [] → t.busy = false → run s = .next t

/-- A command writes no operand register, not CMD, no parameter of the build and none of the model's own fields
`inputs`, `readData` and `draws` (log 1, 13, 15), and it ends with BUSY = 0 (R37, R39, R77). Host memory is not spoken
of here. -/
def Obligations.CommandsKeepOperandsAndBuild : Prop :=
  ∀ (i : Instr) (s t : State), exec i s = .next t →
    t.arg0 = s.arg0 ∧ t.arg1 = s.arg1 ∧ t.arg2 = s.arg2 ∧ t.arg3 = s.arg3 ∧ t.cmd = s.cmd ∧ t.cfg = s.cfg ∧
      t.inputs = s.inputs ∧ t.readData = s.readData ∧ t.draws = s.draws ∧ t.busy = false

/-- Only INIT binds, only INIT writes STORAGE_BASE and CAPACITY, and nothing unbinds but reset (R21, R22, R26). -/
def Obligations.OnlyInitBinds : Prop :=
  ∀ (i : Instr) (s t : State), i ≠ .init → exec i s = .next t →
    t.storageBase = s.storageBase ∧ t.capacity = s.capacity ∧ t.bound = s.bound ∧ t.released = s.released

/-- A failed command changes nothing but CODE, RESULT, TRUNC and BUSY: "a failed command has no effect on ring state
or host memory" (R186, R77). Both rules except PARTIAL_WRITE, which no command reports (R149, R166), so no exception
is left. -/
def Obligations.FailedCommandsChangeNothing : Prop :=
  ∀ (i : Instr) (s t : State), exec i s = .next t → t.code ≠ .ok →
    t = completed s t.code t.result.toNat false

/-- RESULT is 0 after every failed command except FIND's NOT_FOUND, which leaves 0xFFFFFFFF (R31). -/
def Obligations.ResultOfFailedCommands : Prop :=
  ∀ (i : Instr) (s t : State), exec i s = .next t → t.code ≠ .ok →
    (t.code = .notFound → i = .find ∧ t.result = 0xFFFFFFFF) ∧ (t.code ≠ .notFound → t.result = 0)

/-- R34: TRUNC = 1 exactly when the completed command is one of WRITE, READ, PEEK, PEEK_OFFSET, DISCARD or PEEK_BLOCK,
it completed with OK, and RESULT is smaller than the count it asked for; an illegal command leaves TRUNC = 0. -/
def Obligations.TruncExactly : Prop :=
  (∀ (i : Instr) (s t : State), MachineInv s → exec i s = .next t →
    (t.trunc = true ↔
      t.code = .ok ∧
        (((i = .write ∨ i = .read ∨ i = .peek) ∧ t.result.toNat < s.arg1.toNat) ∨
          (i = .peekOffset ∧ t.result.toNat < s.arg2.toNat) ∨
          (i = .discard ∧ t.result.toNat < s.arg0.toNat) ∨
          (i = .peekBlock ∧ t.result.toNat < declaredLength s)))) ∧
    ∀ s t : State, decode s.cmd = none → engineMove s = .next t → t.trunc = false

/-- Which codes a command can give on a bound ring: the list under the table of R181. -/
def Obligations.CodesOfEachCommand : Prop :=
  ∀ (i : Instr) (s t : State), s.bound = true → exec i s = .next t →
    (i ∈ [.clear, .length, .space, .discard] → t.code = .ok) ∧
    (i ∈ [.countBlocks, .countFrames] → t.code = .ok ∨ t.code = .corrupt) ∧
    (i ∈ [.peekBlockLength, .discardBlock] → t.code = .ok ∨ t.code = .notPresent) ∧
    (i ∈ [.init, .write, .read, .peek, .peekOffset] → t.code = .ok ∨ t.code = .invalidArgument) ∧
    (i ∈ [.writeAll, .writeBlock, .writeFrame] →
      t.code = .ok ∨ t.code = .invalidArgument ∨ t.code = .insufficientSpace) ∧
    (i = .find → t.code = .ok ∨ t.code = .invalidArgument ∨ t.code = .notFound) ∧
    (i = .readBlock →
      t.code = .ok ∨ t.code = .invalidArgument ∨ t.code = .notPresent ∨ t.code = .destTooSmall) ∧
    (i = .peekBlock → t.code = .ok ∨ t.code = .invalidArgument ∨ t.code = .notPresent) ∧
    (i ∈ [.peekFrame, .readFrame] →
      t.code = .ok ∨ t.code = .invalidArgument ∨ t.code = .notPresent ∨ t.code = .shortFrame ∨
        t.code = .destTooSmall)

/-- R57: every reference operand passes RegionOK with its requested size before any other check of the command (R183
stage 3), or the command fails and changes nothing. -/
def Obligations.BadReferenceOnlyFails : Prop :=
  ∀ (i : Instr) (s : State), (i ≠ .init → s.bound = true) →
    (∃ r ∈ referenceOperands i s, ¬ (r.base ≠ 0 ∧ r.base + r.size ≤ 2 ^ 32)) →
    exec i s = .next (completed s .invalidArgument 0 false)

/-- The engine writes host memory only in the destination buffers of a copying command and in the storage region of an
appending one (R50, R105, R202). -/
def Obligations.CommandsWriteOnlyTheirRegions : Prop :=
  ∀ (i : Instr) (s t : State), MachineInv s → exec i s = .next t →
    ∀ a, (∀ d ∈ destinationRegions i s, ¬ (d.base ≤ a ∧ a < d.base + d.size)) →
      (appends i = true → ¬ (s.storageBase.toNat ≤ a ∧ a < s.storageBase.toNat + s.capacity.toNat)) →
      t.mem.read a = s.mem.read a

/-! ## The invariant -/

/-- R27: every step keeps the ring invariants, and with them the form of host memory and what the last completion
left. -/
def Obligations.StepKeepsRingInvariants : Prop :=
  ∀ s s' : State, MachineInv s → step s = .next s' → MachineInv s'

/-- The state after reset meets the invariant. -/
def Obligations.ResetMeetsRingInvariants : Prop := MachineInv State.reset

/-- R37: CONFIG is `N` in [7:0] and 0 elsewhere, and no step changes it, nor the other parameters of the build (R9).
-/
def Obligations.StepKeepsBuildParameters : Prop :=
  (∀ s s' : State, step s = .next s' → s'.cfg = s.cfg ∧ configWord s' = configWord s) ∧
    ∀ s : State, (configWord s).toNat = prefixBytes s ∧ (prefixBytes s = 4 ∨ prefixBytes s = 8)

/-! ## Primitives -/

/-- The two-segment rules are addition modulo CAPACITY (R100, R101). -/
def Obligations.TwoSegmentsAreModular : Prop :=
  ∀ capacity idx m : Nat, idx < capacity → m ≤ capacity →
    adv capacity idx m = (idx + m) % capacity ∧ (m < capacity → phys capacity idx m = (idx + m) % capacity)

/-- The prefix is little-endian (R55): byte `j` is `(v >> 8j) & 0xFF`, and decoding gives `v` back where it fits. -/
def Obligations.PrefixIsLittleEndian : Prop :=
  ∀ n v : Nat, v < 256 ^ n →
    (prefixEnc n v).length = n ∧ prefixValue (prefixEnc n v) = v ∧
      ∀ j (h : j < (prefixEnc n v).length), (prefixEnc n v)[j] = BitVec.ofNat 8 ((v >>> (8 * j)) &&& 0xFF)

/-! ## Core Ring commands -/

/-- R110; "INIT is the only command that runs while BOUND = 0". The model's `released` field is left open here
(log 12). -/
def Obligations.InitBindsEmptyRing : Prop :=
  encode .init = 0x01#32 ∧ ∀ s : State,
    (¬ InitReady s → exec .init s = .next (completed s .invalidArgument 0 false)) ∧
    (InitReady s → ∃ t, exec .init s = .next t ∧
      { t with released := s.released } =
        { completed s .ok 0 false with
          storageBase := s.arg0, capacity := s.arg1, length := 0, wrIdx := 0, rdIdx := 0, bound := true }) ∧
    (s.bound = false → ∀ (i : Instr) (t : State), exec i s = .next t → t.code = .ok → i = .init)

/-- R111. -/
def Obligations.ClearEmptiesRing : Prop :=
  encode .clear = 0x02#32 ∧ ∀ s : State, s.bound = true →
    exec .clear s = .next { completed s .ok 0 false with length := 0, wrIdx := 0, rdIdx := 0 }

/-- R112; "The same value is readable at window offset 0x28 without a command". -/
def Obligations.LengthReportsLiveBytes : Prop :=
  encode .length = 0x03#32 ∧ ∀ s : State, s.bound = true →
    exec .length s = .next (completed s .ok (contents s).length false) ∧
      readRegister s 0x28 = BitVec.ofNat 32 (contents s).length

/-- R113. -/
def Obligations.SpaceReportsFreeBytes : Prop :=
  encode .space = 0x04#32 ∧ ∀ s : State, RingReady s →
    exec .space s = .next { completed s .ok 0 false with result := s.capacity - s.length } ∧
      s.length.toNat + (s.capacity - s.length).toNat = s.capacity.toNat

/-- R114: what fits is appended behind the live bytes, the rest is dropped, and only the appended bytes' places are
written. -/
def Obligations.WriteAppendsWhatFits : Prop :=
  encode .write = 0x05#32 ∧ ∀ s : State,
    (s.bound = true → ¬ ReferenceOK s.arg0 s.arg1 → exec .write s = .next (completed s .invalidArgument 0 false)) ∧
    (MachineInv s → WriteReady s → ∃ t, exec .write s = .next t ∧
      t = { completed s .ok (min s.arg1.toNat (space s)) (decide (space s < s.arg1.toNat)) with
            mem := t.mem
            length := BitVec.ofNat 32 (s.length.toNat + min s.arg1.toNat (space s))
            wrIdx := BitVec.ofNat 32 ((s.wrIdx.toNat + min s.arg1.toNat (space s)) % s.capacity.toNat) } ∧
      contents t = contents s ++ s.mem.hostBytes s.arg0.toNat (min s.arg1.toNat (space s)) ∧
      MemoryKeptButAppended s t (min s.arg1.toNat (space s)))

/-- R115: all `n` bytes or nothing. -/
def Obligations.WriteAllIsStrict : Prop :=
  encode .writeAll = 0x06#32 ∧ ∀ s : State,
    (s.bound = true → ¬ ReferenceOK s.arg0 s.arg1 →
      exec .writeAll s = .next (completed s .invalidArgument 0 false)) ∧
    (s.bound = true → BufferReady s s.arg0 s.arg1 → space s < s.arg1.toNat →
      exec .writeAll s = .next (completed s .insufficientSpace 0 false)) ∧
    (MachineInv s → WriteAllReady s → ∃ t, exec .writeAll s = .next t ∧
      t = { completed s .ok s.arg1.toNat false with
            mem := t.mem
            length := s.length + s.arg1
            wrIdx := BitVec.ofNat 32 ((s.wrIdx.toNat + s.arg1.toNat) % s.capacity.toNat) } ∧
      contents t = contents s ++ s.mem.hostBytes s.arg0.toNat s.arg1.toNat ∧
      MemoryKeptButAppended s t s.arg1.toNat)

/-- R116: the first `min(n, LENGTH)` live bytes are copied out and removed. -/
def Obligations.ReadRemovesFromFront : Prop :=
  encode .read = 0x07#32 ∧ ∀ s : State,
    (s.bound = true → ¬ ReferenceOK s.arg0 s.arg1 → exec .read s = .next (completed s .invalidArgument 0 false)) ∧
    (MachineInv s → ReadReady s → ∃ t, exec .read s = .next t ∧
      t = { completed s .ok (min s.arg1.toNat s.length.toNat) (decide (s.length.toNat < s.arg1.toNat)) with
            mem := t.mem
            length := BitVec.ofNat 32 (s.length.toNat - s.arg1.toNat)
            rdIdx := BitVec.ofNat 32 ((s.rdIdx.toNat + min s.arg1.toNat s.length.toNat) % s.capacity.toNat) } ∧
      t.mem.hostBytes s.arg0.toNat (min s.arg1.toNat s.length.toNat) = (contents s).take s.arg1.toNat ∧
      contents t = (contents s).drop s.arg1.toNat ∧
      MemoryKeptOutside s t s.arg0.toNat (min s.arg1.toNat s.length.toNat))

/-- R117: READ's copy without its removal. -/
def Obligations.PeekCopiesFromFront : Prop :=
  encode .peek = 0x08#32 ∧ ∀ s : State,
    (s.bound = true → ¬ ReferenceOK s.arg0 s.arg1 → exec .peek s = .next (completed s .invalidArgument 0 false)) ∧
    (MachineInv s → ReadReady s → ∃ t, exec .peek s = .next t ∧
      t = { completed s .ok (min s.arg1.toNat s.length.toNat) (decide (s.length.toNat < s.arg1.toNat)) with
            mem := t.mem } ∧
      t.mem.hostBytes s.arg0.toNat (min s.arg1.toNat s.length.toNat) = (contents s).take s.arg1.toNat ∧
      contents t = contents s ∧
      MemoryKeptOutside s t s.arg0.toNat (min s.arg1.toNat s.length.toNat))

/-- R118: a copy from `offset` live bytes on, clamped to the live region; from LENGTH on it copies nothing. -/
def Obligations.PeekOffsetCopiesFromOffset : Prop :=
  encode .peekOffset = 0x09#32 ∧ ∀ s : State,
    (s.bound = true → ¬ ReferenceOK s.arg1 s.arg2 →
      exec .peekOffset s = .next (completed s .invalidArgument 0 false)) ∧
    (MachineInv s → PeekOffsetReady s → ∃ t, exec .peekOffset s = .next t ∧
      t = { completed s .ok (((contents s).drop s.arg0.toNat).take s.arg2.toNat).length
              (decide ((((contents s).drop s.arg0.toNat).take s.arg2.toNat).length < s.arg2.toNat)) with
            mem := t.mem } ∧
      t.mem.hostBytes s.arg1.toNat (((contents s).drop s.arg0.toNat).take s.arg2.toNat).length =
        ((contents s).drop s.arg0.toNat).take s.arg2.toNat ∧
      contents t = contents s ∧
      MemoryKeptOutside s t s.arg1.toNat (((contents s).drop s.arg0.toNat).take s.arg2.toNat).length)

/-- R119: READ's removal without its copy; no host byte is written. -/
def Obligations.DiscardDropsFromFront : Prop :=
  encode .discard = 0x0A#32 ∧ ∀ s : State, RingReady s →
    exec .discard s = .next
      { completed s .ok (min s.arg0.toNat s.length.toNat) (decide (s.length.toNat < s.arg0.toNat)) with
        length := BitVec.ofNat 32 (s.length.toNat - s.arg0.toNat)
        rdIdx := BitVec.ofNat 32 ((s.rdIdx.toNat + min s.arg0.toNat s.length.toNat) % s.capacity.toNat) }

/-- R120: the smallest offset from `offset` on at which the pattern stands in the live region, searched as a line. -/
def Obligations.FindGivesFirstMatch : Prop :=
  encode .find = 0x0B#32 ∧ ∀ s : State,
    (s.bound = true →
      ¬ (ReferenceOK s.arg1 s.arg2 ∧ s.arg2 ≠ 0 ∧ s.arg0.toNat < s.length.toNat ∧
          s.arg2.toNat ≤ s.length.toNat - s.arg0.toNat) →
      exec .find s = .next (completed s .invalidArgument 0 false)) ∧
    (FindReady s → ∀ k, MatchAt s k → (∀ j < k, ¬ MatchAt s j) → exec .find s = .next (completed s .ok k false)) ∧
    (FindReady s → (∀ k, ¬ MatchAt s k) → exec .find s = .next (completed s .notFound 0xFFFFFFFF false))

/-! ## Block Codec commands -/

/-- R143: the block `[len][payload]` is appended, or nothing is. -/
def Obligations.WriteBlockAppendsBlock : Prop :=
  encode .writeBlock = 0x10#32 ∧ ∀ s : State,
    (s.bound = true → ¬ ReferenceOK s.arg0 s.arg1 →
      exec .writeBlock s = .next (completed s .invalidArgument 0 false)) ∧
    (s.bound = true → BufferReady s s.arg0 s.arg1 → space s < prefixBytes s + s.arg1.toNat →
      exec .writeBlock s = .next (completed s .insufficientSpace 0 false)) ∧
    (MachineInv s → WriteBlockReady s → ∃ t, exec .writeBlock s = .next t ∧
      t = { completed s .ok (prefixBytes s + s.arg1.toNat) false with
            mem := t.mem
            length := BitVec.ofNat 32 (s.length.toNat + (prefixBytes s + s.arg1.toNat))
            wrIdx := BitVec.ofNat 32 ((s.wrIdx.toNat + (prefixBytes s + s.arg1.toNat)) % s.capacity.toNat) } ∧
      contents t = contents s ++ blockWire s (s.mem.hostBytes s.arg0.toNat s.arg1.toNat) ∧
      MemoryKeptButAppended s t (prefixBytes s + s.arg1.toNat))

/-- R144: the declared length of the complete block at the read position. -/
def Obligations.PeekBlockLengthReportsDeclared : Prop :=
  encode .peekBlockLength = 0x11#32 ∧ ∀ s : State,
    (LookReady s (headSpan s) → ¬ BlockPresent s →
      exec .peekBlockLength s = .next (completed s .notPresent 0 false)) ∧
    (LookReady s (headSpan s) → BlockPresent s →
      exec .peekBlockLength s = .next (completed s .ok (declaredLength s) false))

/-- R145: the payload is copied out and the whole block removed, or nothing is. -/
def Obligations.ReadBlockRemovesBlock : Prop :=
  encode .readBlock = 0x12#32 ∧ ∀ s : State,
    (s.bound = true → ¬ ReferenceOK s.arg0 s.arg1 →
      exec .readBlock s = .next (completed s .invalidArgument 0 false)) ∧
    (LookReady s (headSpan s) → ReferenceOK s.arg0 s.arg1 → ¬ BlockPresent s →
      exec .readBlock s = .next (completed s .notPresent 0 false)) ∧
    (LookReady s (headSpan s) → ReferenceOK s.arg0 s.arg1 → BlockPresent s → s.arg1.toNat < declaredLength s →
      exec .readBlock s = .next (completed s .destTooSmall 0 false)) ∧
    (MachineInv s → BlockPresent s → declaredLength s ≤ s.arg1.toNat → BlockOutReady s (declaredLength s) →
      ∃ t, exec .readBlock s = .next t ∧
      t = { completed s .ok (declaredLength s) false with
            mem := t.mem
            length := BitVec.ofNat 32 (s.length.toNat - (prefixBytes s + declaredLength s))
            rdIdx := BitVec.ofNat 32
              ((s.rdIdx.toNat + (prefixBytes s + declaredLength s)) % s.capacity.toNat) } ∧
      t.mem.hostBytes s.arg0.toNat (declaredLength s) =
        ((contents s).drop (prefixBytes s)).take (declaredLength s) ∧
      contents t = (contents s).drop (prefixBytes s + declaredLength s) ∧
      MemoryKeptOutside s t s.arg0.toNat (declaredLength s))

/-- R146: the payload is copied out, truncated to `out_cap`; no ring state changes. -/
def Obligations.PeekBlockCopiesPayload : Prop :=
  encode .peekBlock = 0x13#32 ∧ ∀ s : State,
    (s.bound = true → ¬ ReferenceOK s.arg0 s.arg1 →
      exec .peekBlock s = .next (completed s .invalidArgument 0 false)) ∧
    (LookReady s (headSpan s) → ReferenceOK s.arg0 s.arg1 → ¬ BlockPresent s →
      exec .peekBlock s = .next (completed s .notPresent 0 false)) ∧
    (MachineInv s → BlockPresent s → BlockOutReady s (min (declaredLength s) s.arg1.toNat) →
      ∃ t, exec .peekBlock s = .next t ∧
      t = { completed s .ok (min (declaredLength s) s.arg1.toNat) (decide (s.arg1.toNat < declaredLength s)) with
            mem := t.mem } ∧
      t.mem.hostBytes s.arg0.toNat (min (declaredLength s) s.arg1.toNat) =
        ((contents s).drop (prefixBytes s)).take (min (declaredLength s) s.arg1.toNat) ∧
      contents t = contents s ∧
      MemoryKeptOutside s t s.arg0.toNat (min (declaredLength s) s.arg1.toNat))

/-- R147: the whole block is removed without a copy, or nothing is. -/
def Obligations.DiscardBlockRemovesBlock : Prop :=
  encode .discardBlock = 0x14#32 ∧ ∀ s : State,
    (LookReady s (headSpan s) → ¬ BlockPresent s →
      exec .discardBlock s = .next (completed s .notPresent 0 false)) ∧
    (LookReady s (headSpan s) → BlockPresent s →
      exec .discardBlock s = .next
        { completed s .ok (prefixBytes s + declaredLength s) false with
          length := BitVec.ofNat 32 (s.length.toNat - (prefixBytes s + declaredLength s))
          rdIdx := BitVec.ofNat 32 ((s.rdIdx.toNat + (prefixBytes s + declaredLength s)) % s.capacity.toNat) })

/-- R148, R142: a live region that is a sequence of complete blocks gives their number, every other one CORRUPT. -/
def Obligations.CountBlocksCountsOrCorrupt : Prop :=
  encode .countBlocks = 0x15#32 ∧ ∀ s : State, LookReady s s.length.toNat →
    (∀ payloads, contents s = blocksWire s payloads →
      exec .countBlocks s = .next (completed s .ok payloads.length false)) ∧
    ((¬ ∃ payloads, contents s = blocksWire s payloads) →
      exec .countBlocks s = .next (completed s .corrupt 0 false))

/-! ## Frame Codec commands -/

/-- R162: the frame `[hlen+plen][header][payload]` is appended, or nothing is. -/
def Obligations.WriteFrameAppendsFrame : Prop :=
  encode .writeFrame = 0x20#32 ∧ ∀ s : State,
    (s.bound = true → ¬ (ReferenceOK s.arg0 s.arg1 ∧ ReferenceOK s.arg2 s.arg3) →
      exec .writeFrame s = .next (completed s .invalidArgument 0 false)) ∧
    (s.bound = true → BufferReady s s.arg0 s.arg1 → BufferReady s s.arg2 s.arg3 →
      space s < prefixBytes s + s.arg1.toNat + s.arg3.toNat →
      exec .writeFrame s = .next (completed s .insufficientSpace 0 false)) ∧
    (MachineInv s → WriteFrameReady s → ∃ t, exec .writeFrame s = .next t ∧
      t = { completed s .ok (prefixBytes s + s.arg1.toNat + s.arg3.toNat) false with
            mem := t.mem
            length := BitVec.ofNat 32 (s.length.toNat + (prefixBytes s + s.arg1.toNat + s.arg3.toNat))
            wrIdx := BitVec.ofNat 32
              ((s.wrIdx.toNat + (prefixBytes s + s.arg1.toNat + s.arg3.toNat)) % s.capacity.toNat) } ∧
      contents t = contents s ++
        frameWire s (s.mem.hostBytes s.arg0.toNat s.arg1.toNat) (s.mem.hostBytes s.arg2.toNat s.arg3.toNat) ∧
      MemoryKeptButAppended s t (prefixBytes s + s.arg1.toNat + s.arg3.toNat))

/-- R163: the frame is copied out, split after `hlen` bytes; no ring state changes and nothing is truncated. -/
def Obligations.PeekFrameSplitsFrame : Prop :=
  encode .peekFrame = 0x21#32 ∧ ∀ s : State,
    (s.bound = true → ¬ (ReferenceOK s.arg0 s.arg1 ∧ ReferenceOK s.arg2 s.arg3) →
      exec .peekFrame s = .next (completed s .invalidArgument 0 false)) ∧
    (LookReady s (headSpan s) → ReferenceOK s.arg0 s.arg1 → ReferenceOK s.arg2 s.arg3 →
      (¬ BlockPresent s → exec .peekFrame s = .next (completed s .notPresent 0 false)) ∧
      (BlockPresent s → declaredLength s < s.arg1.toNat →
        exec .peekFrame s = .next (completed s .shortFrame 0 false)) ∧
      (BlockPresent s → s.arg1.toNat + s.arg3.toNat < declaredLength s →
        exec .peekFrame s = .next (completed s .destTooSmall 0 false))) ∧
    (MachineInv s → BlockPresent s → s.arg1.toNat ≤ declaredLength s →
      declaredLength s ≤ s.arg1.toNat + s.arg3.toNat → FrameOutReady s (declaredLength s - s.arg1.toNat) →
      ∃ t, exec .peekFrame s = .next t ∧
      t = { completed s .ok (declaredLength s - s.arg1.toNat) false with mem := t.mem } ∧
      t.mem.hostBytes s.arg0.toNat s.arg1.toNat = ((contents s).drop (prefixBytes s)).take s.arg1.toNat ∧
      t.mem.hostBytes s.arg2.toNat (declaredLength s - s.arg1.toNat) =
        ((contents s).drop (prefixBytes s + s.arg1.toNat)).take (declaredLength s - s.arg1.toNat) ∧
      contents t = contents s ∧
      ∀ a, ¬ (s.arg0.toNat ≤ a ∧ a < s.arg0.toNat + s.arg1.toNat) →
        ¬ (s.arg2.toNat ≤ a ∧ a < s.arg2.toNat + (declaredLength s - s.arg1.toNat)) →
        t.mem.read a = s.mem.read a)

/-- R164: PEEK_FRAME's copy, then the whole frame is removed. -/
def Obligations.ReadFrameRemovesFrame : Prop :=
  encode .readFrame = 0x22#32 ∧ ∀ s : State,
    (s.bound = true → ¬ (ReferenceOK s.arg0 s.arg1 ∧ ReferenceOK s.arg2 s.arg3) →
      exec .readFrame s = .next (completed s .invalidArgument 0 false)) ∧
    (LookReady s (headSpan s) → ReferenceOK s.arg0 s.arg1 → ReferenceOK s.arg2 s.arg3 →
      (¬ BlockPresent s → exec .readFrame s = .next (completed s .notPresent 0 false)) ∧
      (BlockPresent s → declaredLength s < s.arg1.toNat →
        exec .readFrame s = .next (completed s .shortFrame 0 false)) ∧
      (BlockPresent s → s.arg1.toNat + s.arg3.toNat < declaredLength s →
        exec .readFrame s = .next (completed s .destTooSmall 0 false))) ∧
    (MachineInv s → BlockPresent s → s.arg1.toNat ≤ declaredLength s →
      declaredLength s ≤ s.arg1.toNat + s.arg3.toNat → FrameOutReady s (declaredLength s - s.arg1.toNat) →
      ∃ t, exec .readFrame s = .next t ∧
      t = { completed s .ok (declaredLength s - s.arg1.toNat) false with
            mem := t.mem
            length := BitVec.ofNat 32 (s.length.toNat - (prefixBytes s + declaredLength s))
            rdIdx := BitVec.ofNat 32
              ((s.rdIdx.toNat + (prefixBytes s + declaredLength s)) % s.capacity.toNat) } ∧
      t.mem.hostBytes s.arg0.toNat s.arg1.toNat = ((contents s).drop (prefixBytes s)).take s.arg1.toNat ∧
      t.mem.hostBytes s.arg2.toNat (declaredLength s - s.arg1.toNat) =
        ((contents s).drop (prefixBytes s + s.arg1.toNat)).take (declaredLength s - s.arg1.toNat) ∧
      contents t = (contents s).drop (prefixBytes s + declaredLength s) ∧
      ∀ a, ¬ (s.arg0.toNat ≤ a ∧ a < s.arg0.toNat + s.arg1.toNat) →
        ¬ (s.arg2.toNat ≤ a ∧ a < s.arg2.toNat + (declaredLength s - s.arg1.toNat)) →
        t.mem.read a = s.mem.read a)

/-- R165: COUNT_FRAMES counts as COUNT_BLOCKS does, on every state. -/
def Obligations.CountFramesCountsOrCorrupt : Prop :=
  encode .countFrames = 0x23#32 ∧ (∀ s : State, exec .countFrames s = exec .countBlocks s) ∧
    ∀ s : State, LookReady s s.length.toNat →
      ∃ t, exec .countFrames s = .next t ∧ t = completed s t.code t.result.toNat false ∧
        ((∃ payloads, contents s = blocksWire s payloads ∧ t.code = .ok ∧ t.result = BitVec.ofNat 32 payloads.length) ∨
          ((¬ ∃ payloads, contents s = blocksWire s payloads) ∧ t.code = .corrupt ∧ t.result = 0))

/-! ## What commands do one after the other (95_test_vectors.md L1.3) -/

/-- Write/read round-trip: from an empty ring, `n ≤ CAPACITY` bytes written and read back are the bytes written,
across the physical end too, and the ring is empty again. -/
def Obligations.WriteThenReadRoundTrip : Prop :=
  ∀ (s : State) (out : Word), MachineInv s → WriteReady s → s.length = 0 → s.arg1.toNat ≤ s.capacity.toNat →
    BufferReady s out s.arg1 → BufferBacked s out s.arg1.toNat →
    ∃ t u, exec .write s = .next t ∧ exec .read { t with arg0 := out } = .next u ∧
      t.code = .ok ∧ t.result = s.arg1 ∧ u.code = .ok ∧ u.result = s.arg1 ∧ u.trunc = false ∧ u.length = 0 ∧
      u.mem.hostBytes out.toNat s.arg1.toNat = s.mem.hostBytes s.arg0.toNat s.arg1.toNat

/-- Block round-trip: from an empty ring, a block written and read back gives its payload and leaves the ring empty.
-/
def Obligations.WriteBlockThenReadBlockRoundTrip : Prop :=
  ∀ (s : State) (out outCap : Word), MachineInv s → WriteBlockReady s → s.length = 0 → s.arg1.toNat ≤ outCap.toNat →
    BufferReady s out outCap → BufferBacked s out s.arg1.toNat →
    ∃ t u, exec .writeBlock s = .next t ∧ exec .readBlock { t with arg0 := out, arg1 := outCap } = .next u ∧
      t.code = .ok ∧ u.code = .ok ∧ u.result = s.arg1 ∧ u.length = 0 ∧
      u.mem.hostBytes out.toNat s.arg1.toNat = s.mem.hostBytes s.arg0.toNat s.arg1.toNat

/-- Frame split correctness: from an empty ring, a frame written and read back with the same header length gives its
header and its payload. -/
def Obligations.WriteFrameThenReadFrameRoundTrip : Prop :=
  ∀ (s : State) (headerOut payloadOut maxPlen : Word), MachineInv s → WriteFrameReady s → s.length = 0 →
    s.arg3.toNat ≤ maxPlen.toNat → BufferReady s headerOut s.arg1 → BufferReady s payloadOut maxPlen →
    Apart (reference headerOut s.arg1) (reference payloadOut maxPlen) →
    BufferBacked s headerOut s.arg1.toNat → BufferBacked s payloadOut s.arg3.toNat →
    ∃ t u, exec .writeFrame s = .next t ∧
      exec .readFrame { t with arg0 := headerOut, arg2 := payloadOut, arg3 := maxPlen } = .next u ∧
      t.code = .ok ∧ u.code = .ok ∧ u.result = s.arg3 ∧ u.length = 0 ∧
      u.mem.hostBytes headerOut.toNat s.arg1.toNat = s.mem.hostBytes s.arg0.toNat s.arg1.toNat ∧
      u.mem.hostBytes payloadOut.toNat s.arg3.toNat = s.mem.hostBytes s.arg2.toNat s.arg3.toNat

/-- Peek idempotence: a second PEEK gives the same state. -/
def Obligations.PeekTwiceIsPeekOnce : Prop :=
  ∀ s : State, MachineInv s → ReadReady s →
    ∃ t u, exec .peek s = .next t ∧ exec .peek t = .next u ∧ u = t

/-- Discard equivalence: DISCARD of `n` bytes leaves what READ of `n` bytes leaves, with no host byte written. -/
def Obligations.DiscardIsReadWithoutCopy : Prop :=
  ∀ s : State, MachineInv s → ReadReady s →
    ∃ t u, exec .read s = .next t ∧ exec .discard { s with arg0 := s.arg1 } = .next u ∧
      u = { t with mem := s.mem, arg0 := s.arg1 }

/-! ## The register window, the host's duties and reset -/

/-- STATUS as a word (R32, R35), with the ten numbers of R181. -/
def Obligations.StatusWordFields : Prop :=
  (∀ s : State, (statusWord s).toNat =
    (codeBits s.code).toNat + 2 ^ 8 * s.trunc.toNat + 2 ^ 30 * s.bound.toNat + 2 ^ 31 * s.busy.toNat) ∧
    [StatusCode.ok, .invalidArgument, .insufficientSpace, .partialWrite, .notPresent, .corrupt, .destTooSmall,
      .shortFrame, .notFound, .illegalCommand].map (fun c => (codeBits c).toNat) = [0, 1, 2, 3, 4, 5, 6, 7, 8, 9]

/-- R30: a CMD write while BUSY = 0 stores the word, sets BUSY and makes the word pending. The schedule and the
`released` premise are the model's (log 1, log 12). -/
def Obligations.CmdWriteIssuesCommand : Prop :=
  ∀ (s : State) (w : Word) (rest : List Input), s.busy = false → s.released = false →
    s.inputs = .writeReg s.cfg.coreBase .word w :: rest →
    step s = .next { s with cmd := w, busy := true, inputs := rest }

/-- R29, R38, R39: while BUSY = 0, a word write at an offset changes the ARG register that stands there, and nothing
at any other offset but CMD's. -/
def Obligations.WindowWriteSetsOnlyArgs : Prop :=
  ∀ (s : State) (addr v : Word) (rest : List Input) (off : Nat), s.busy = false →
    s.inputs = .writeReg addr .word v :: rest → addr.toNat = s.cfg.coreBase.toNat + off →
    off % 4 = 0 → 0 < off → off < 256 →
    ∃ t, step s = .next t ∧
      t = { s with
            inputs := rest
            arg0 := if off = 0x0C then v else s.arg0
            arg1 := if off = 0x10 then v else s.arg1
            arg2 := if off = 0x14 then v else s.arg2
            arg3 := if off = 0x18 then v else s.arg3 }

/-- R29, R38: while BUSY = 0, a word read returns the register that stands at the offset, and 0 at offsets 0x34 to
0xFC. Where the value lands is the model's (log 13). -/
def Obligations.WindowReadGivesRegister : Prop :=
  ∀ (s : State) (addr : Word) (rest : List Input) (off : Nat), s.busy = false →
    s.inputs = .readReg addr .word :: rest → addr.toNat = s.cfg.coreBase.toNat + off → off % 4 = 0 → off < 256 →
    step s = .next { s with
      inputs := rest
      readData :=
        [s.cmd, statusWord s, s.result, s.arg0, s.arg1, s.arg2, s.arg3, BitVec.ofNat 32 (prefixBytes s),
          s.storageBase, s.capacity, s.length, s.wrIdx, s.rdIdx].getD (off / 4) 0 }

/-- R36: while BUSY = 1, a read of STATUS returns BUSY = 1 with CODE and TRUNC of the previous command, and a read of
any other register changes nothing of CORE, whatever value it returns. -/
def Obligations.ReadsWhileBusy : Prop :=
  ∀ (s : State) (addr : Word) (rest : List Input) (off : Nat), s.busy = true →
    s.inputs = .readReg addr .word :: rest → addr.toNat = s.cfg.coreBase.toNat + off → off % 4 = 0 → off < 256 →
    (off = 4 → step s = .next { s with inputs := rest, readData := statusWord s } ∧ (statusWord s).msb = true) ∧
    (off ≠ 4 → ∃ t, step s = .next t ∧
      { t with readData := s.readData, draws := s.draws } = { s with inputs := rest })

/-- R52, R207: a window access of another width or alignment is refused, and while BUSY = 1 so is every other host
write to the window. -/
def Obligations.BadWindowAccessRefused : Prop :=
  ∀ (s : State) (addr v : Word) (width : AccessWidth) (rest : List Input) (off : Nat),
    addr.toNat = s.cfg.coreBase.toNat + off → off < 256 →
    ((width ≠ .word ∨ off % 4 ≠ 0) →
      (s.inputs = .writeReg addr width v :: rest → step s = .refused .windowAccessShape) ∧
      (s.inputs = .readReg addr width :: rest → step s = .refused .windowAccessShape)) ∧
    (width = .word → off % 4 = 0 → s.busy = true → s.inputs = .writeReg addr width v :: rest →
      step s = .refused .windowWriteWhileBusy)

/-- R67, R206, R195: a host write to a byte of a bound ring's storage is refused while BUSY = 0 too, released or not;
while BUSY = 1 the host may neither write nor read a byte of a region the pending command names, nor of a bound ring's
storage. That a pending INIT's region counts is the model's reading (log 24). The premise on the window keeps off R52.
-/
def Obligations.HostMemoryDutiesRefused : Prop :=
  ∀ (s : State) (addr : Word) (v : Byte) (rest : List Input), windowOffset s.cfg addr = none →
    (s.busy = false → s.bound = true → byteBacked s.cfg addr.toNat = true →
      s.storageBase.toNat ≤ addr.toNat → addr.toNat < s.storageBase.toNat + s.capacity.toNat →
      s.inputs = .writeMem addr v :: rest → step s = .refused .storageWriteWhileBound) ∧
    (s.busy = true →
      ((∃ i, decode s.cmd = some i ∧ ∃ r ∈ referenceOperands i s, r.base ≤ addr.toNat ∧ addr.toNat < r.base + r.size) ∨
        (s.bound = true ∧ s.storageBase.toNat ≤ addr.toNat ∧
          addr.toNat < s.storageBase.toNat + s.capacity.toNat)) →
      (s.inputs = .writeMem addr v :: rest → step s = .refused .bufferAccessWhileBusy) ∧
      (s.inputs = .readMem addr :: rest → step s = .refused .bufferAccessWhileBusy))

/-- R60: a command whose references pass and whose regions break the overlap contract is refused. An appending command
is refused whatever its own checks say, a copying one where its own checks let it copy. The extents of the regions are
the model's reading (log 8). -/
def Obligations.OverlapIsRefused : Prop :=
  ∀ (i : Instr) (s : State), s.bound = true → (∀ r ∈ referenceOperands i s, regionOK r = true) →
    OverlapBroken i s → ReachesCopy i s → exec i s = .refused .overlapContract

/-- R53: a command that would access a byte that memory does not back has no step. Which bytes a command accesses is
read from its pseudocode (log 9); that it is a fault is the model's reading (log 7). R27 is needed only where the
places of a second append follow the first one's. -/
def Obligations.UnbackedByteSticks : Prop :=
  ∀ (i : Instr) (s : State), s.bound = true → (i = .writeBlock ∨ i = .writeFrame → RingInv s) →
    (∀ r ∈ referenceOperands i s, regionOK r = true) → ¬ OverlapBroken i s → MissingByte i s →
    exec i s = .fault .hostMemNotAdmitted

/-- R200, R202, R43: with no command pending, reset gives every register its reset value, written out here, keeps
CONFIG and writes no host byte. What it keeps of the host's is the model's (log 22). -/
def Obligations.ResetGivesResetValues : Prop :=
  ∀ (s : State) (rest : List Input), s.busy = false → s.inputs = .reset :: rest →
    ∃ t, step s = .next t ∧
      t = { State.reset with
        cfg := s.cfg, mem := s.mem, inputs := rest, readData := s.readData, draws := s.draws } ∧
      t.storageBase = 0 ∧ t.capacity = 0 ∧ t.length = 0 ∧ t.wrIdx = 0 ∧ t.rdIdx = 0 ∧ t.bound = false ∧
      t.cmd = 0 ∧ t.arg0 = 0 ∧ t.arg1 = 0 ∧ t.arg2 = 0 ∧ t.arg3 = 0 ∧ t.result = 0 ∧
      statusWord t = 0x00000000#32 ∧ configWord t = BitVec.ofNat 32 (prefixBytes s)

/-- R201: reset wins over a pending command. Each byte the command would have written holds its old value or the one
the command would have written, every other byte is unchanged, and the registers carry no trace of it, whatever the
free draws are. A pending word that selects no command, and a stuck command, would have written no byte: memory stays
as it was (log 11). -/
def Obligations.ResetAbandonsPendingCommand : Prop :=
  ∀ (s : State) (rest : List Input), MachineInv s → s.busy = true → s.inputs = .reset :: rest →
    (∀ (i : Instr) (t : State), decode s.cmd = some i → exec i { s with inputs := rest } = .next t →
      ∃ u, step s = .next u ∧
        { u with mem := s.mem, draws := s.draws } =
          { State.reset with cfg := s.cfg, mem := s.mem, inputs := rest, readData := s.readData, draws := s.draws } ∧
        ∀ a, u.mem.read a = s.mem.read a ∨ u.mem.read a = t.mem.read a) ∧
    ((decode s.cmd = none ∨
        ∃ (i : Instr) (f : Fault), decode s.cmd = some i ∧ exec i { s with inputs := rest } = .fault f) →
      ∃ u, step s = .next u ∧
        { u with draws := s.draws } =
          { State.reset with cfg := s.cfg, mem := s.mem, inputs := rest, readData := s.readData, draws := s.draws })

/-- R78, R205: running the moves a source line assembles to, one step each, and one engine step gives what `exec`
answers for its command with the line's operands in the ARG registers, those it does not write as they stood. That
answer may be a completion, a fault (R53) or a refusal (R60). The schedule is the model's (log 1), and so is the
premise that the storage was not released (log 12). -/
def Obligations.LineRunsItsCommand : Prop :=
  ∀ (s : State) (l : Line) (rest : List Input), s.cfg.wellFormed = true → s.busy = false → s.released = false →
    l.wellFormed = true → s.inputs = assemble s.cfg l ++ rest →
    runSteps (l.operands.length + 2) s =
      exec l.command
        { s with
          arg0 := l.operands.getD 0 s.arg0, arg1 := l.operands.getD 1 s.arg1
          arg2 := l.operands.getD 2 s.arg2, arg3 := l.operands.getD 3 s.arg3
          cmd := encode l.command, busy := true, inputs := .pollIdle :: rest }
end

