-- ==== Sys2Proof/Laws/State.lean ====
section
/-! SUPPORT. What each shared update does to each field of State, one lemma per field, so that no proof unfolds a record
update. -/

namespace Sys2Proof.Machine

/-! ## `finish` (R77) -/

@[simp] theorem finish_storageBase (s : State) (c : StatusCode) (r : Nat) (t : Bool) : (finish s c r t).storageBase = s.storageBase := rfl
@[simp] theorem finish_capacity (s : State) (c : StatusCode) (r : Nat) (t : Bool) : (finish s c r t).capacity = s.capacity := rfl
@[simp] theorem finish_length (s : State) (c : StatusCode) (r : Nat) (t : Bool) : (finish s c r t).length = s.length := rfl
@[simp] theorem finish_wrIdx (s : State) (c : StatusCode) (r : Nat) (t : Bool) : (finish s c r t).wrIdx = s.wrIdx := rfl
@[simp] theorem finish_rdIdx (s : State) (c : StatusCode) (r : Nat) (t : Bool) : (finish s c r t).rdIdx = s.rdIdx := rfl
@[simp] theorem finish_bound (s : State) (c : StatusCode) (r : Nat) (t : Bool) : (finish s c r t).bound = s.bound := rfl
@[simp] theorem finish_cmd (s : State) (c : StatusCode) (r : Nat) (t : Bool) : (finish s c r t).cmd = s.cmd := rfl
@[simp] theorem finish_code (s : State) (c : StatusCode) (r : Nat) (t : Bool) : (finish s c r t).code = c := rfl
@[simp] theorem finish_trunc (s : State) (c : StatusCode) (r : Nat) (t : Bool) : (finish s c r t).trunc = t := rfl
@[simp] theorem finish_busy (s : State) (c : StatusCode) (r : Nat) (t : Bool) : (finish s c r t).busy = false := rfl
@[simp] theorem finish_result (s : State) (c : StatusCode) (r : Nat) (t : Bool) : (finish s c r t).result = BitVec.ofNat 32 r := rfl
@[simp] theorem finish_arg0 (s : State) (c : StatusCode) (r : Nat) (t : Bool) : (finish s c r t).arg0 = s.arg0 := rfl
@[simp] theorem finish_arg1 (s : State) (c : StatusCode) (r : Nat) (t : Bool) : (finish s c r t).arg1 = s.arg1 := rfl
@[simp] theorem finish_arg2 (s : State) (c : StatusCode) (r : Nat) (t : Bool) : (finish s c r t).arg2 = s.arg2 := rfl
@[simp] theorem finish_arg3 (s : State) (c : StatusCode) (r : Nat) (t : Bool) : (finish s c r t).arg3 = s.arg3 := rfl
@[simp] theorem finish_cfg (s : State) (c : StatusCode) (r : Nat) (t : Bool) : (finish s c r t).cfg = s.cfg := rfl
@[simp] theorem finish_mem (s : State) (c : StatusCode) (r : Nat) (t : Bool) : (finish s c r t).mem = s.mem := rfl
@[simp] theorem finish_released (s : State) (c : StatusCode) (r : Nat) (t : Bool) : (finish s c r t).released = s.released := rfl
@[simp] theorem finish_inputs (s : State) (c : StatusCode) (r : Nat) (t : Bool) : (finish s c r t).inputs = s.inputs := rfl
@[simp] theorem finish_readData (s : State) (c : StatusCode) (r : Nat) (t : Bool) : (finish s c r t).readData = s.readData := rfl
@[simp] theorem finish_draws (s : State) (c : StatusCode) (r : Nat) (t : Bool) : (finish s c r t).draws = s.draws := rfl

/-! ## `fail` (R77) -/

@[simp] theorem fail_storageBase (s : State) (c : StatusCode) : (fail s c).storageBase = s.storageBase := rfl
@[simp] theorem fail_capacity (s : State) (c : StatusCode) : (fail s c).capacity = s.capacity := rfl
@[simp] theorem fail_length (s : State) (c : StatusCode) : (fail s c).length = s.length := rfl
@[simp] theorem fail_wrIdx (s : State) (c : StatusCode) : (fail s c).wrIdx = s.wrIdx := rfl
@[simp] theorem fail_rdIdx (s : State) (c : StatusCode) : (fail s c).rdIdx = s.rdIdx := rfl
@[simp] theorem fail_bound (s : State) (c : StatusCode) : (fail s c).bound = s.bound := rfl
@[simp] theorem fail_cmd (s : State) (c : StatusCode) : (fail s c).cmd = s.cmd := rfl
@[simp] theorem fail_code (s : State) (c : StatusCode) : (fail s c).code = c := rfl
@[simp] theorem fail_trunc (s : State) (c : StatusCode) : (fail s c).trunc = false := rfl
@[simp] theorem fail_busy (s : State) (c : StatusCode) : (fail s c).busy = false := rfl
@[simp] theorem fail_result (s : State) (c : StatusCode) : (fail s c).result = 0 := rfl
@[simp] theorem fail_arg0 (s : State) (c : StatusCode) : (fail s c).arg0 = s.arg0 := rfl
@[simp] theorem fail_arg1 (s : State) (c : StatusCode) : (fail s c).arg1 = s.arg1 := rfl
@[simp] theorem fail_arg2 (s : State) (c : StatusCode) : (fail s c).arg2 = s.arg2 := rfl
@[simp] theorem fail_arg3 (s : State) (c : StatusCode) : (fail s c).arg3 = s.arg3 := rfl
@[simp] theorem fail_cfg (s : State) (c : StatusCode) : (fail s c).cfg = s.cfg := rfl
@[simp] theorem fail_mem (s : State) (c : StatusCode) : (fail s c).mem = s.mem := rfl
@[simp] theorem fail_released (s : State) (c : StatusCode) : (fail s c).released = s.released := rfl
@[simp] theorem fail_inputs (s : State) (c : StatusCode) : (fail s c).inputs = s.inputs := rfl
@[simp] theorem fail_readData (s : State) (c : StatusCode) : (fail s c).readData = s.readData := rfl
@[simp] theorem fail_draws (s : State) (c : StatusCode) : (fail s c).draws = s.draws := rfl

/-! ## `emptyRing` (R111) -/

@[simp] theorem emptyRing_storageBase (s : State) : (emptyRing s).storageBase = s.storageBase := rfl
@[simp] theorem emptyRing_capacity (s : State) : (emptyRing s).capacity = s.capacity := rfl
@[simp] theorem emptyRing_length (s : State) : (emptyRing s).length = 0 := rfl
@[simp] theorem emptyRing_wrIdx (s : State) : (emptyRing s).wrIdx = 0 := rfl
@[simp] theorem emptyRing_rdIdx (s : State) : (emptyRing s).rdIdx = 0 := rfl
@[simp] theorem emptyRing_bound (s : State) : (emptyRing s).bound = s.bound := rfl
@[simp] theorem emptyRing_cmd (s : State) : (emptyRing s).cmd = s.cmd := rfl
@[simp] theorem emptyRing_code (s : State) : (emptyRing s).code = s.code := rfl
@[simp] theorem emptyRing_trunc (s : State) : (emptyRing s).trunc = s.trunc := rfl
@[simp] theorem emptyRing_busy (s : State) : (emptyRing s).busy = s.busy := rfl
@[simp] theorem emptyRing_result (s : State) : (emptyRing s).result = s.result := rfl
@[simp] theorem emptyRing_arg0 (s : State) : (emptyRing s).arg0 = s.arg0 := rfl
@[simp] theorem emptyRing_arg1 (s : State) : (emptyRing s).arg1 = s.arg1 := rfl
@[simp] theorem emptyRing_arg2 (s : State) : (emptyRing s).arg2 = s.arg2 := rfl
@[simp] theorem emptyRing_arg3 (s : State) : (emptyRing s).arg3 = s.arg3 := rfl
@[simp] theorem emptyRing_cfg (s : State) : (emptyRing s).cfg = s.cfg := rfl
@[simp] theorem emptyRing_mem (s : State) : (emptyRing s).mem = s.mem := rfl
@[simp] theorem emptyRing_released (s : State) : (emptyRing s).released = s.released := rfl
@[simp] theorem emptyRing_inputs (s : State) : (emptyRing s).inputs = s.inputs := rfl
@[simp] theorem emptyRing_readData (s : State) : (emptyRing s).readData = s.readData := rfl
@[simp] theorem emptyRing_draws (s : State) : (emptyRing s).draws = s.draws := rfl

/-! ## `bindRing` (R110) -/

@[simp] theorem bindRing_storageBase (s : State) (b c : Word) : (bindRing s b c).storageBase = b := rfl
@[simp] theorem bindRing_capacity (s : State) (b c : Word) : (bindRing s b c).capacity = c := rfl
@[simp] theorem bindRing_length (s : State) (b c : Word) : (bindRing s b c).length = 0 := rfl
@[simp] theorem bindRing_wrIdx (s : State) (b c : Word) : (bindRing s b c).wrIdx = 0 := rfl
@[simp] theorem bindRing_rdIdx (s : State) (b c : Word) : (bindRing s b c).rdIdx = 0 := rfl
@[simp] theorem bindRing_bound (s : State) (b c : Word) : (bindRing s b c).bound = true := rfl
@[simp] theorem bindRing_cmd (s : State) (b c : Word) : (bindRing s b c).cmd = s.cmd := rfl
@[simp] theorem bindRing_code (s : State) (b c : Word) : (bindRing s b c).code = s.code := rfl
@[simp] theorem bindRing_trunc (s : State) (b c : Word) : (bindRing s b c).trunc = s.trunc := rfl
@[simp] theorem bindRing_busy (s : State) (b c : Word) : (bindRing s b c).busy = s.busy := rfl
@[simp] theorem bindRing_result (s : State) (b c : Word) : (bindRing s b c).result = s.result := rfl
@[simp] theorem bindRing_arg0 (s : State) (b c : Word) : (bindRing s b c).arg0 = s.arg0 := rfl
@[simp] theorem bindRing_arg1 (s : State) (b c : Word) : (bindRing s b c).arg1 = s.arg1 := rfl
@[simp] theorem bindRing_arg2 (s : State) (b c : Word) : (bindRing s b c).arg2 = s.arg2 := rfl
@[simp] theorem bindRing_arg3 (s : State) (b c : Word) : (bindRing s b c).arg3 = s.arg3 := rfl
@[simp] theorem bindRing_cfg (s : State) (b c : Word) : (bindRing s b c).cfg = s.cfg := rfl
@[simp] theorem bindRing_mem (s : State) (b c : Word) : (bindRing s b c).mem = s.mem := rfl
@[simp] theorem bindRing_released (s : State) (b c : Word) : (bindRing s b c).released = false := rfl
@[simp] theorem bindRing_inputs (s : State) (b c : Word) : (bindRing s b c).inputs = s.inputs := rfl
@[simp] theorem bindRing_readData (s : State) (b c : Word) : (bindRing s b c).readData = s.readData := rfl
@[simp] theorem bindRing_draws (s : State) (b c : Word) : (bindRing s b c).draws = s.draws := rfl

/-! ## `append` (R104) -/

@[simp] theorem append_storageBase (s : State) (b : List Byte) : (append s b).storageBase = s.storageBase := rfl
@[simp] theorem append_capacity (s : State) (b : List Byte) : (append s b).capacity = s.capacity := rfl
@[simp] theorem append_length (s : State) (b : List Byte) : (append s b).length = BitVec.ofNat 32 (s.length.toNat + b.length) := rfl
@[simp] theorem append_wrIdx (s : State) (b : List Byte) : (append s b).wrIdx = BitVec.ofNat 32 (adv s.capacity.toNat s.wrIdx.toNat b.length) := rfl
@[simp] theorem append_rdIdx (s : State) (b : List Byte) : (append s b).rdIdx = s.rdIdx := rfl
@[simp] theorem append_bound (s : State) (b : List Byte) : (append s b).bound = s.bound := rfl
@[simp] theorem append_cmd (s : State) (b : List Byte) : (append s b).cmd = s.cmd := rfl
@[simp] theorem append_code (s : State) (b : List Byte) : (append s b).code = s.code := rfl
@[simp] theorem append_trunc (s : State) (b : List Byte) : (append s b).trunc = s.trunc := rfl
@[simp] theorem append_busy (s : State) (b : List Byte) : (append s b).busy = s.busy := rfl
@[simp] theorem append_result (s : State) (b : List Byte) : (append s b).result = s.result := rfl
@[simp] theorem append_arg0 (s : State) (b : List Byte) : (append s b).arg0 = s.arg0 := rfl
@[simp] theorem append_arg1 (s : State) (b : List Byte) : (append s b).arg1 = s.arg1 := rfl
@[simp] theorem append_arg2 (s : State) (b : List Byte) : (append s b).arg2 = s.arg2 := rfl
@[simp] theorem append_arg3 (s : State) (b : List Byte) : (append s b).arg3 = s.arg3 := rfl
@[simp] theorem append_cfg (s : State) (b : List Byte) : (append s b).cfg = s.cfg := rfl
@[simp] theorem append_mem (s : State) (b : List Byte) : (append s b).mem = s.mem.storeRun (freeAddr s) 0 b := rfl
@[simp] theorem append_released (s : State) (b : List Byte) : (append s b).released = s.released := rfl
@[simp] theorem append_inputs (s : State) (b : List Byte) : (append s b).inputs = s.inputs := rfl
@[simp] theorem append_readData (s : State) (b : List Byte) : (append s b).readData = s.readData := rfl
@[simp] theorem append_draws (s : State) (b : List Byte) : (append s b).draws = s.draws := rfl

/-! ## `remove` (R105) -/

@[simp] theorem remove_storageBase (s : State) (m : Nat) : (remove s m).storageBase = s.storageBase := rfl
@[simp] theorem remove_capacity (s : State) (m : Nat) : (remove s m).capacity = s.capacity := rfl
@[simp] theorem remove_length (s : State) (m : Nat) : (remove s m).length = BitVec.ofNat 32 (s.length.toNat - m) := rfl
@[simp] theorem remove_wrIdx (s : State) (m : Nat) : (remove s m).wrIdx = s.wrIdx := rfl
@[simp] theorem remove_rdIdx (s : State) (m : Nat) : (remove s m).rdIdx = BitVec.ofNat 32 (adv s.capacity.toNat s.rdIdx.toNat m) := rfl
@[simp] theorem remove_bound (s : State) (m : Nat) : (remove s m).bound = s.bound := rfl
@[simp] theorem remove_cmd (s : State) (m : Nat) : (remove s m).cmd = s.cmd := rfl
@[simp] theorem remove_code (s : State) (m : Nat) : (remove s m).code = s.code := rfl
@[simp] theorem remove_trunc (s : State) (m : Nat) : (remove s m).trunc = s.trunc := rfl
@[simp] theorem remove_busy (s : State) (m : Nat) : (remove s m).busy = s.busy := rfl
@[simp] theorem remove_result (s : State) (m : Nat) : (remove s m).result = s.result := rfl
@[simp] theorem remove_arg0 (s : State) (m : Nat) : (remove s m).arg0 = s.arg0 := rfl
@[simp] theorem remove_arg1 (s : State) (m : Nat) : (remove s m).arg1 = s.arg1 := rfl
@[simp] theorem remove_arg2 (s : State) (m : Nat) : (remove s m).arg2 = s.arg2 := rfl
@[simp] theorem remove_arg3 (s : State) (m : Nat) : (remove s m).arg3 = s.arg3 := rfl
@[simp] theorem remove_cfg (s : State) (m : Nat) : (remove s m).cfg = s.cfg := rfl
@[simp] theorem remove_mem (s : State) (m : Nat) : (remove s m).mem = s.mem := rfl
@[simp] theorem remove_released (s : State) (m : Nat) : (remove s m).released = s.released := rfl
@[simp] theorem remove_inputs (s : State) (m : Nat) : (remove s m).inputs = s.inputs := rfl
@[simp] theorem remove_readData (s : State) (m : Nat) : (remove s m).readData = s.readData := rfl
@[simp] theorem remove_draws (s : State) (m : Nat) : (remove s m).draws = s.draws := rfl

/-! ## `copyOut` (R103) -/

@[simp] theorem copyOut_storageBase (s u : State) (off m dst : Nat) : (copyOut s u off m dst).storageBase = u.storageBase := rfl
@[simp] theorem copyOut_capacity (s u : State) (off m dst : Nat) : (copyOut s u off m dst).capacity = u.capacity := rfl
@[simp] theorem copyOut_length (s u : State) (off m dst : Nat) : (copyOut s u off m dst).length = u.length := rfl
@[simp] theorem copyOut_wrIdx (s u : State) (off m dst : Nat) : (copyOut s u off m dst).wrIdx = u.wrIdx := rfl
@[simp] theorem copyOut_rdIdx (s u : State) (off m dst : Nat) : (copyOut s u off m dst).rdIdx = u.rdIdx := rfl
@[simp] theorem copyOut_bound (s u : State) (off m dst : Nat) : (copyOut s u off m dst).bound = u.bound := rfl
@[simp] theorem copyOut_cmd (s u : State) (off m dst : Nat) : (copyOut s u off m dst).cmd = u.cmd := rfl
@[simp] theorem copyOut_code (s u : State) (off m dst : Nat) : (copyOut s u off m dst).code = u.code := rfl
@[simp] theorem copyOut_trunc (s u : State) (off m dst : Nat) : (copyOut s u off m dst).trunc = u.trunc := rfl
@[simp] theorem copyOut_busy (s u : State) (off m dst : Nat) : (copyOut s u off m dst).busy = u.busy := rfl
@[simp] theorem copyOut_result (s u : State) (off m dst : Nat) : (copyOut s u off m dst).result = u.result := rfl
@[simp] theorem copyOut_arg0 (s u : State) (off m dst : Nat) : (copyOut s u off m dst).arg0 = u.arg0 := rfl
@[simp] theorem copyOut_arg1 (s u : State) (off m dst : Nat) : (copyOut s u off m dst).arg1 = u.arg1 := rfl
@[simp] theorem copyOut_arg2 (s u : State) (off m dst : Nat) : (copyOut s u off m dst).arg2 = u.arg2 := rfl
@[simp] theorem copyOut_arg3 (s u : State) (off m dst : Nat) : (copyOut s u off m dst).arg3 = u.arg3 := rfl
@[simp] theorem copyOut_cfg (s u : State) (off m dst : Nat) : (copyOut s u off m dst).cfg = u.cfg := rfl
@[simp] theorem copyOut_mem (s u : State) (off m dst : Nat) : (copyOut s u off m dst).mem = u.mem.storeRun (fun j => dst + j) 0 (ringBytes s off m) := rfl
@[simp] theorem copyOut_released (s u : State) (off m dst : Nat) : (copyOut s u off m dst).released = u.released := rfl
@[simp] theorem copyOut_inputs (s u : State) (off m dst : Nat) : (copyOut s u off m dst).inputs = u.inputs := rfl
@[simp] theorem copyOut_readData (s u : State) (off m dst : Nat) : (copyOut s u off m dst).readData = u.readData := rfl
@[simp] theorem copyOut_draws (s u : State) (off m dst : Nat) : (copyOut s u off m dst).draws = u.draws := rfl

end Sys2Proof.Machine
end

