-- ==== Sys2Proof/Laws/Control.lean ====
section
/-! SUPPORT. What the gates before and around a command's body can do (30_encoding.md R75 to R77, 20_memory.md R53, R57,
R60). -/

namespace Sys2Proof.Machine

open Sys2Proof.Safety

/-! ## The bound gate -/

theorem boundGate_of_bound {s : State} (h : s.bound = true) (k : Answer) : boundGate s k = k := by
  simp [boundGate, h]

theorem boundGate_of_unbound {s : State} (h : s.bound = false) (k : Answer) :
    boundGate s k = .next (fail s .invalidArgument) := by
  simp [boundGate, h]

/-- A gated command answers as its body does, or it fails on an unbound ring. -/
theorem boundGate_cases (s : State) (k : Answer) :
    (s.bound = true ∧ boundGate s k = k) ∨
      (s.bound = false ∧ boundGate s k = .next (fail s .invalidArgument)) := by
  cases h : s.bound <;> simp [boundGate, h]

/-! ## The reference checks -/

theorem checkReferences_of_ok {i : Instr} {s : State} (h : ∀ r ∈ referenceOperands i s, regionOK r = true)
    (k : Answer) : checkReferences i s k = k := by
  rw [checkReferences, if_pos (List.all_eq_true.mpr h)]

theorem checkReferences_of_bad {i : Instr} {s : State} (h : ∃ r ∈ referenceOperands i s, ¬ regionOK r = true)
    (k : Answer) : checkReferences i s k = .next (fail s .invalidArgument) := by
  obtain ⟨r, hr, hn⟩ := h
  rw [checkReferences, if_neg fun ha => hn (List.all_eq_true.mp ha r hr)]

/-- A command whose references are checked answers as its body does, or it fails. -/
theorem checkReferences_cases (i : Instr) (s : State) (k : Answer) :
    ((∀ r ∈ referenceOperands i s, regionOK r = true) ∧ checkReferences i s k = k) ∨
      ((∃ r ∈ referenceOperands i s, ¬ regionOK r = true) ∧
        checkReferences i s k = .next (fail s .invalidArgument)) := by
  by_cases h : ∀ r ∈ referenceOperands i s, regionOK r = true
  · exact .inl ⟨h, checkReferences_of_ok h k⟩
  · push Not at h
    exact .inr ⟨h, checkReferences_of_bad h k⟩

/-- `RegionOK` of a reference operand in the terms of R57. -/
theorem regionOK_reference {a c : Word} : regionOK (reference a c) = true ↔ ReferenceOK a c := by
  unfold regionOK
  rw [Bool.and_eq_true, decide_eq_true_iff, decide_eq_true_iff]
  exact and_congr_left' (not_congr ⟨fun h => BitVec.eq_of_toNat_eq h, fun h => by rw [reference, h]; rfl⟩)

/-! ## The gates before host bytes are touched -/

/-- The overlap gate answers as its body does, or it refuses. -/
theorem keepContract_cases (i : Instr) (s : State) (k : Answer) :
    (overlapFree i s = true ∧ keepContract i s k = k) ∨
      (overlapFree i s = false ∧ keepContract i s k = .refused .overlapContract) := by
  cases h : overlapFree i s <;> simp [keepContract, h]

theorem keepContract_of_ok {i : Instr} {s : State} (h : overlapFree i s = true) (k : Answer) :
    keepContract i s k = k := by
  simp [keepContract, h]

theorem keepContract_of_broken {i : Instr} {s : State} (h : overlapFree i s = false) (k : Answer) :
    keepContract i s k = .refused .overlapContract := by
  simp [keepContract, h]

/-- Touching host bytes answers the completion, or it is stuck. -/
theorem touchBytes_cases (s : State) (touched : List Nat) (t : State) :
    (admitsAll s touched = true ∧ touchBytes s touched t = .next t) ∨
      (admitsAll s touched = false ∧ touchBytes s touched t = .fault .hostMemNotAdmitted) := by
  cases h : admitsAll s touched <;> simp [touchBytes, h]

theorem touchBytes_of_ok {s : State} {touched : List Nat} {t : State} (h : admitsAll s touched = true) :
    touchBytes s touched t = .next t := by
  simp [touchBytes, h]

theorem touchBytes_of_missing {s : State} {touched : List Nat} {t : State} (h : admitsAll s touched = false) :
    touchBytes s touched t = .fault .hostMemNotAdmitted := by
  simp [touchBytes, h]

theorem moveData_of_ok {i : Instr} {s : State} {touched : List Nat} {t : State} (h : overlapFree i s = true) :
    moveData i s touched t = touchBytes s touched t := keepContract_of_ok h _

theorem admitsAll_iff {s : State} {l : List Nat} :
    admitsAll s l = true ↔ ∀ a ∈ l, byteBacked s.cfg a = true := by
  simp [admitsAll, hostMemAdmits, List.range_one]

theorem admitsAll_append {s : State} {l m : List Nat} :
    admitsAll s (l ++ m) = true ↔ admitsAll s l = true ∧ admitsAll s m = true := by
  simp [admitsAll, List.all_append]

theorem admitsAll_map {s : State} {addr : Nat → Nat} {n : Nat} :
    admitsAll s ((List.range n).map addr) = true ↔ Backed s addr n := by
  simp [admitsAll_iff]

theorem admitsAll_bufferBytes {s : State} {a : Word} {n : Nat} :
    admitsAll s (bufferBytes a.toNat n) = true ↔ BufferBacked s a n := admitsAll_map

theorem admitsAll_liveBytes {s : State} {off n : Nat} :
    admitsAll s (liveBytes s off n) = true ↔ LiveBacked s off n := admitsAll_map

theorem admitsAll_freeBytes {s : State} {n : Nat} :
    admitsAll s (freeBytes s n) = true ↔ Backed s (freeAddr s) n := admitsAll_map

theorem headBytes_eq (s : State) : headBytes s 0 = liveBytes s 0 (headSpan s) := by
  unfold headBytes headSpan
  simp only [Nat.sub_zero]
  split <;> simp [liveBytes]

/-- Host memory backs only bytes of the address space. -/
theorem byteBacked_lt {c : Config} {a : Nat} (h : byteBacked c a = true) : a < addressSpace := by
  simp only [byteBacked, Bool.and_eq_true, decide_eq_true_eq] at h
  exact h.1

/-! ## Regions -/

theorem regionsOverlap_eq_false {r q : Region} : regionsOverlap r q = false ↔ Apart r q := by
  simp only [regionsOverlap, Apart, Bool.and_eq_false_iff, decide_eq_false_iff_not]
  omega

/-- The overlap contract in the terms of R60. -/
theorem overlapFree_iff {i : Instr} {s : State} :
    overlapFree i s = true ↔
      (∀ d ∈ destinationRegions i s, Apart d (storageRegion s)) ∧ (destinationRegions i s).Pairwise Apart ∧
        (appends i = true → ∀ r ∈ sourceRegions i s, Apart r (storageRegion s)) := by
  simp only [overlapFree, Bool.and_eq_true, List.all_eq_true, Bool.not_eq_true', decide_eq_true_eq,
    Bool.or_eq_true, regionsOverlap_eq_false, and_assoc]
  cases appends i <;> simp

/-! ## Completion -/

theorem fail_eq (s : State) (c : StatusCode) : fail s c = completed s c 0 false := rfl

theorem finish_eq (s : State) (c : StatusCode) (r : Nat) (t : Bool) : finish s c r t = completed s c r t := rfl

end Sys2Proof.Machine
end

