-- ==== Sys2Proof/Laws/Memory.lean ====
section
/-! SUPPORT. What reading and writing host memory can do, and that every memory operation keeps the canonical form. -/

namespace Sys2Proof.Machine

@[simp] theorem read_nil (a : Nat) : Memory.read [] a = unlistedByte := rfl

theorem wf_nil : Memory.wf [] := by simp [Memory.wf]

theorem wf_cons {c : Host.Cell} {m : Memory} :
    Memory.wf (c :: m) ↔ (∀ x ∈ m, c.1 < x.1) ∧ (c.1 < addressSpace ∧ c.2 ≠ unlistedByte) ∧ Memory.wf m := by
  simp only [Memory.wf, List.pairwise_cons, List.forall_mem_cons]
  tauto

/-- A byte below every listed address reads as unlisted. -/
theorem read_of_below {m : Memory} {a : Nat} (h : ∀ c ∈ m, a < c.1) : m.read a = unlistedByte := by
  induction m with
  | nil => rfl
  | cons c m ih =>
    obtain ⟨k, v⟩ := c
    have hk : a < k := h (k, v) (by simp)
    simp only [Memory.read]
    rw [if_neg (by omega)]
    exact ih fun c hc => h c (by simp [hc])

theorem write_mem_addr {m : Memory} {a : Nat} {b : Byte} {c : Host.Cell} (h : c ∈ m.write a b) :
    c.1 = a ∨ c ∈ m := by
  induction m with
  | nil =>
    simp only [Memory.write] at h
    split at h <;> simp_all
  | cons x m ih =>
    obtain ⟨k, v⟩ := x
    simp only [Memory.write] at h
    split_ifs at h <;> simp only [List.mem_cons] at h ⊢ <;> aesop

/-- Read after write: the byte written where it was written, every other byte as before. -/
theorem read_write {m : Memory} (hm : m.wf) (a : Nat) (b : Byte) (x : Nat) :
    (m.write a b).read x = if x = a then b else m.read x := by
  induction m with
  | nil =>
    by_cases hb : b = unlistedByte <;> simp [Memory.write, Memory.read, hb, eq_comm]
  | cons c m ih =>
    obtain ⟨k, v⟩ := c
    obtain ⟨hlt, -, hm'⟩ := wf_cons.mp hm
    have below : ∀ y, y ≤ k → Memory.read m y = unlistedByte := fun y hy =>
      read_of_below fun c hc => lt_of_le_of_lt hy (hlt c hc)
    simp only [Memory.write]
    rcases lt_trichotomy a k with h | h | h
    · rw [if_pos h]
      by_cases hb : b = unlistedByte
      · rw [if_pos hb]
        by_cases hx : x = a
        · subst hx
          simp only [Memory.read, if_pos, hb]
          rw [if_neg (by omega), below x (by omega)]
        · rw [if_neg hx]
      · rw [if_neg hb]
        by_cases hx : x = a
        · simp [Memory.read, hx]
        · rw [if_neg hx]
          simp only [Memory.read]
          rw [if_neg (Ne.symm hx)]
    · subst h
      rw [if_neg (lt_irrefl a), if_pos rfl]
      by_cases hb : b = unlistedByte
      · rw [if_pos hb]
        by_cases hx : x = a
        · rw [if_pos hx, hx, below a le_rfl, hb]
        · rw [if_neg hx]
          simp only [Memory.read]
          rw [if_neg (Ne.symm hx)]
      · rw [if_neg hb]
        by_cases hx : x = a
        · simp [Memory.read, hx]
        · rw [if_neg hx]
          simp only [Memory.read]
          rw [if_neg (Ne.symm hx), if_neg (Ne.symm hx)]
    · rw [if_neg (by omega), if_neg (by omega)]
      by_cases hx : k = x
      · subst hx
        simp only [Memory.read, if_true]
        rw [if_neg (by omega)]
      · simp only [Memory.read]
        rw [if_neg hx, if_neg hx, ih hm']

/-- A write in the address space keeps the canonical form. -/
theorem write_wf {m : Memory} (hm : m.wf) {a : Nat} (ha : a < addressSpace) (b : Byte) : (m.write a b).wf := by
  induction m with
  | nil =>
    simp only [Memory.write]
    split
    · exact wf_nil
    · next hb => exact wf_cons.mpr ⟨by simp, ⟨ha, hb⟩, wf_nil⟩
  | cons c m ih =>
    obtain ⟨k, v⟩ := c
    obtain ⟨hlt, hkv, hm'⟩ := wf_cons.mp hm
    simp only [Memory.write]
    split_ifs with h1 h2 h3 h4
    · exact hm
    · refine wf_cons.mpr ⟨?_, ⟨ha, h2⟩, hm⟩
      simp only [List.forall_mem_cons]
      exact ⟨h1, fun x hx => lt_trans h1 (hlt x hx)⟩
    · exact hm'
    · subst h3
      exact wf_cons.mpr ⟨hlt, ⟨ha, h4⟩, hm'⟩
    · refine wf_cons.mpr ⟨fun x hx => ?_, hkv, ih hm'⟩
      rcases write_mem_addr hx with h | h
      · omega
      · exact hlt x h

/-- A run of writes in the address space keeps the canonical form. -/
theorem storeRun_wf {addr : Nat → Nat} {bs : List Byte} : ∀ {m : Memory} {j : Nat}, m.wf →
    (∀ i < bs.length, addr (j + i) < addressSpace) → (m.storeRun addr j bs).wf := by
  induction bs with
  | nil => intro m j hm _; exact hm
  | cons b bs ih =>
    intro m j hm h
    refine ih (write_wf hm (h 0 (by simp)) b) fun i hi => ?_
    have := h (i + 1) (by simp only [List.length_cons]; omega)
    rwa [show j + 1 + i = j + (i + 1) by omega]

/-- A run of writes leaves every byte alone that is none of its places. -/
theorem read_storeRun_other {addr : Nat → Nat} {bs : List Byte} {a : Nat} : ∀ {m : Memory} {j : Nat}, m.wf →
    (∀ i < bs.length, addr (j + i) < addressSpace) → (∀ i < bs.length, a ≠ addr (j + i)) →
    (m.storeRun addr j bs).read a = m.read a := by
  induction bs with
  | nil => intro m j _ _ _; rfl
  | cons b bs ih =>
    intro m j hm hin h
    have hw := write_wf hm (hin 0 (by simp)) b
    have h0 := h 0 (by simp)
    simp only [Nat.add_zero] at hw h0
    simp only [Memory.storeRun]
    rw [ih hw, read_write hm, if_neg h0]
    · intro i hi
      have := hin (i + 1) (by simp only [List.length_cons]; omega)
      rwa [show j + 1 + i = j + (i + 1) by omega]
    · intro i hi
      have := h (i + 1) (by simp only [List.length_cons]; omega)
      rwa [show j + 1 + i = j + (i + 1) by omega]

/-- A run of writes to different places leaves its `i`-th byte at its `i`-th place. -/
theorem read_storeRun_at {addr : Nat → Nat} {bs : List Byte} : ∀ {m : Memory} {j : Nat}, m.wf →
    (∀ i < bs.length, addr (j + i) < addressSpace) →
    (∀ i < bs.length, ∀ i' < bs.length, addr (j + i) = addr (j + i') → i = i') →
    ∀ i (hi : i < bs.length), (m.storeRun addr j bs).read (addr (j + i)) = bs[i] := by
  induction bs with
  | nil => intro m j _ _ _ i hi; simp at hi
  | cons b bs ih =>
    intro m j hm hin hinj i hi
    have hin' : ∀ i < bs.length, addr (j + 1 + i) < addressSpace := fun i hi => by
      have := hin (i + 1) (by simp only [List.length_cons]; omega)
      rwa [show j + 1 + i = j + (i + 1) by omega]
    have hw := write_wf hm (hin 0 (by simp)) b
    simp only [Nat.add_zero] at hw
    simp only [Memory.storeRun]
    cases i with
    | zero =>
      rw [read_storeRun_other hw hin', Nat.add_zero, read_write hm, if_pos rfl]
      · rfl
      · intro i hi h
        have := hinj 0 (by simp) (i + 1) (by simp only [List.length_cons]; omega)
          (by rw [Nat.add_zero] at h ⊢; rw [h, show j + 1 + i = j + (i + 1) by omega])
        omega
    | succ i =>
      have := ih (j := j + 1) hw hin' (fun i hi i' hi' h => by
        have := hinj (i + 1) (by simp only [List.length_cons]; omega) (i' + 1)
          (by simp only [List.length_cons]; omega)
          (by rw [show j + (i + 1) = j + 1 + i by omega, show j + (i' + 1) = j + 1 + i' by omega, h])
        omega) i (by simpa using hi)
      rw [show j + 1 + i = j + (i + 1) by omega] at this
      simpa using this

/-- Two memories in canonical form that read alike are the same list. -/
theorem wf_ext : ∀ {m n : Memory}, m.wf → n.wf → (∀ a, m.read a = n.read a) → m = n
  | [], [], _, _, _ => rfl
  | [], (k, v) :: n, _, hn, h => by
    have := h k
    simp only [Memory.read, if_true] at this
    exact absurd this.symm (wf_cons.mp hn).2.1.2
  | (k, v) :: m, [], hm, _, h => by
    have := h k
    simp only [Memory.read, if_true] at this
    exact absurd this (wf_cons.mp hm).2.1.2
  | (k, v) :: m, (l, w) :: n, hm, hn, h => by
    obtain ⟨hm1, hm2, hm3⟩ := wf_cons.mp hm
    obtain ⟨hn1, hn2, hn3⟩ := wf_cons.mp hn
    have hk := h k
    have hl := h l
    simp only [Memory.read, if_true] at hk hl
    have hkl : k = l := by
      rcases lt_trichotomy k l with c | c | c
      · rw [if_neg (by omega), read_of_below fun x hx => lt_trans c (hn1 x hx)] at hk
        exact absurd hk hm2.2
      · exact c
      · rw [if_neg (by omega), read_of_below fun x hx => lt_trans c (hm1 x hx)] at hl
        exact absurd hl.symm hn2.2
    subst hkl
    rw [if_pos rfl] at hk
    subst hk
    refine congrArg _ (wf_ext hm3 hn3 fun a => ?_)
    rcases le_or_gt a k with c | c
    · rw [read_of_below fun x hx => lt_of_le_of_lt c (hm1 x hx),
        read_of_below fun x hx => lt_of_le_of_lt c (hn1 x hx)]
    · have := h a
      simpa only [Memory.read, if_neg (Nat.ne_of_lt c)] using this

@[simp] theorem hostBytes_length (m : Memory) (a n : Nat) : (m.hostBytes a n).length = n := by
  simp [Memory.hostBytes]

@[simp] theorem hostBytes_getElem (m : Memory) (a n i : Nat) (h : i < (m.hostBytes a n).length) :
    (m.hostBytes a n)[i] = m.read (a + i) := by
  simp [Memory.hostBytes]

theorem merge_wf {landed : Nat → Bool} {new : Memory} {l : List Host.Cell} : ∀ {m : Memory}, m.wf →
    (∀ c ∈ l, c.1 < addressSpace) → (Memory.merge landed new m l).wf := by
  induction l with
  | nil => intro m hm _; exact hm
  | cons c l ih =>
    intro m hm h
    simp only [Memory.merge]
    refine ih ?_ fun x hx => h x (by simp [hx])
    split
    · exact write_wf hm (h c (by simp)) _
    · exact hm

/-- A merge takes the listed addresses that landed from `new` and leaves every other byte. -/
theorem read_merge {landed : Nat → Bool} {new : Memory} {l : List Host.Cell} {a : Nat} : ∀ {m : Memory}, m.wf →
    (∀ c ∈ l, c.1 < addressSpace) →
    (Memory.merge landed new m l).read a =
      if landed a = true ∧ (∃ c ∈ l, c.1 = a) then new.read a else m.read a := by
  induction l with
  | nil => intro m _ _; simp [Memory.merge]
  | cons c l ih =>
    intro m hm h
    have hl : ∀ x ∈ l, x.1 < addressSpace := fun x hx => h x (by simp [hx])
    simp only [Memory.merge]
    by_cases hc : landed c.1 = true
    · rw [if_pos hc, ih (write_wf hm (h c (by simp)) _) hl, read_write hm]
      by_cases ha : a = c.1
      · subst ha; simp [hc]
      · have : ¬ c.1 = a := fun e => ha e.symm
        simp [ha, this]
    · rw [if_neg hc, ih hm hl]
      by_cases ha : c.1 = a
      · subst ha; simp [hc]
      · simp [ha]

/-- An address that the list does not hold reads as unlisted. -/
theorem read_unlisted {m : Memory} {a : Nat} (h : ¬ ∃ c ∈ m, c.1 = a) : m.read a = unlistedByte := by
  induction m with
  | nil => rfl
  | cons c m ih =>
    obtain ⟨k, v⟩ := c
    simp only [Memory.read]
    rw [if_neg fun e => h ⟨(k, v), by simp, e⟩]
    exact ih fun ⟨c, hc, e⟩ => h ⟨c, by simp [hc], e⟩

/-- Each byte of a mix is the old one or the new one, as drawn (R201). -/
theorem read_mix {landed : Nat → Bool} {old new : Memory} (ho : old.wf) (hn : new.wf) (a : Nat) :
    (Memory.mix landed old new).read a = if landed a = true then new.read a else old.read a := by
  have hl : ∀ c ∈ old ++ new, c.1 < addressSpace := fun c hc =>
    (List.mem_append.mp hc).elim (fun h => (ho.2 c h).1) fun h => (hn.2 c h).1
  rw [Memory.mix, read_merge ho hl]
  by_cases hd : landed a = true
  · by_cases he : ∃ c ∈ old ++ new, c.1 = a
    · simp only [hd, he, and_self, if_true]
    · have h1 : ¬ ∃ c ∈ old, c.1 = a := fun ⟨c, hc, e⟩ => he ⟨c, List.mem_append_left _ hc, e⟩
      have h2 : ¬ ∃ c ∈ new, c.1 = a := fun ⟨c, hc, e⟩ => he ⟨c, List.mem_append_right _ hc, e⟩
      simp only [hd, he, and_false, if_false, if_true, read_unlisted h1, read_unlisted h2]
  · simp [hd]

theorem mix_wf {landed : Nat → Bool} {old new : Memory} (ho : old.wf) (hn : new.wf) :
    (Memory.mix landed old new).wf :=
  merge_wf ho fun c hc => (List.mem_append.mp hc).elim (fun h => (ho.2 c h).1) fun h => (hn.2 c h).1

end Sys2Proof.Machine
end

