-- ==== Sys2Proof/Laws/Ring.lean ====
section
/-! SUPPORT. The ring as a queue of bytes: what Adv, Phys, Append, Remove and CopyOut do to the live region
(40_core_ring.md R100 to R105), and the prefix and block helpers over it (20_memory.md R55, 41_block_codec.md R141,
R142). -/

namespace Sys2Proof.Machine

open Sys2Proof.Safety

/-! ## Index arithmetic (R100, R101) -/

theorem mod_two_segments {c idx m : Nat} (hi : idx < c) (hm : m ≤ c) :
    (idx + m) % c = if m < c - idx then idx + m else m - (c - idx) := by
  split
  · exact Nat.mod_eq_of_lt (by omega)
  · have : idx + m = (m - (c - idx)) + c := by omega
    rw [this, Nat.add_mod_right, Nat.mod_eq_of_lt (by omega)]

theorem adv_eq_mod {c idx m : Nat} (hi : idx < c) (hm : m ≤ c) : adv c idx m = (idx + m) % c :=
  (mod_two_segments hi hm).symm

theorem phys_eq_mod {c idx j : Nat} (hi : idx < c) (hj : j ≤ c) : phys c idx j = (idx + j) % c :=
  (mod_two_segments hi hj).symm

theorem mod_add_inj {c x j k : Nat} (hj : j < c) (hk : k < c) (h : (x + j) % c = (x + k) % c) : j = k := by
  have : j % c = k % c := Nat.ModEq.add_left_cancel' x h
  rwa [Nat.mod_eq_of_lt hj, Nat.mod_eq_of_lt hk] at this

/-- The host address that is `k` places behind RD_IDX, wrapping. -/
def slot (s : State) (k : Nat) : Nat := s.storageBase.toNat + (s.rdIdx.toNat + k) % s.capacity.toNat

theorem toNat_ofNat {n : Nat} (h : n < 4294967296) : (BitVec.ofNat 32 n).toNat = n := by
  rw [BitVec.toNat_ofNat]; exact Nat.mod_eq_of_lt h

section ring
variable {s : State} (hr : RingInv s)
include hr

theorem capacity_pos : 0 < s.capacity.toNat := lt_of_le_of_lt (Nat.zero_le _) hr.2.2.2.1

theorem liveAddr_eq {k : Nat} (hk : k ≤ s.capacity.toNat) : liveAddr s k = slot s k := by
  rw [liveAddr, storageAddr, slot, phys_eq_mod hr.2.2.2.2.1 hk]

/-- The free place `j` is the slot right behind the live bytes. -/
theorem freeAddr_eq {j : Nat} (hj : j ≤ s.capacity.toNat) : freeAddr s j = slot s (s.length.toNat + j) := by
  rw [freeAddr, storageAddr, slot, phys_eq_mod hr.2.2.2.1 hj, hr.2.2.2.2.2, Nat.mod_add_mod, Nat.add_assoc]

omit hr in
theorem slot_inj {j k : Nat} (hj : j < s.capacity.toNat) (hk : k < s.capacity.toNat)
    (h : slot s j = slot s k) : j = k :=
  mod_add_inj hj hk (Nat.add_left_cancel h)

theorem slot_bounds (k : Nat) :
    s.storageBase.toNat ≤ slot s k ∧ slot s k < s.storageBase.toNat + s.capacity.toNat :=
  ⟨Nat.le_add_right _ _, Nat.add_lt_add_left (Nat.mod_lt _ (capacity_pos hr)) _⟩

theorem slot_lt (k : Nat) : slot s k < addressSpace :=
  lt_of_lt_of_le (slot_bounds hr k).2 hr.2.1

omit hr in
theorem space_le_capacity : space s ≤ s.capacity.toNat := Nat.sub_le _ _

theorem length_add_space : s.length.toNat + space s = s.capacity.toNat := by
  have := hr.2.2.1; unfold space; omega

theorem freeAddr_bounds {j : Nat} (hj : j ≤ s.capacity.toNat) :
    s.storageBase.toNat ≤ freeAddr s j ∧ freeAddr s j < s.storageBase.toNat + s.capacity.toNat := by
  rw [freeAddr_eq hr hj]; exact slot_bounds hr _

theorem liveAddr_bounds {k : Nat} (hk : k ≤ s.capacity.toNat) :
    s.storageBase.toNat ≤ liveAddr s k ∧ liveAddr s k < s.storageBase.toNat + s.capacity.toNat := by
  rw [liveAddr_eq hr hk]; exact slot_bounds hr _

theorem ringByte_eq {k : Nat} (hk : k ≤ s.capacity.toNat) : ringByte s k = s.mem.read (slot s k) := by
  rw [ringByte, liveAddr_eq hr hk]

end ring

/-! ## The live bytes as a list -/

@[simp] theorem ringBytes_length (s : State) (off m : Nat) : (ringBytes s off m).length = m := by
  simp [ringBytes]

@[simp] theorem ringBytes_getElem (s : State) (off m i : Nat) (h : i < (ringBytes s off m).length) :
    (ringBytes s off m)[i] = ringByte s (off + i) := by
  simp [ringBytes]

@[simp] theorem contents_length (s : State) : (contents s).length = s.length.toNat := by
  simp [contents]

theorem contents_getElem (s : State) (i : Nat) (h : i < (contents s).length) :
    (contents s)[i] = ringByte s i := by
  simp [contents]

theorem ringBytes_add (s : State) (off m n : Nat) :
    ringBytes s off (m + n) = ringBytes s off m ++ ringBytes s (off + m) n := by
  simp [ringBytes, List.range_add, Nat.add_assoc]

/-- A run of live bytes is a slice of the live region. -/
theorem ringBytes_eq_slice {s : State} {off m : Nat} (h : off + m ≤ s.length.toNat) :
    ringBytes s off m = ((contents s).drop off).take m := by
  apply List.ext_getElem
  · simp; omega
  · intro i h1 h2
    simp [contents_getElem]

/-- The live region depends on host memory only through the storage region. -/
theorem contents_congr {s t : State} (hr : RingInv s) (hb : t.storageBase = s.storageBase)
    (hc : t.capacity = s.capacity) (hl : t.length = s.length) (hd : t.rdIdx = s.rdIdx)
    (hm : ∀ a, s.storageBase.toNat ≤ a → a < s.storageBase.toNat + s.capacity.toNat →
      t.mem.read a = s.mem.read a) : contents t = contents s := by
  apply List.ext_getElem
  · simp [hl]
  · intro i h1 h2
    simp only [contents_getElem]
    have hi : i ≤ s.capacity.toNat := by simp at h2; have := hr.2.2.1; omega
    have hb' := liveAddr_bounds hr hi
    unfold ringByte
    have : liveAddr t i = liveAddr s i := by simp [liveAddr, storageAddr, hb, hc, hd]
    rw [this, hm _ hb'.1 hb'.2]

/-! ## Append, Remove, CopyOut (R103 to R105) -/

/-- Everything Append can do: the bytes stand behind the live ones, the indices advance, and no other byte of host
memory changes (R104). -/
theorem append_spec {s : State} (hr : RingInv s) (hm : s.mem.wf) {b : List Byte} (hb : b.length ≤ space s) :
    RingInv (append s b) ∧ (append s b).mem.wf ∧
      (append s b).length.toNat = s.length.toNat + b.length ∧
      (append s b).wrIdx.toNat = (s.wrIdx.toNat + b.length) % s.capacity.toNat ∧
      contents (append s b) = contents s ++ b ∧ MemoryKeptButAppended s (append s b) b.length := by
  have hcap := capacity_pos hr
  have hsp := length_add_space hr
  have hc32 := s.capacity.isLt
  have hlen : (append s b).length.toNat = s.length.toNat + b.length := by
    rw [append_length, toNat_ofNat]; omega
  have hwr : (append s b).wrIdx.toNat = (s.wrIdx.toNat + b.length) % s.capacity.toNat := by
    rw [append_wrIdx, adv_eq_mod hr.2.2.2.1 (by omega), toNat_ofNat]
    exact lt_trans (Nat.mod_lt _ hcap) (by omega)
  have hfree : ∀ i < b.length, freeAddr s (0 + i) = slot s (s.length.toNat + i) := fun i hi => by
    rw [Nat.zero_add, freeAddr_eq hr (by omega)]
  have hin : ∀ i < b.length, freeAddr s (0 + i) < addressSpace := fun i hi => by
    rw [hfree i hi]; exact slot_lt hr _
  have hkept : MemoryKeptButAppended s (append s b) b.length := fun a ha => by
    rw [append_mem, read_storeRun_other hm hin]
    intro i hi; simpa using ha i hi
  have hring : RingInv (append s b) := by
    refine ⟨hr.1, hr.2.1, ?_, ?_, hr.2.2.2.2.1, ?_⟩
    · rw [hlen, append_capacity]; omega
    · rw [hwr, append_capacity]; exact Nat.mod_lt _ hcap
    · rw [hwr, hlen, append_rdIdx, append_capacity, hr.2.2.2.2.2, Nat.mod_add_mod, Nat.add_assoc]
  refine ⟨hring, storeRun_wf hm hin, hlen, hwr, ?_, hkept⟩
  apply List.ext_getElem
  · rw [contents_length, hlen, List.length_append, contents_length]
  · intro i h1 h2
    rw [contents_length, hlen] at h1
    rw [contents_getElem, ringByte_eq hring (by rw [append_capacity]; omega)]
    have hslot : slot (append s b) i = slot s i := rfl
    rw [hslot]
    by_cases hi : i < s.length.toNat
    · rw [List.getElem_append_left (by simpa using hi), contents_getElem, ringByte_eq hr (by omega)]
      refine hkept _ fun j hj h => ?_
      rw [freeAddr_eq hr (by omega)] at h
      have := slot_inj (by omega) (by omega) h
      omega
    · rw [List.getElem_append_right (by simpa using hi), append_mem]
      simp only [contents_length]
      have hj : i - s.length.toNat < b.length := by omega
      have := read_storeRun_at (m := s.mem) (j := 0) hm hin (fun i hi i' hi' h => by
        rw [hfree i hi, hfree i' hi'] at h
        have := slot_inj (by omega) (by omega) h
        omega) (i - s.length.toNat) hj
      rw [hfree _ hj, show s.length.toNat + (i - s.length.toNat) = i by omega] at this
      exact this

/-- Everything Remove can do: the first `m` live bytes go, the rest stay in order, and host memory is not touched
(R105). -/
theorem remove_spec {s : State} (hr : RingInv s) {m : Nat} (hm : m ≤ s.length.toNat) :
    RingInv (remove s m) ∧ (remove s m).length.toNat = s.length.toNat - m ∧
      (remove s m).rdIdx.toNat = (s.rdIdx.toNat + m) % s.capacity.toNat ∧
      contents (remove s m) = (contents s).drop m := by
  have hcap := capacity_pos hr
  have hle := hr.2.2.1
  have hc32 := s.capacity.isLt
  have hlen : (remove s m).length.toNat = s.length.toNat - m := by
    rw [remove_length, toNat_ofNat]; omega
  have hrd : (remove s m).rdIdx.toNat = (s.rdIdx.toNat + m) % s.capacity.toNat := by
    rw [remove_rdIdx, adv_eq_mod hr.2.2.2.2.1 (by omega), toNat_ofNat]
    exact lt_trans (Nat.mod_lt _ hcap) (by omega)
  have hring : RingInv (remove s m) := by
    refine ⟨hr.1, hr.2.1, ?_, hr.2.2.2.1, ?_, ?_⟩
    · rw [hlen, remove_capacity]; omega
    · rw [hrd, remove_capacity]; exact Nat.mod_lt _ hcap
    · rw [hlen, hrd, remove_capacity, remove_wrIdx, hr.2.2.2.2.2, Nat.mod_add_mod]
      congr 1; omega
  refine ⟨hring, hlen, hrd, ?_⟩
  apply List.ext_getElem
  · rw [contents_length, hlen, List.length_drop, contents_length]
  · intro i h1 h2
    rw [contents_length, hlen] at h1
    rw [contents_getElem, List.getElem_drop, contents_getElem, ringByte_eq hring (by rw [remove_capacity]; omega),
      ringByte_eq hr (by omega)]
    have : slot (remove s m) i = slot s (m + i) := by
      unfold slot
      rw [hrd, remove_capacity, remove_storageBase, Nat.mod_add_mod, Nat.add_assoc]
    rw [this, remove_mem]

/-- Everything CopyOut can do: `m` bytes of `s` stand at `dst` in `u`, and no other byte of host memory changes
(R103). -/
theorem copyOut_spec {s u : State} (hm : u.mem.wf) {off m dst : Nat} (hd : dst + m ≤ addressSpace) :
    (copyOut s u off m dst).mem.wf ∧
      (copyOut s u off m dst).mem.hostBytes dst m = ringBytes s off m ∧
      MemoryKeptOutside u (copyOut s u off m dst) dst m := by
  have hin : ∀ i < (ringBytes s off m).length, dst + (0 + i) < addressSpace := fun i hi => by
    rw [ringBytes_length] at hi; omega
  refine ⟨storeRun_wf hm hin, ?_, fun a ha => ?_⟩
  · apply List.ext_getElem
    · simp
    · intro i h1 h2
      rw [hostBytes_getElem, copyOut_mem]
      have := read_storeRun_at (addr := fun j => dst + j) (m := u.mem) (j := 0) hm hin
        (fun i _ i' _ h => by simpa using h) i h2
      rw [Nat.zero_add] at this
      exact this
  · rw [copyOut_mem, read_storeRun_other hm hin]
    intro i hi h
    rw [ringBytes_length] at hi
    exact ha (by omega)

/-! ## The prefix (R55) -/

@[simp] theorem prefixEnc_length (n v : Nat) : (prefixEnc n v).length = n := by
  induction n generalizing v with
  | zero => rfl
  | succ n ih => simp [prefixEnc, ih]

theorem prefixValue_prefixEnc {n : Nat} : ∀ {v : Nat}, v < 256 ^ n → prefixValue (prefixEnc n v) = v := by
  induction n with
  | zero => intro v h; simp at h; simp [prefixEnc, prefixValue, h]
  | succ n ih =>
    intro v h
    have : v / 256 < 256 ^ n := Nat.div_lt_of_lt_mul (by rw [← Nat.pow_succ']; exact h)
    simp only [prefixEnc, prefixValue, ih this, BitVec.toNat_ofNat]
    omega

theorem prefixBytes_cases (s : State) : prefixBytes s = 4 ∨ prefixBytes s = 8 := by
  unfold prefixBytes prefixBytesOf
  cases s.cfg.prefixWidth <;> simp

theorem prefixBytes_pos (s : State) : 4 ≤ prefixBytes s := by
  rcases prefixBytes_cases s with h | h <;> omega

/-- "Every length a codec can write fits in its prefix" (R8). -/
theorem fits_prefix (s : State) {v : Nat} (h : v < 4294967296) : v < 256 ^ prefixBytes s := by
  rcases prefixBytes_cases s with e | e <;> rw [e] <;> norm_num <;> omega

/-! ## Blocks (R141, R142) -/

/-- `Head(0)` is the declared length where a complete block is buffered (R141). -/
theorem head_zero (s : State) : head s 0 = if BlockPresent s then some (declaredLength s) else none := by
  unfold head
  simp only [Nat.sub_zero]
  by_cases h : s.length.toNat < prefixBytes s
  · rw [if_pos h, if_neg fun hp => absurd hp.1 (by omega)]
  · have hp : prefixAt s 0 = declaredLength s := by
      rw [prefixAt, declaredLength, ringBytes_eq_slice (by omega), List.drop_zero]
    rw [if_neg h, hp]
    by_cases h2 : s.length.toNat - prefixBytes s < declaredLength s
    · rw [if_pos h2, if_neg fun hp => absurd hp.2 (by omega)]
    · rw [if_neg h2, if_pos ⟨by omega, by omega⟩]

/-- `Head(off)` over the live bytes from `off` on. -/
theorem head_eq (s : State) {off : Nat} (ho : off ≤ s.length.toNat) :
    head s off =
      if ((contents s).drop off).length < prefixBytes s then none
      else if ((contents s).drop off).length - prefixBytes s <
          prefixValue (((contents s).drop off).take (prefixBytes s)) then none
      else some (prefixValue (((contents s).drop off).take (prefixBytes s))) := by
  unfold head
  simp only [List.length_drop, contents_length]
  by_cases h : s.length.toNat - off < prefixBytes s
  · rw [if_pos h, if_pos h]
  · rw [if_neg h, if_neg h, prefixAt, ringBytes_eq_slice (by omega)]

/-- FrameCheck by the stages of R161. -/
theorem frameCheck_eq (s : State) (hlen maxp : Nat) :
    frameCheck s hlen maxp =
      if BlockPresent s then
        if declaredLength s < hlen then .error .shortFrame
        else if hlen + maxp < declaredLength s then .error .destTooSmall
        else .ok (declaredLength s)
      else .error .notPresent := by
  unfold frameCheck
  rw [head_zero]
  by_cases h : BlockPresent s
  · rw [if_pos h, if_pos h]
  · rw [if_neg h, if_neg h]

end Sys2Proof.Machine
end

