-- ==== Sys2Proof/Laws/Exec.lean ====
section
/-! SUPPORT. Said once, what a command can do: it fails with one of its codes and changes nothing, it leaves its own
effect, it is stuck, or it is refused. Every proof about all commands, and every proof of one, cites these. -/

namespace Sys2Proof.Machine

open Sys2Proof.Safety

/-! ## The appends of the codec writers fit once their check has passed (R149, R166) -/

theorem space_withPrefix {s : State} {n v : Nat} (h : prefixBytes s + n ≤ space s) :
    space (withPrefix s v) = space s - prefixBytes s := by
  unfold withPrefix space at *
  rw [append_length, append_capacity, prefixEnc_length, toNat_ofNat]
  · omega
  · have := s.capacity.isLt; have := prefixBytes_pos s; omega

theorem space_withHeader {s : State} (h : prefixBytes s + s.arg1.toNat + s.arg3.toNat ≤ space s) :
    space (withHeader s) = space s - prefixBytes s - s.arg1.toNat := by
  have h1 := space_withPrefix (v := s.arg1.toNat + s.arg3.toNat) (by rw [Nat.add_assoc] at h; exact h)
  have h2 := s.capacity.isLt
  have h3 := prefixBytes_pos s
  have hl : (withPrefix s (s.arg1.toNat + s.arg3.toNat)).length.toNat = s.length.toNat + prefixBytes s := by
    unfold withPrefix space at *
    rw [append_length, prefixEnc_length, toNat_ofNat]; omega
  unfold withHeader
  unfold space at *
  rw [append_length, append_capacity, hostBytes_length, toNat_ofNat]
  · omega
  · rw [hl]; omega

/-! ## The effect of each command, and when it has it -/

/-- The commands' own checks beyond the bound gate and the references (R183 stage 4). -/
def checksPass (i : Instr) (s : State) : Prop :=
  match i with
  | .init => s.arg1 ≠ 0
  | .writeAll => s.arg1.toNat ≤ space s
  | .writeBlock => prefixBytes s + s.arg1.toNat ≤ space s
  | .writeFrame => prefixBytes s + s.arg1.toNat + s.arg3.toNat ≤ space s
  | .find => s.arg2 ≠ 0 ∧ s.arg0.toNat < s.length.toNat ∧ s.arg2.toNat ≤ s.length.toNat - s.arg0.toNat
  | .peekBlockLength | .peekBlock | .discardBlock => BlockPresent s
  | .readBlock => BlockPresent s ∧ declaredLength s ≤ s.arg1.toNat
  | .peekFrame | .readFrame =>
    BlockPresent s ∧ s.arg1.toNat ≤ declaredLength s ∧ declaredLength s ≤ s.arg1.toNat + s.arg3.toNat
  | .clear | .length | .space | .write | .read | .peek | .peekOffset | .discard | .countBlocks | .countFrames => True

/-- The state a command leaves once its checks have passed (the pseudocode of 40 to 42). -/
def effect (i : Instr) (s : State) : State :=
  match i with
  | .init => finish (bindRing s s.arg0 s.arg1) .ok 0 false
  | .clear => finish (emptyRing s) .ok 0 false
  | .length => finish s .ok s.length.toNat false
  | .space => finish s .ok (space s) false
  | .write =>
    finish (append s (s.mem.hostBytes s.arg0.toNat (writeCount s))) .ok (writeCount s)
      (truncated (writeCount s) s.arg1.toNat)
  | .writeAll => finish (append s (s.mem.hostBytes s.arg0.toNat s.arg1.toNat)) .ok s.arg1.toNat false
  | .read =>
    finish (remove (copyOut s s 0 (readCount s) s.arg0.toNat) (readCount s)) .ok (readCount s)
      (truncated (readCount s) s.arg1.toNat)
  | .peek =>
    finish (copyOut s s 0 (peekCount s) s.arg0.toNat) .ok (peekCount s) (truncated (peekCount s) s.arg1.toNat)
  | .peekOffset =>
    finish (copyOut s s s.arg0.toNat (peekOffsetCount s) s.arg1.toNat) .ok (peekOffsetCount s)
      (truncated (peekOffsetCount s) s.arg2.toNat)
  | .discard =>
    finish (remove s (discardCount s)) .ok (discardCount s) (truncated (discardCount s) s.arg0.toNat)
  | .find => findResult s
  | .writeBlock =>
    finish (append (withPrefix s s.arg1.toNat) (s.mem.hostBytes s.arg0.toNat s.arg1.toNat)) .ok
      (prefixBytes s + s.arg1.toNat) false
  | .peekBlockLength => finish s .ok (declaredLength s) false
  | .readBlock =>
    finish (remove (copyOut s s (prefixBytes s) (declaredLength s) s.arg0.toNat) (prefixBytes s + declaredLength s))
      .ok (declaredLength s) false
  | .peekBlock =>
    finish (copyOut s s (prefixBytes s) (min (declaredLength s) s.arg1.toNat) s.arg0.toNat) .ok
      (min (declaredLength s) s.arg1.toNat) (truncated (min (declaredLength s) s.arg1.toNat) (declaredLength s))
  | .discardBlock =>
    finish (remove s (prefixBytes s + declaredLength s)) .ok (prefixBytes s + declaredLength s) false
  | .countBlocks | .countFrames => countResult s
  | .writeFrame =>
    finish (append (withHeader s) (s.mem.hostBytes s.arg2.toNat s.arg3.toNat)) .ok
      (prefixBytes s + s.arg1.toNat + s.arg3.toNat) false
  | .peekFrame => finish (copyFrame s (declaredLength s)) .ok (declaredLength s - s.arg1.toNat) false
  | .readFrame =>
    finish (remove (copyFrame s (declaredLength s)) (prefixBytes s + declaredLength s)) .ok
      (declaredLength s - s.arg1.toNat) false

/-- The host bytes a command touches on its way to its effect (R53). -/
def touched (i : Instr) (s : State) : List Nat :=
  match i with
  | .init | .clear | .length | .space | .discard => []
  | .write => bufferBytes s.arg0.toNat (writeCount s) ++ freeBytes s (writeCount s)
  | .writeAll => bufferBytes s.arg0.toNat s.arg1.toNat ++ freeBytes s s.arg1.toNat
  | .read => liveBytes s 0 (readCount s) ++ bufferBytes s.arg0.toNat (readCount s)
  | .peek => liveBytes s 0 (peekCount s) ++ bufferBytes s.arg0.toNat (peekCount s)
  | .peekOffset =>
    liveBytes s s.arg0.toNat (peekOffsetCount s) ++ bufferBytes s.arg1.toNat (peekOffsetCount s)
  | .find => findBytes s
  | .writeBlock =>
    freeBytes s (prefixBytes s) ++ bufferBytes s.arg0.toNat s.arg1.toNat ++
      freeBytes (withPrefix s s.arg1.toNat) s.arg1.toNat
  | .peekBlockLength | .discardBlock => headBytes s 0
  | .readBlock =>
    headBytes s 0 ++ liveBytes s (prefixBytes s) (declaredLength s) ++
      bufferBytes s.arg0.toNat (declaredLength s)
  | .peekBlock =>
    headBytes s 0 ++ liveBytes s (prefixBytes s) (min (declaredLength s) s.arg1.toNat) ++
      bufferBytes s.arg0.toNat (min (declaredLength s) s.arg1.toNat)
  | .countBlocks | .countFrames => walkBytes s
  | .writeFrame =>
    freeBytes s (prefixBytes s) ++ bufferBytes s.arg0.toNat s.arg1.toNat ++
      freeBytes (withPrefix s (s.arg1.toNat + s.arg3.toNat)) s.arg1.toNat ++
      bufferBytes s.arg2.toNat s.arg3.toNat ++ freeBytes (withHeader s) s.arg3.toNat
  | .peekFrame | .readFrame => frameBytes s (declaredLength s)

/-- The codes a command can fail with by `fail` (R181, R183). -/
def failCodes (i : Instr) : List StatusCode :=
  match i with
  | .writeAll | .writeBlock | .writeFrame => [.invalidArgument, .insufficientSpace]
  | .peekBlockLength | .peekBlock | .discardBlock => [.invalidArgument, .notPresent]
  | .readBlock => [.invalidArgument, .notPresent, .destTooSmall]
  | .peekFrame | .readFrame => [.invalidArgument, .notPresent, .shortFrame, .destTooSmall]
  | .init | .clear | .length | .space | .write | .read | .peek | .peekOffset | .discard | .find
  | .countBlocks | .countFrames => [.invalidArgument]

/-- All that a command can answer. -/
inductive CommandAnswer (i : Instr) (s : State) : Answer → Prop where
  | failed (c : StatusCode) (hc : c ∈ failCodes i)
      (hk : s.bound = true → c = .invalidArgument → referenceOperands i s ≠ []) : CommandAnswer i s (.next (fail s c))
  | done (hb : i ≠ .init → s.bound = true) (hr : ∀ r ∈ referenceOperands i s, regionOK r = true)
      (hp : checksPass i s) (ho : overlapFree i s = true) (ha : admitsAll s (touched i s) = true) :
      CommandAnswer i s (.next (effect i s))
  | stuck (hb : s.bound = true) (hr : ∀ r ∈ referenceOperands i s, regionOK r = true)
      (ha : (checksPass i s ∧ admitsAll s (touched i s) = false) ∨
        (¬ checksPass i s ∧ admitsAll s (headBytes s 0) = false)) :
      CommandAnswer i s (.fault .hostMemNotAdmitted)
  | refused (hb : s.bound = true) (hr : ∀ r ∈ referenceOperands i s, regionOK r = true)
      (ho : overlapFree i s = false) : CommandAnswer i s (.refused .overlapContract)

/-- A command that has no destination and appends nothing keeps the overlap contract. -/
theorem overlapFree_of_readOnly {i : Instr} {s : State} (hd : destinationRegions i s = [])
    (ha : appends i = false) : overlapFree i s = true := by
  rw [overlapFree_iff, hd]; simp [ha]

theorem answer_gated {i : Instr} {s : State} {k : Answer} (hf : .invalidArgument ∈ failCodes i)
    (h : s.bound = true → CommandAnswer i s k) : CommandAnswer i s (boundGate s k) := by
  rcases boundGate_cases s k with ⟨hb, e⟩ | ⟨hb, e⟩ <;> rw [e]
  · exact h hb
  · exact .failed _ hf (by simp [*])

theorem answer_checked {i : Instr} {s : State} {k : Answer} (hf : .invalidArgument ∈ failCodes i)
    (h : (∀ r ∈ referenceOperands i s, regionOK r = true) → CommandAnswer i s k) :
    CommandAnswer i s (checkReferences i s k) := by
  rcases checkReferences_cases i s k with ⟨hr, e⟩ | ⟨⟨r, hr, -⟩, e⟩ <;> rw [e]
  · exact h hr
  · exact .failed _ hf fun _ _ => List.ne_nil_of_mem hr

theorem answer_kept {i : Instr} {s : State} {k : Answer} (hb : s.bound = true)
    (hr : ∀ r ∈ referenceOperands i s, regionOK r = true)
    (h : overlapFree i s = true → CommandAnswer i s k) : CommandAnswer i s (keepContract i s k) := by
  rcases keepContract_cases i s k with ⟨ho, e⟩ | ⟨ho, e⟩ <;> rw [e]
  · exact h ho
  · exact .refused hb hr ho

theorem answer_touchBytes {i : Instr} {s : State} (hb : s.bound = true)
    (hr : ∀ r ∈ referenceOperands i s, regionOK r = true) (hp : checksPass i s) (ho : overlapFree i s = true) :
    CommandAnswer i s (touchBytes s (touched i s) (effect i s)) := by
  rcases touchBytes_cases s (touched i s) (effect i s) with ⟨ha, e⟩ | ⟨ha, e⟩ <;> rw [e]
  · exact .done (fun _ => hb) hr hp ho ha
  · exact .stuck hb hr (.inl ⟨hp, ha⟩)

theorem answer_moveData {i : Instr} {s : State} (hb : s.bound = true)
    (hr : ∀ r ∈ referenceOperands i s, regionOK r = true) (hp : checksPass i s) :
    CommandAnswer i s (moveData i s (touched i s) (effect i s)) :=
  answer_kept hb hr fun ho => answer_touchBytes hb hr hp ho

theorem answer_touchBytes_fail {i : Instr} {s : State} {c : StatusCode} (hb : s.bound = true)
    (hr : ∀ r ∈ referenceOperands i s, regionOK r = true) (hp : ¬ checksPass i s)
    (hc : c ∈ failCodes i ∧ c ≠ .invalidArgument) : CommandAnswer i s (touchBytes s (headBytes s 0) (fail s c)) := by
  rcases touchBytes_cases s (headBytes s 0) (fail s c) with ⟨ha, e⟩ | ⟨ha, e⟩ <;> rw [e]
  · exact .failed c hc.1 fun _ h => absurd h hc.2
  · exact .stuck hb hr (.inr ⟨hp, ha⟩)

/-- Every answer of every command. -/
theorem exec_answer (i : Instr) (s : State) : CommandAnswer i s (exec i s) := by
  have noRefs : referenceOperands i s = [] → ∀ r ∈ referenceOperands i s, regionOK r = true := fun h => by simp [h]
  cases i with
  | init =>
    refine answer_checked (by decide) fun hr => ?_
    split
    · exact .failed _ (by decide) fun _ _ => by simp [referenceOperands]
    · next h => exact .done (fun h => absurd rfl h) hr h (overlapFree_of_readOnly rfl rfl) rfl
  | clear =>
    exact answer_gated (by decide) fun hb =>
      .done (fun _ => hb) (noRefs rfl) trivial (overlapFree_of_readOnly rfl rfl) rfl
  | length =>
    exact answer_gated (by decide) fun hb =>
      .done (fun _ => hb) (noRefs rfl) trivial (overlapFree_of_readOnly rfl rfl) rfl
  | space =>
    exact answer_gated (by decide) fun hb =>
      .done (fun _ => hb) (noRefs rfl) trivial (overlapFree_of_readOnly rfl rfl) rfl
  | write => exact answer_gated (by decide) fun hb => answer_checked (by decide) fun hr => answer_moveData hb hr trivial
  | writeAll =>
    refine answer_gated (by decide) fun hb => answer_checked (by decide) fun hr =>
      answer_kept hb hr fun ho => ?_
    split
    · exact .failed _ (by decide) nofun
    · next h => exact answer_touchBytes hb hr (Nat.not_lt.mp h) ho
  | read => exact answer_gated (by decide) fun hb => answer_checked (by decide) fun hr => answer_moveData hb hr trivial
  | peek => exact answer_gated (by decide) fun hb => answer_checked (by decide) fun hr => answer_moveData hb hr trivial
  | peekOffset =>
    exact answer_gated (by decide) fun hb => answer_checked (by decide) fun hr => answer_moveData hb hr trivial
  | discard =>
    exact answer_gated (by decide) fun hb =>
      .done (fun _ => hb) (noRefs rfl) trivial (overlapFree_of_readOnly rfl rfl) rfl
  | find =>
    refine answer_gated (by decide) fun hb => answer_checked (by decide) fun hr => ?_
    split
    · exact .failed _ (by decide) fun _ _ => by simp [referenceOperands, sourceRegions]
    · next h1 =>
      split
      · exact .failed _ (by decide) fun _ _ => by simp [referenceOperands, sourceRegions]
      · next h2 =>
        push Not at h2
        exact answer_touchBytes hb hr ⟨h1, h2.1, h2.2⟩ (overlapFree_of_readOnly rfl rfl)
  | writeBlock =>
    refine answer_gated (by decide) fun hb => answer_checked (by decide) fun hr =>
      answer_kept hb hr fun ho => ?_
    split
    · exact .failed _ (by decide) nofun
    · next h =>
      rw [if_neg (by rw [space_withPrefix (Nat.not_lt.mp h)]; omega)]
      exact answer_touchBytes hb hr (Nat.not_lt.mp h) ho
  | peekBlockLength =>
    refine answer_gated (by decide) fun hb => ?_
    rw [head_zero]
    by_cases hp : BlockPresent s
    · rw [if_pos hp]; exact answer_touchBytes hb (noRefs rfl) hp (overlapFree_of_readOnly rfl rfl)
    · rw [if_neg hp]; exact answer_touchBytes_fail hb (noRefs rfl) hp (by decide)
  | readBlock =>
    refine answer_gated (by decide) fun hb => answer_checked (by decide) fun hr => ?_
    rw [head_zero]
    by_cases hp : BlockPresent s
    · rw [if_pos hp]
      dsimp only
      split
      · next h => exact answer_touchBytes_fail hb hr (fun hc => absurd hc.2 (by omega)) (by decide)
      · next h => exact answer_moveData hb hr ⟨hp, Nat.not_lt.mp h⟩
    · rw [if_neg hp]; exact answer_touchBytes_fail hb hr (fun hc => hp hc.1) (by decide)
  | peekBlock =>
    refine answer_gated (by decide) fun hb => answer_checked (by decide) fun hr => ?_
    rw [head_zero]
    by_cases hp : BlockPresent s
    · rw [if_pos hp]; exact answer_moveData hb hr hp
    · rw [if_neg hp]; exact answer_touchBytes_fail hb hr hp (by decide)
  | discardBlock =>
    refine answer_gated (by decide) fun hb => ?_
    rw [head_zero]
    by_cases hp : BlockPresent s
    · rw [if_pos hp]; exact answer_touchBytes hb (noRefs rfl) hp (overlapFree_of_readOnly rfl rfl)
    · rw [if_neg hp]; exact answer_touchBytes_fail hb (noRefs rfl) hp (by decide)
  | countBlocks =>
    exact answer_gated (by decide) fun hb =>
      answer_touchBytes hb (noRefs rfl) trivial (overlapFree_of_readOnly rfl rfl)
  | writeFrame =>
    refine answer_gated (by decide) fun hb => answer_checked (by decide) fun hr =>
      answer_kept hb hr fun ho => ?_
    split
    · exact .failed _ (by decide) nofun
    · next h =>
      have h' := Nat.not_lt.mp h
      rw [if_neg (by rw [space_withPrefix (n := s.arg1.toNat + s.arg3.toNat) (by omega)]; omega),
        if_neg (by rw [space_withHeader h']; omega)]
      exact answer_touchBytes hb hr h' ho
  | peekFrame =>
    refine answer_gated (by decide) fun hb => answer_checked (by decide) fun hr => ?_
    rw [frameCheck_eq]
    by_cases hp : BlockPresent s
    · rw [if_pos hp]
      by_cases h1 : declaredLength s < s.arg1.toNat
      · rw [if_pos h1]; exact answer_touchBytes_fail hb hr (fun hc => absurd hc.2.1 (by omega)) (by decide)
      · rw [if_neg h1]
        by_cases h2 : s.arg1.toNat + s.arg3.toNat < declaredLength s
        · rw [if_pos h2]; exact answer_touchBytes_fail hb hr (fun hc => absurd hc.2.2 (by omega)) (by decide)
        · rw [if_neg h2]; exact answer_moveData hb hr ⟨hp, by omega, by omega⟩
    · rw [if_neg hp]; exact answer_touchBytes_fail hb hr (fun hc => hp hc.1) (by decide)
  | readFrame =>
    refine answer_gated (by decide) fun hb => answer_checked (by decide) fun hr => ?_
    rw [frameCheck_eq]
    by_cases hp : BlockPresent s
    · rw [if_pos hp]
      by_cases h1 : declaredLength s < s.arg1.toNat
      · rw [if_pos h1]; exact answer_touchBytes_fail hb hr (fun hc => absurd hc.2.1 (by omega)) (by decide)
      · rw [if_neg h1]
        by_cases h2 : s.arg1.toNat + s.arg3.toNat < declaredLength s
        · rw [if_pos h2]; exact answer_touchBytes_fail hb hr (fun hc => absurd hc.2.2 (by omega)) (by decide)
        · rw [if_neg h2]; exact answer_moveData hb hr ⟨hp, by omega, by omega⟩
    · rw [if_neg hp]; exact answer_touchBytes_fail hb hr (fun hc => hp hc.1) (by decide)
  | countFrames =>
    exact answer_gated (by decide) fun hb =>
      answer_touchBytes hb (noRefs rfl) trivial (overlapFree_of_readOnly rfl rfl)

/-- Where a command completes, it failed with one of its codes or left its effect. -/
theorem exec_next {i : Instr} {s t : State} (h : exec i s = .next t) :
    (∃ c ∈ failCodes i, (s.bound = true → c = .invalidArgument → referenceOperands i s ≠ []) ∧ t = fail s c) ∨
      ((i ≠ .init → s.bound = true) ∧ (∀ r ∈ referenceOperands i s, regionOK r = true) ∧ checksPass i s ∧
        overlapFree i s = true ∧ admitsAll s (touched i s) = true ∧ t = effect i s) := by
  have ha := exec_answer i s
  rw [h] at ha
  cases ha with
  | failed c hc hk => exact .inl ⟨c, hc, hk, rfl⟩
  | done hb hr hp ho ha => exact .inr ⟨hb, hr, hp, ho, ha, rfl⟩

/-- Where a command stands on a fault, its ring is bound, its references pass and memory lacks a byte it touches. -/
theorem exec_fault {i : Instr} {s : State} {f : Fault} (h : exec i s = .fault f) :
    f = .hostMemNotAdmitted ∧ s.bound = true ∧ (∀ r ∈ referenceOperands i s, regionOK r = true) ∧
      ((checksPass i s ∧ admitsAll s (touched i s) = false) ∨
        (¬ checksPass i s ∧ admitsAll s (headBytes s 0) = false)) := by
  have ha := exec_answer i s
  rw [h] at ha
  cases ha with
  | stuck hb hr ha => exact ⟨rfl, hb, hr, ha⟩

/-- Where a command is refused, it breaks the overlap contract. -/
theorem exec_refused {i : Instr} {s : State} {r : Refusal} (h : exec i s = .refused r) :
    r = .overlapContract ∧ s.bound = true ∧ (∀ r ∈ referenceOperands i s, regionOK r = true) ∧
      overlapFree i s = false := by
  have ha := exec_answer i s
  rw [h] at ha
  cases ha with
  | refused hb hr ho => exact ⟨rfl, hb, hr, ho⟩

/-- A command whose checks pass and whose regions keep the contract has only its host bytes left to ask for. -/
theorem exec_touches {i : Instr} {s : State} (hb : i ≠ .init → s.bound = true)
    (hr : ∀ r ∈ referenceOperands i s, regionOK r = true) (hp : checksPass i s) (ho : overlapFree i s = true) :
    exec i s = touchBytes s (touched i s) (effect i s) := by
  have gate : ∀ k, i ≠ .init → boundGate s (checkReferences i s k) = k := fun k hi => by
    rw [boundGate_of_bound (hb hi), checkReferences_of_ok hr]
  have gate' : ∀ k, i ≠ .init → boundGate s k = k := fun k hi => boundGate_of_bound (hb hi) k
  have kept : ∀ k, i ≠ .init → boundGate s (checkReferences i s (keepContract i s k)) = k := fun k hi => by
    rw [gate _ hi, keepContract_of_ok ho]
  have move : moveData i s (touched i s) (effect i s) = touchBytes s (touched i s) (effect i s) :=
    moveData_of_ok ho
  cases i with
  | init => exact (checkReferences_of_ok hr _).trans (if_neg hp)
  | clear => exact gate' _ nofun
  | length => exact gate' _ nofun
  | space => exact gate' _ nofun
  | write => exact (gate _ nofun).trans move
  | writeAll => exact (kept _ nofun).trans (if_neg (Nat.not_lt.mpr hp))
  | read => exact (gate _ nofun).trans move
  | peek => exact (gate _ nofun).trans move
  | peekOffset => exact (gate _ nofun).trans move
  | discard => exact gate' _ nofun
  | find =>
    refine ((gate _ nofun).trans (if_neg hp.1)).trans (if_neg ?_)
    have := hp.2; omega
  | writeBlock =>
    refine ((kept _ nofun).trans (if_neg (Nat.not_lt.mpr hp))).trans (if_neg ?_)
    have h : prefixBytes s + s.arg1.toNat ≤ space s := hp
    rw [space_withPrefix h]; omega
  | peekBlockLength =>
    refine (gate' _ nofun).trans ?_
    rw [head_zero, if_pos (show BlockPresent s from hp)]; rfl
  | readBlock =>
    refine (gate _ nofun).trans ?_
    rw [head_zero, if_pos (show BlockPresent s from hp.1)]
    exact (if_neg (Nat.not_lt.mpr hp.2)).trans move
  | peekBlock =>
    refine (gate _ nofun).trans ?_
    rw [head_zero, if_pos (show BlockPresent s from hp)]; exact move
  | discardBlock =>
    refine (gate' _ nofun).trans ?_
    rw [head_zero, if_pos (show BlockPresent s from hp)]; rfl
  | countBlocks => exact gate' _ nofun
  | writeFrame =>
    have h : prefixBytes s + s.arg1.toNat + s.arg3.toNat ≤ space s := hp
    refine ((kept _ nofun).trans (if_neg (Nat.not_lt.mpr h))).trans ((if_neg ?_).trans (if_neg ?_))
    · rw [space_withPrefix (n := s.arg1.toNat + s.arg3.toNat) (by omega)]; omega
    · rw [space_withHeader h]; omega
  | peekFrame =>
    refine (gate _ nofun).trans ?_
    rw [frameCheck_eq, if_pos (show BlockPresent s from hp.1), if_neg (Nat.not_lt.mpr hp.2.1),
      if_neg (Nat.not_lt.mpr hp.2.2)]
    exact move
  | readFrame =>
    refine (gate _ nofun).trans ?_
    rw [frameCheck_eq, if_pos (show BlockPresent s from hp.1), if_neg (Nat.not_lt.mpr hp.2.1),
      if_neg (Nat.not_lt.mpr hp.2.2)]
    exact move
  | countFrames => exact gate' _ nofun

/-- Where memory backs those bytes, the command leaves its effect. -/
theorem exec_done {i : Instr} {s : State} (hb : i ≠ .init → s.bound = true)
    (hr : ∀ r ∈ referenceOperands i s, regionOK r = true) (hp : checksPass i s) (ho : overlapFree i s = true)
    (ha : admitsAll s (touched i s) = true) : exec i s = .next (effect i s) :=
  (exec_touches hb hr hp ho).trans (touchBytes_of_ok ha)

/-- Where memory lacks one of them, the command is stuck. -/
theorem exec_stuck {i : Instr} {s : State} (hb : i ≠ .init → s.bound = true)
    (hr : ∀ r ∈ referenceOperands i s, regionOK r = true) (hp : checksPass i s) (ho : overlapFree i s = true)
    (ha : admitsAll s (touched i s) = false) : exec i s = .fault .hostMemNotAdmitted :=
  (exec_touches hb hr hp ho).trans (touchBytes_of_missing ha)

end Sys2Proof.Machine
end

