-- ==== Sys2Proof/Laws/PerInstr.lean ====
section
/-! SUPPORT. What holds of every command as syntax, one lemma per constructor (30_encoding.md R70 to R72). -/

namespace Sys2Proof.Laws

/-- Every address operand is followed by the count that bounds it (the ARG columns of R73). -/
def addressesHaveCounts : List OperandKind → Bool
  | [] => true
  | .address :: .count :: rest => addressesHaveCounts rest
  | .address :: _ => false
  | _ :: rest => addressesHaveCounts rest

/-- The word of a command: reserved bits 0 (R70), OP below 0x24 (R72), at most four operands (R71), each address
followed by its count (R73). -/
def WordShape.Statement (i : Instr) : Prop :=
  wordReserved (encode i) = 0 ∧ wordOpcode (encode i) = opcode i ∧ (opcode i).toNat < 0x24 ∧
    i.operandKinds.length ≤ 4 ∧ addressesHaveCounts i.operandKinds = true

theorem WordShape.init : WordShape.Statement .init := by unfold WordShape.Statement; decide
theorem WordShape.clear : WordShape.Statement .clear := by unfold WordShape.Statement; decide
theorem WordShape.length : WordShape.Statement .length := by unfold WordShape.Statement; decide
theorem WordShape.space : WordShape.Statement .space := by unfold WordShape.Statement; decide
theorem WordShape.write : WordShape.Statement .write := by unfold WordShape.Statement; decide
theorem WordShape.writeAll : WordShape.Statement .writeAll := by unfold WordShape.Statement; decide
theorem WordShape.read : WordShape.Statement .read := by unfold WordShape.Statement; decide
theorem WordShape.peek : WordShape.Statement .peek := by unfold WordShape.Statement; decide
theorem WordShape.peekOffset : WordShape.Statement .peekOffset := by unfold WordShape.Statement; decide
theorem WordShape.discard : WordShape.Statement .discard := by unfold WordShape.Statement; decide
theorem WordShape.find : WordShape.Statement .find := by unfold WordShape.Statement; decide
theorem WordShape.writeBlock : WordShape.Statement .writeBlock := by unfold WordShape.Statement; decide
theorem WordShape.peekBlockLength : WordShape.Statement .peekBlockLength := by unfold WordShape.Statement; decide
theorem WordShape.readBlock : WordShape.Statement .readBlock := by unfold WordShape.Statement; decide
theorem WordShape.peekBlock : WordShape.Statement .peekBlock := by unfold WordShape.Statement; decide
theorem WordShape.discardBlock : WordShape.Statement .discardBlock := by unfold WordShape.Statement; decide
theorem WordShape.countBlocks : WordShape.Statement .countBlocks := by unfold WordShape.Statement; decide
theorem WordShape.writeFrame : WordShape.Statement .writeFrame := by unfold WordShape.Statement; decide
theorem WordShape.peekFrame : WordShape.Statement .peekFrame := by unfold WordShape.Statement; decide
theorem WordShape.readFrame : WordShape.Statement .readFrame := by unfold WordShape.Statement; decide
theorem WordShape.countFrames : WordShape.Statement .countFrames := by unfold WordShape.Statement; decide

end Sys2Proof.Laws
end

