-- ==== Sys2Proof/Laws/Run.lean ====
section
/-! SUPPORT. Laws of runs (70_reset_and_hazards.md R213): what a launch leaves alone, a run that has ended stays so, and
runs compose. -/

namespace Sys2Proof.Machine

/-! ## `launch` -/

@[simp] theorem launch_inputs (s : State) (p : List Input) : (launch s p).inputs = p := rfl
@[simp] theorem launch_storageBase (s : State) (p : List Input) : (launch s p).storageBase = s.storageBase := rfl
@[simp] theorem launch_capacity (s : State) (p : List Input) : (launch s p).capacity = s.capacity := rfl
@[simp] theorem launch_length (s : State) (p : List Input) : (launch s p).length = s.length := rfl
@[simp] theorem launch_wrIdx (s : State) (p : List Input) : (launch s p).wrIdx = s.wrIdx := rfl
@[simp] theorem launch_rdIdx (s : State) (p : List Input) : (launch s p).rdIdx = s.rdIdx := rfl
@[simp] theorem launch_bound (s : State) (p : List Input) : (launch s p).bound = s.bound := rfl
@[simp] theorem launch_cmd (s : State) (p : List Input) : (launch s p).cmd = s.cmd := rfl
@[simp] theorem launch_code (s : State) (p : List Input) : (launch s p).code = s.code := rfl
@[simp] theorem launch_trunc (s : State) (p : List Input) : (launch s p).trunc = s.trunc := rfl
@[simp] theorem launch_busy (s : State) (p : List Input) : (launch s p).busy = s.busy := rfl
@[simp] theorem launch_result (s : State) (p : List Input) : (launch s p).result = s.result := rfl
@[simp] theorem launch_arg0 (s : State) (p : List Input) : (launch s p).arg0 = s.arg0 := rfl
@[simp] theorem launch_arg1 (s : State) (p : List Input) : (launch s p).arg1 = s.arg1 := rfl
@[simp] theorem launch_arg2 (s : State) (p : List Input) : (launch s p).arg2 = s.arg2 := rfl
@[simp] theorem launch_arg3 (s : State) (p : List Input) : (launch s p).arg3 = s.arg3 := rfl
@[simp] theorem launch_cfg (s : State) (p : List Input) : (launch s p).cfg = s.cfg := rfl
@[simp] theorem launch_mem (s : State) (p : List Input) : (launch s p).mem = s.mem := rfl
@[simp] theorem launch_released (s : State) (p : List Input) : (launch s p).released = s.released := rfl
@[simp] theorem launch_readData (s : State) (p : List Input) : (launch s p).readData = s.readData := rfl
@[simp] theorem launch_draws (s : State) (p : List Input) : (launch s p).draws = s.draws := rfl

/-! ## The end of a run -/

theorem runEnded_iff {s : State} : runEnded s = true ↔ s.inputs = [] ∧ s.busy = false := by
  simp [runEnded]

/-- Where the run has ended, the step is idle (R194). -/
theorem step_of_ended {s : State} (h : runEnded s = true) : step s = .next s := by
  obtain ⟨hi, hb⟩ := runEnded_iff.mp h
  simp [step, nextMove, engineTurn, hi, hb]

theorem runSteps_succ {k : Nat} {s t : State} (h : step s = .next t) : runSteps (k + 1) s = runSteps k t := by
  rw [runSteps, h]

theorem runSteps_of_ended {s : State} (h : runEnded s = true) : ∀ k, runSteps k s = .next s
  | 0 => rfl
  | k + 1 => (runSteps_succ (step_of_ended h)).trans (runSteps_of_ended h k)

/-- Runs compose: `k` steps that answer a next state, then `j` more from it. -/
theorem runSteps_add {s t : State} : ∀ {k j : Nat}, runSteps k s = .next t → runSteps (k + j) s = runSteps j t := by
  intro k
  induction k generalizing s with
  | zero => intro j h; cases h; rw [Nat.zero_add]
  | succ k ih =>
    intro j h
    rw [Nat.succ_add, runSteps]
    rw [runSteps] at h
    cases hs : step s with
    | next u => rw [hs] at h; exact ih h
    | fault f => rw [hs] at h; cases h
    | refused r => rw [hs] at h; cases h

/-- Once a run has ended, more steps change nothing. -/
theorem runSteps_stable {s t : State} {k j : Nat} (h : runSteps k s = .next t) (he : runEnded t = true) (hk : k ≤ j) :
    runSteps j s = .next t := by
  obtain ⟨d, rfl⟩ := Nat.exists_eq_add_of_le hk
  rw [runSteps_add h, runSteps_of_ended he]

/-- The final state of a run is that of the state it ends in, after however many steps within its bound. -/
theorem runFinal_of_ended {s t : State} {k : Nat} (h : runSteps k s = .next t) (he : runEnded t = true)
    (hk : k ≤ runBound s) : runFinal s = some (finalState t) := by
  rw [runFinal, run, runSteps_stable h he hk]
  simp [he]

end Sys2Proof.Machine
end

