-- ==== Sys2Proof/Tests/Slice0.lean ====
section
/-! SUPPORT. Tests. Expected values come from spec/: the OP column of 30_encoding.md R73, and the vectors of
95_test_vectors.md (named by section and row). Then, for every statement with hypotheses, a state that meets them. -/

namespace Sys2Proof.Tests

open Sys2Proof Sys2Proof.Machine Sys2Proof.Safety

/-! ## Small states -/

/-- The bytes `bs` in memory from address `a` on; zeros are not listed. -/
def cells : Nat → List Byte → Memory
  | _, [] => []
  | a, b :: bs => if b = 0 then cells (a + 1) bs else (a, b) :: cells (a + 1) bs

/-- A bound ring with storage at 0x1000 (95_test_vectors.md, conventions). -/
def ring (cap len wr rd : Word) (m : Memory) : State :=
  { State.reset with storageBase := 0x1000, capacity := cap, length := len, wrIdx := wr, rdIdx := rd, bound := true, mem := m }

def State.args (s : State) (a b c d : Word) : State := { s with arg0 := a, arg1 := b, arg2 := c, arg3 := d }

/-- The state a command leaves, where it completes. -/
def after (i : Instr) (s : State) : State :=
  match exec i s with
  | .next t => t
  | .fault _ => s
  | .refused _ => s

/-- CODE, RESULT, TRUNC and the ring state `len/wr/rd` a command leaves. -/
def seen (i : Instr) (s : State) : StatusCode × Nat × Bool × Nat × Nat × Nat :=
  let t := after i s
  (t.code, t.result.toNat, t.trunc, t.length.toNat, t.wrIdx.toNat, t.rdIdx.toNat)

/-- The host bytes a command leaves. -/
def left (i : Instr) (s : State) (a n : Nat) : List Byte := (after i s).mem.hostBytes a n

/-- A state in which the word `w` is pending and the engine moves next. -/
def pending (s : State) (w : Word) : State := { s with cmd := w, busy := true }

/-- L1.1 before step 1, with its source bytes at 0x2000. -/
def empty8 : State := ring 8 0 0 0 (cells 0x2001 [1, 2, 3, 4, 5, 6, 7])

/-- L1.1 after step 5: the start of L2.1. -/
def wrapped8 : State := ring 8 7 2 3 (cells 0x1000 [8, 9, 2, 3, 4, 5, 6, 7] ++ cells 0x2000 [0xAA, 0xBB])

/-- A full ring of 8, the state after L1.1 step 2. -/
def full8 : State := ring 8 8 0 0 (cells 0x1000 [0, 1, 2, 3, 4, 5, 6, 7])

/-- L2.2 set-up A, with a pattern at 0x4000. -/
def search8 (pattern : List Byte) : State :=
  ring 8 3 1 6 (cells 0x1000 [0xEF] ++ cells 0x1006 [0xAD, 0xBE] ++ cells 0x4000 pattern)

/-- L2.4 before row 3: an empty ring of 16, with `A0 .. A5` at 0x2000. -/
def empty16 : State := ring 16 0 0 0 (cells 0x2000 [0xA0, 0xA1, 0xA2, 0xA3, 0xA4, 0xA5])

/-- L2.4 after row 7: two blocks fill a ring of 16. -/
def blocks16 : State :=
  ring 16 16 0 0 (cells 0x1000 [6, 0, 0, 0, 0xA0, 0xA1, 0xA2, 0xA3, 0xA4, 0xA5, 2, 0, 0, 0, 0xA0, 0xA1])

/-- L2.4 after row 20: a prefix still arriving. -/
def fragment16 : State := ring 16 2 4 2 (cells 0x1002 [2])

/-- L2.5 before row 1, with the header at 0x2000 and the payload at 0x2010. -/
def beforeFrame16 : State := ring 16 0 12 12 (cells 0x2000 [0x48, 0x44] ++ cells 0x2010 [0x50, 0x51, 0x52])

/-- L2.5 after row 1. -/
def frame16 : State := ring 16 9 5 12 (cells 0x1000 [0x48, 0x44, 0x50, 0x51, 0x52] ++ cells 0x100C [5])

/-- L2.4 row 38: N = 8, a ring of 12. -/
def wide12 : State :=
  { ring 12 0 0 0 (cells 0x2000 [0xA0, 0xA1, 0xA2]) with cfg := { defaultConfig with prefixWidth := .eight } }

/-! ## Well-formedness: what each check refuses -/

theorem test_line_wellFormed : Line.wellFormed ⟨.write, [0x2000, 5]⟩ = true := by decide
theorem test_line_too_many_operands : Line.wellFormed ⟨.length, [1]⟩ = false := by decide
theorem test_line_three_operands_of_two : Line.wellFormed ⟨.init, [0x1000, 8, 0]⟩ = false := by decide
theorem test_config_wellFormed : Config.wellFormed defaultConfig = true := by decide
theorem test_config_misaligned : Config.wellFormed { defaultConfig with coreBase := 0x40000002 } = false := by decide
theorem test_config_past_top : Config.wellFormed { defaultConfig with coreBase := 0xFFFFFF04 } = false := by decide
theorem test_input_wellFormed : Input.wellFormed defaultConfig (.writeReg 0x4000000C .word 1) = true := by decide
theorem test_input_byte_wide : Input.wellFormed defaultConfig (.writeReg 0x4000000C .byte 1) = false := by decide
theorem test_input_misaligned : Input.wellFormed defaultConfig (.readReg 0x4000000E .word) = false := by decide
theorem test_input_outside : Input.wellFormed defaultConfig (.readReg 0x40000100 .word) = false := by decide

/-- A command has no field that could be ill formed (R70): every term is well formed. -/
theorem test_instr_wellFormed : Instr.wellFormed .countFrames = true := by decide

/-! ## Decoding: the words of 30_encoding.md R73, written out -/

theorem test_decode_core_ring :
    decode 0x00000001#32 = some .init ∧ decode 0x00000002#32 = some .clear ∧ decode 0x00000003#32 = some .length ∧
      decode 0x00000004#32 = some .space ∧ decode 0x00000005#32 = some .write ∧
      decode 0x00000006#32 = some .writeAll ∧ decode 0x00000007#32 = some .read ∧ decode 0x00000008#32 = some .peek ∧
      decode 0x00000009#32 = some .peekOffset ∧ decode 0x0000000A#32 = some .discard ∧
      decode 0x0000000B#32 = some .find := by decide

theorem test_decode_block_codec :
    decode 0x00000010#32 = some .writeBlock ∧ decode 0x00000011#32 = some .peekBlockLength ∧
      decode 0x00000012#32 = some .readBlock ∧ decode 0x00000013#32 = some .peekBlock ∧
      decode 0x00000014#32 = some .discardBlock ∧ decode 0x00000015#32 = some .countBlocks := by decide

theorem test_decode_frame_codec :
    decode 0x00000020#32 = some .writeFrame ∧ decode 0x00000021#32 = some .peekFrame ∧
      decode 0x00000022#32 = some .readFrame ∧ decode 0x00000023#32 = some .countFrames := by decide

/-- R74's ranges at their ends, and a set reserved bit over a legal OP (L2.3 rows 1 to 3). -/
theorem test_decode_illegal :
    decode 0x00000000#32 = none ∧ decode 0x0000000C#32 = none ∧ decode 0x0000000F#32 = none ∧
      decode 0x00000016#32 = none ∧ decode 0x0000001F#32 = none ∧ decode 0x00000024#32 = none ∧
      decode 0x000000FF#32 = none ∧ decode 0x00000105#32 = none ∧ decode 0x80000005#32 = none := by decide

theorem test_illegal_words_named :
    (match decodeWord 0x00000105#32 with | .error e => some e | .ok _ => none) = some .reservedBitsSet ∧
      (match decodeWord 0x0000000C#32 with | .error e => some e | .ok _ => none) = some .reservedOpcode := by decide

theorem test_decodeTableWord : decodeTableWord 32 0x09 = some .peekOffset ∧ decodeTableWord 32 0x109 = none := by decide

theorem test_pseudo : (expandPseudo .discardFrame, expandPseudo .peekFrameLength, expandPseudo .writeStrict) =
    (.discardBlock, .peekBlockLength, .writeAll) := by decide

/-! ## One step of each command -/

/-- L1.1 step 0. -/
theorem test_init : (let t := after .init (State.args State.reset 0x1000 8 0 0)
    (statusWord t, t.capacity.toNat, t.storageBase.toNat)) = (0x40000000#32, 8, 0x1000) := by decide
/-- L2.3 rows 7 and 8: the region may end at 2^32, not past it. -/
theorem test_init_top : (after .init (State.args State.reset 0xFFFFFFF8 9 0 0)).code = .invalidArgument ∧
    (after .init (State.args State.reset 0xFFFFFFF8 8 0 0)).code = .ok := by decide
/-- L2.1 row 16. -/
theorem test_clear : seen .clear wrapped8 = (.ok, 0, false, 0, 0, 0) := by decide
/-- L2.3 row 4. -/
theorem test_length_unbound : statusWord (after .length State.reset) = 0x00000001#32 := by decide
/-- L2.1 row 8. -/
theorem test_length : seen .length wrapped8 = (.ok, 7, false, 7, 2, 3) := by decide
/-- L2.1 row 9. -/
theorem test_space : seen .space wrapped8 = (.ok, 1, false, 7, 2, 3) := by decide
/-- L1.1 step 1. -/
theorem test_write : seen .write (State.args empty8 0x2000 5 0 0) = (.ok, 5, false, 5, 5, 0) ∧
    left .write (State.args empty8 0x2000 5 0 0) 0x1000 6 = [0, 1, 2, 3, 4, 0] := by decide
/-- L2.1's start, WRITE of 2 bytes where 1 fits: it lands at physical 2 and the rest is dropped. -/
theorem test_write_truncates : seen .write (State.args wrapped8 0x2000 2 0 0) = (.ok, 1, true, 8, 3, 3) ∧
    left .write (State.args wrapped8 0x2000 2 0 0) 0x1000 4 = [8, 9, 0xAA, 3] := by decide
/-- L1.1 step 3b, with its STATUS word of L2.3. -/
theorem test_writeAll_full : statusWord (after .writeAll (State.args full8 0x2000 1 0 0)) = 0x40000002#32 := by decide
/-- L2.1 row 17: an exact fill leaves WR_IDX at 0. -/
theorem test_writeAll_exact : seen .writeAll (State.args empty8 0x2000 8 0 0) = (.ok, 8, false, 8, 0, 0) := by decide
/-- L1.1 step 4. -/
theorem test_read : seen .read (State.args full8 0x3000 3 0 0) = (.ok, 3, false, 5, 0, 3) ∧
    left .read (State.args full8 0x3000 3 0 0) 0x3000 4 = [0, 1, 2, 0] := by decide
/-- L2.1 row 14: an absent reference fails even for 0 bytes. -/
theorem test_read_absent : seen .read (State.args wrapped8 0 0 0 0) = (.invalidArgument, 0, false, 7, 2, 3) := by decide
/-- L2.1 row 2: the copy wraps, and TRUNC is set. -/
theorem test_peek : seen .peek (State.args wrapped8 0x3010 9 0 0) = (.ok, 7, true, 7, 2, 3) ∧
    left .peek (State.args wrapped8 0x3010 9 0 0) 0x3010 8 = [3, 4, 5, 6, 7, 8, 9, 0] := by decide
/-- L2.1 row 3. -/
theorem test_peekOffset : seen .peekOffset (State.args wrapped8 4 0x3020 4 0) = (.ok, 3, true, 7, 2, 3) ∧
    left .peekOffset (State.args wrapped8 4 0x3020 4 0) 0x3020 4 = [7, 8, 9, 0] := by decide
/-- L2.1 row 6. -/
theorem test_peekOffset_past : seen .peekOffset (State.args wrapped8 9 0x3020 1 0) = (.ok, 0, true, 7, 2, 3) := by decide
/-- L2.1 row 10: RD_IDX reaches the physical end and becomes 0 (90_conflicts.md C7). -/
theorem test_discard : seen .discard (State.args wrapped8 5 0 0 0) = (.ok, 5, false, 2, 2, 0) := by decide
/-- L2.2 row 1: a match across physical 7 and 0. -/
theorem test_find : seen .find (State.args (search8 [0xBE, 0xEF]) 0 0x4000 2 0) = (.ok, 1, false, 3, 1, 6) := by decide
/-- L2.2 row 4. -/
theorem test_find_none : seen .find (State.args (search8 [0xAD]) 1 0x4000 1 0) =
    (.notFound, 0xFFFFFFFF, false, 3, 1, 6) := by decide
/-- L2.4 row 3. -/
theorem test_writeBlock : seen .writeBlock (State.args empty16 0x2000 6 0 0) = (.ok, 10, false, 10, 10, 0) ∧
    left .writeBlock (State.args empty16 0x2000 6 0 0) 0x1000 10 =
      [6, 0, 0, 0, 0xA0, 0xA1, 0xA2, 0xA3, 0xA4, 0xA5] := by decide
/-- L2.4 row 38: N = 8. -/
theorem test_writeBlock_wide : seen .writeBlock (State.args wide12 0x2000 3 0 0) = (.ok, 11, false, 11, 11, 0) ∧
    left .writeBlock (State.args wide12 0x2000 3 0 0) 0x1000 11 = [3, 0, 0, 0, 0, 0, 0, 0, 0xA0, 0xA1, 0xA2] := by
  decide
/-- L2.4 row 21. -/
theorem test_peekBlockLength_absent : seen .peekBlockLength fragment16 = (.notPresent, 0, false, 2, 4, 2) := by decide
/-- L2.4 row 11. -/
theorem test_readBlock : seen .readBlock (State.args blocks16 0x3000 6 0 0) = (.ok, 6, false, 6, 0, 10) ∧
    left .readBlock (State.args blocks16 0x3000 6 0 0) 0x3000 6 = [0xA0, 0xA1, 0xA2, 0xA3, 0xA4, 0xA5] := by decide
/-- L2.4 row 10. -/
theorem test_readBlock_small : seen .readBlock (State.args blocks16 0x3000 5 0 0) =
    (.destTooSmall, 0, false, 16, 0, 0) := by decide
/-- L2.4 row 9. -/
theorem test_peekBlock : seen .peekBlock (State.args blocks16 0x3000 3 0 0) = (.ok, 3, true, 16, 0, 0) ∧
    left .peekBlock (State.args blocks16 0x3000 3 0 0) 0x3000 4 = [0xA0, 0xA1, 0xA2, 0] := by decide
/-- L2.4 row 12, on the frame of L2.5 (row 16's DISCARD_FRAME): 4 + 5 bytes go. -/
theorem test_discardBlock : seen .discardBlock frame16 = (.ok, 9, false, 0, 5, 5) := by decide
/-- L2.4 row 8. -/
theorem test_countBlocks : seen .countBlocks blocks16 = (.ok, 2, false, 16, 0, 0) := by decide
/-- L2.4 row 22. -/
theorem test_countBlocks_corrupt : seen .countBlocks fragment16 = (.corrupt, 0, false, 2, 4, 2) := by decide
/-- L2.5 row 1: the frame wraps after its prefix. -/
theorem test_writeFrame : seen .writeFrame (State.args beforeFrame16 0x2000 2 0x2010 3) = (.ok, 9, false, 9, 5, 12) ∧
    left .writeFrame (State.args beforeFrame16 0x2000 2 0x2010 3) 0x1000 16 =
      [0x48, 0x44, 0x50, 0x51, 0x52, 0, 0, 0, 0, 0, 0, 0, 5, 0, 0, 0] := by decide
/-- L2.5 row 4. -/
theorem test_peekFrame : seen .peekFrame (State.args frame16 0x3000 2 0x3010 3) = (.ok, 3, false, 9, 5, 12) ∧
    left .peekFrame (State.args frame16 0x3000 2 0x3010 3) 0x3000 2 = [0x48, 0x44] := by decide
/-- L2.5 row 5: PEEK_FRAME never truncates. -/
theorem test_peekFrame_small : seen .peekFrame (State.args frame16 0x3000 2 0x3010 2) =
    (.destTooSmall, 0, false, 9, 5, 12) := by decide
/-- L2.5 row 8. -/
theorem test_readFrame : seen .readFrame (State.args frame16 0x3000 2 0x3010 8) = (.ok, 3, false, 0, 5, 5) ∧
    left .readFrame (State.args frame16 0x3000 2 0x3010 8) 0x3010 3 = [0x50, 0x51, 0x52] := by decide
/-- L2.5 row 6. -/
theorem test_readFrame_short : seen .readFrame (State.args frame16 0x3000 6 0x3010 0) =
    (.shortFrame, 0, false, 9, 5, 12) := by decide
/-- L2.5 row 3. -/
theorem test_countFrames : seen .countFrames frame16 = (.ok, 1, false, 9, 5, 12) := by decide

/-- L2.3 row 3, as a whole step: a set reserved bit gives ILLEGAL_COMMAND and nothing else. -/
theorem test_illegal_step : step (pending wrapped8 0x105) =
    .next { wrapped8 with cmd := 0x105, code := .illegalCommand } := rfl

/-- `withFetchWord` makes the next step run the row's command. -/
theorem test_withFetchWord : step (State.reset.withFetchWord 32 0x03) =
    exec .length { State.reset with cmd := 0x03, busy := true } := rfl

/-! ## States that meet the hypotheses of the statements -/

/-- Host memory backs every address below 2^32 in the build of `State.reset`. -/
theorem backed_default {a : Nat} (h : a < addressSpace) : byteBacked defaultConfig a = true := by
  simp [byteBacked, defaultConfig, regionContains, h]

theorem witness_StepRunsDecodedCommand :
    (EngineNext (pending wrapped8 0x03) ∧ decode 0x03 = some .length ∧ Instr.wellFormed .length = true) ∧
      EngineNext { pending wrapped8 0x03 with inputs := [.pollIdle] } := by decide

theorem witness_IllegalWordOnlyCompletes :
    (EngineNext (pending wrapped8 0x105) ∧ (0x105#32).toNat / 256 ≠ 0) ∧
      EngineNext (pending wrapped8 0x24) ∧ ∀ i : Instr, (0x24#32).toNat % 256 ≠ (opcode i).toNat :=
  ⟨by decide, by decide, fun i => by cases i <;> decide⟩

theorem witness_UnboundCommandsOnlyFail : Instr.read ≠ .init ∧ State.reset.bound = false := by decide

/-- READ into the ring's own storage. -/
def overlapping : State := State.args wrapped8 0x1004 2 0 0

theorem witness_OnlyOverlapIsRefused : exec .read overlapping = .refused .overlapContract := rfl

/-- The platform backs these ranges only. -/
def backedBy (ranges : List Region) (s : State) : State := { s with cfg := { s.cfg with backed := ranges } }

/-- No memory at all. -/
def unbacked : State := backedBy [] (State.args wrapped8 0x3000 2 0 0)

theorem witness_StuckOnlyOnMissingMemory : MachineInv unbacked ∧ exec .read unbacked = .fault .hostMemNotAdmitted :=
  ⟨by decide, rfl⟩

theorem witness_PendingCommandsCompleteAndRunsEnd :
    let s := pending (State.args wrapped8 0x3000 7 0 0) 0x07
    MachineInv s ∧ EngineNext s ∧ ∀ i, decode s.cmd = some i →
      (∀ r ∈ storageRegion s :: (sourceRegions i s ++ destinationRegions i s), ∀ a, r.base ≤ a → a < r.base + r.size →
        byteBacked s.cfg a = true) ∧
      (∀ d ∈ destinationRegions i s, Apart d (storageRegion s)) ∧ (destinationRegions i s).Pairwise Apart ∧
      (appends i = true → ∀ r ∈ sourceRegions i s, Apart r (storageRegion s)) := by
  refine ⟨by decide, by decide, fun i hi => ?_⟩
  obtain rfl : i = .read := by injection hi with hi; exact hi.symm
  refine ⟨fun r hr a _ ha => backed_default ?_, by decide, by decide, by decide⟩
  have hm : r = ⟨0x1000, 8⟩ ∨ r = ⟨0x3000, 7⟩ := by
    simpa [storageRegion, reference, sourceRegions, destinationRegions, pending, State.args, wrapped8, ring] using hr
  rcases hm with rfl | rfl <;> simp [addressSpace] at ha ⊢ <;> omega

theorem witness_CommandsKeepOperandsAndBuild :
    exec .read (State.args full8 0x3000 3 0 0) = .next (after .read (State.args full8 0x3000 3 0 0)) := rfl

theorem witness_OnlyInitBinds : Instr.clear ≠ .init ∧ exec .clear full8 = .next (after .clear full8) :=
  ⟨by decide, rfl⟩

theorem witness_FailedCommandsChangeNothing :
    exec .writeAll (State.args full8 0x2000 1 0 0) = .next (after .writeAll (State.args full8 0x2000 1 0 0)) ∧
      (after .writeAll (State.args full8 0x2000 1 0 0)).code ≠ .ok := ⟨rfl, by decide⟩

/-- Both clauses: NOT_FOUND, and another failure. -/
theorem witness_ResultOfFailedCommands :
    (exec .find (State.args (search8 [0xAD]) 1 0x4000 1 0) =
        .next (after .find (State.args (search8 [0xAD]) 1 0x4000 1 0)) ∧
      (after .find (State.args (search8 [0xAD]) 1 0x4000 1 0)).code = .notFound) ∧
    (after .find (State.args (search8 [0xAD]) 3 0x4000 1 0)).code = .invalidArgument :=
  ⟨⟨rfl, by decide⟩, by decide⟩

theorem witness_TruncExactly :
    (MachineInv (State.args wrapped8 0x3010 9 0 0) ∧
      exec .peek (State.args wrapped8 0x3010 9 0 0) = .next (after .peek (State.args wrapped8 0x3010 9 0 0))) ∧
    decode (pending wrapped8 0x105).cmd = none ∧
      engineMove (pending wrapped8 0x105) = .next { wrapped8 with cmd := 0x105, code := .illegalCommand } :=
  ⟨⟨by decide, rfl⟩, by decide, rfl⟩

theorem witness_CodesOfEachCommand : full8.bound = true ∧ exec .clear full8 = .next (after .clear full8) :=
  ⟨by decide, rfl⟩

/-- Both ways a reference fails: absent, and past the top. -/
theorem witness_BadReferenceOnlyFails :
    (∃ r ∈ referenceOperands .read (State.args wrapped8 0 1 0 0), ¬ (r.base ≠ 0 ∧ r.base + r.size ≤ 2 ^ 32)) ∧
      (∃ r ∈ referenceOperands .write (State.args wrapped8 0xFFFFFFFF 2 0 0),
        ¬ (r.base ≠ 0 ∧ r.base + r.size ≤ 2 ^ 32)) ∧ wrapped8.bound = true ∧
      ∃ r ∈ referenceOperands .init (State.args State.reset 0 8 0 0), ¬ (r.base ≠ 0 ∧ r.base + r.size ≤ 2 ^ 32) := by
  decide

theorem witness_CommandsWriteOnlyTheirRegions :
    (MachineInv (State.args full8 0x3000 3 0 0) ∧
      (∀ d ∈ destinationRegions .read (State.args full8 0x3000 3 0 0), ¬ (d.base ≤ 0x3003 ∧ 0x3003 < d.base + d.size)) ∧
      appends .read = false) ∧
    exec .read (State.args full8 0x3000 3 0 0) = .next (after .read (State.args full8 0x3000 3 0 0)) :=
  ⟨by decide, rfl⟩

theorem witness_StepKeepsRingInvariants :
    MachineInv (pending wrapped8 0x02) ∧ step (pending wrapped8 0x02) = .next (after .clear (pending wrapped8 0x02)) :=
  ⟨by decide, rfl⟩

theorem witness_StepKeepsBuildParameters :
    step (pending wide12 0x02) = .next (after .clear (pending wide12 0x02)) := rfl

/-- At the run that ends at the physical end, and one past it. -/
theorem witness_TwoSegmentsAreModular : (3 < 8 ∧ 5 ≤ 8 ∧ adv 8 3 5 = 0) ∧ (3 < 8 ∧ 8 ≤ 8 ∧ adv 8 3 8 = 3) ∧
    phys 8 3 5 = 0 := by decide

theorem witness_PrefixIsLittleEndian : 0xFFFFFFFF < 256 ^ 4 ∧ prefixEnc 4 0x01020304 = [4, 3, 2, 1] := by decide

theorem witness_InitBindsEmptyRing :
    (¬ InitReady (State.args State.reset 0x1000 0 0 0) ∧ ¬ InitReady (State.args State.reset 0 8 0 0) ∧
      InitReady (State.args State.reset 0xFFFFFFF8 8 0 0)) ∧
    State.reset.bound = false ∧ (after .init (State.args State.reset 0x1000 8 0 0)).code = .ok ∧
      exec .init (State.args State.reset 0x1000 8 0 0) = .next (after .init (State.args State.reset 0x1000 8 0 0)) :=
  ⟨by decide, by decide, by decide, rfl⟩

/-- For ClearEmptiesRing, LengthReportsLiveBytes, SpaceReportsFreeBytes and DiscardDropsFromFront. -/
theorem witness_bound : full8.bound = true ∧ RingReady full8 ∧ RingReady wrapped8 ∧ RingReady wide12 := by decide

/-- For the first clause of every statement about a command with references: absent, and past the top, in each pair of
ARG registers that can hold one. -/
theorem witness_badReference :
    let s := State.args wrapped8 0 1 0 1
    let u := State.args wrapped8 0xFFFFFFFF 0xFFFFFFFF 2 0
    s.bound = true ∧ ¬ ReferenceOK s.arg0 s.arg1 ∧ ¬ (ReferenceOK s.arg0 s.arg1 ∧ ReferenceOK s.arg2 s.arg3) ∧
      u.bound = true ∧ ¬ ReferenceOK u.arg0 u.arg1 ∧ ¬ ReferenceOK u.arg1 u.arg2 := by decide

theorem witness_WriteAppendsWhatFits :
    MachineInv (State.args wrapped8 0x2000 2 0 0) ∧ WriteReady (State.args wrapped8 0x2000 2 0 0) ∧
      WriteReady (State.args full8 0x2000 0 0 0) := by and_intros <;> decide

theorem witness_WriteAllIsStrict :
    ((State.args full8 0x2000 1 0 0).bound = true ∧ BufferReady (State.args full8 0x2000 1 0 0) 0x2000 1 ∧
        space (State.args full8 0x2000 1 0 0) < 1) ∧ MachineInv (State.args empty8 0x2000 8 0 0) ∧
      WriteAllReady (State.args empty8 0x2000 8 0 0) := by and_intros <;> decide

/-- For PeekCopiesFromFront, PeekTwiceIsPeekOnce and DiscardIsReadWithoutCopy too. -/
theorem witness_ReadRemovesFromFront :
    MachineInv (State.args wrapped8 0x3000 7 0 0) ∧ ReadReady (State.args wrapped8 0x3000 7 0 0) ∧
      ReadReady (State.args empty8 0x3000 1 0 0) := by and_intros <;> decide

/-- Offsets below, at and above LENGTH. -/
theorem witness_PeekOffsetCopiesFromOffset :
    MachineInv (State.args wrapped8 4 0x3000 4 0) ∧ PeekOffsetReady (State.args wrapped8 4 0x3000 4 0) ∧
      PeekOffsetReady (State.args wrapped8 7 0x3000 1 0) ∧ PeekOffsetReady (State.args wrapped8 9 0x3000 1 0) := by
  and_intros <;> decide

/-- L2.2 row 1 about to run, and row 4. -/
def findHit : State := State.args (search8 [0xBE, 0xEF]) 0 0x4000 2 0
def findMiss : State := State.args (search8 [0xAD]) 1 0x4000 1 0

theorem witness_FindGivesFirstMatch :
    (FindReady findHit ∧ MatchAt findHit 1 ∧ ∀ j < 1, ¬ MatchAt findHit j) ∧
      FindReady findMiss ∧ ∀ k, ¬ MatchAt findMiss k := by
  refine ⟨by and_intros <;> decide, by and_intros <;> decide, fun k hk => ?_⟩
  have h3 : k + 1 ≤ 3 := hk.2.1
  have : k = 0 ∨ k = 1 ∨ k = 2 := by omega
  rcases this with rfl | rfl | rfl <;> revert hk <;> decide

/-- Each failing check by itself: no pattern, an offset at LENGTH, a pattern one byte too long. -/
theorem witness_FindGivesFirstMatch_bad :
    let refused := fun s : State => s.bound = true ∧ ¬ (ReferenceOK s.arg1 s.arg2 ∧ s.arg2 ≠ 0 ∧
      s.arg0.toNat < s.length.toNat ∧ s.arg2.toNat ≤ s.length.toNat - s.arg0.toNat)
    refused (State.args (search8 []) 0 0x4000 0 0) ∧ refused (State.args (search8 []) 3 0x4000 1 0) ∧
      refused (State.args (search8 []) 0 0x4000 4 0) := by
  and_intros <;> decide

theorem witness_WriteBlockAppendsBlock :
    ((State.args empty16 0x2000 13 0 0).bound = true ∧ BufferReady (State.args empty16 0x2000 13 0 0) 0x2000 13 ∧
        space empty16 < prefixBytes empty16 + 13) ∧
      MachineInv (State.args empty16 0x2000 12 0 0) ∧ WriteBlockReady (State.args empty16 0x2000 12 0 0) ∧
      WriteBlockReady (State.args wide12 0x2000 4 0 0) := by and_intros <;> decide

/-- A whole block, a fragment, and an empty ring: for PeekBlockLengthReportsDeclared and DiscardBlockRemovesBlock. -/
theorem witness_look :
    (LookReady blocks16 (headSpan blocks16) ∧ BlockPresent blocks16) ∧
      (LookReady fragment16 (headSpan fragment16) ∧ ¬ BlockPresent fragment16) ∧
      LookReady empty16 (headSpan empty16) ∧ ¬ BlockPresent empty16 := by decide

/-- A fragment with good references: the first failing clause of the four commands that copy a block or a frame out.
-/
theorem witness_notPresent :
    let s := State.args fragment16 0x3000 8 0x3010 8
    LookReady s (headSpan s) ∧ ReferenceOK s.arg0 s.arg1 ∧ ReferenceOK s.arg2 s.arg3 ∧ ¬ BlockPresent s := by
  and_intros <;> decide

/-- L2.4 row 11 about to run, row 10 and row 9. -/
def readBlock5 : State := State.args blocks16 0x3000 5 0 0
def readBlock6 : State := State.args blocks16 0x3000 6 0 0
def peekBlock3 : State := State.args blocks16 0x3000 3 0 0

theorem witness_ReadBlockRemovesBlock :
    (LookReady readBlock5 (headSpan readBlock5) ∧ ReferenceOK readBlock5.arg0 readBlock5.arg1 ∧
        BlockPresent readBlock5 ∧ readBlock5.arg1.toNat < declaredLength readBlock5) ∧
      MachineInv readBlock6 ∧ BlockPresent readBlock6 ∧ declaredLength readBlock6 ≤ readBlock6.arg1.toNat ∧
      BlockOutReady readBlock6 (declaredLength readBlock6) := by
  and_intros <;> decide

theorem witness_PeekBlockCopiesPayload :
    MachineInv peekBlock3 ∧ BlockPresent peekBlock3 ∧
      BlockOutReady peekBlock3 (min (declaredLength peekBlock3) peekBlock3.arg1.toNat) := by and_intros <;> decide

/-- Two blocks, and a fragment that is no sequence of blocks; for CountFramesCountsOrCorrupt too. -/
theorem witness_CountBlocksCountsOrCorrupt :
    (LookReady blocks16 16 ∧ contents blocks16 = blocksWire blocks16 [[0xA0, 0xA1, 0xA2, 0xA3, 0xA4, 0xA5], [0xA0, 0xA1]]) ∧
      LookReady fragment16 2 ∧ ¬ ∃ payloads, contents fragment16 = blocksWire fragment16 payloads := by
  refine ⟨by decide, by decide, fun ⟨payloads, h⟩ => ?_⟩
  cases payloads with
  | nil => exact absurd (congrArg List.length h) (by decide)
  | cons p ps =>
    have hl := congrArg List.length h
    rw [show (contents fragment16).length = 2 by decide] at hl
    simp only [blocksWire, blockWire, List.flatMap_cons, List.length_append] at hl
    rw [show (prefixEnc (prefixBytes fragment16) p.length).length = 4 from rfl] at hl
    omega

theorem witness_WriteFrameAppendsFrame :
    ((State.args empty16 0x2000 2 0x2010 11).bound = true ∧
        BufferReady (State.args empty16 0x2000 2 0x2010 11) 0x2000 2 ∧
        BufferReady (State.args empty16 0x2000 2 0x2010 11) 0x2010 11 ∧
        space (State.args empty16 0x2000 2 0x2010 11) < prefixBytes empty16 + 2 + 11) ∧
      MachineInv (State.args beforeFrame16 0x2000 2 0x2010 10) ∧
      WriteFrameReady (State.args beforeFrame16 0x2000 2 0x2010 10) := by and_intros <;> decide

/-- L2.5 row 4 about to run, row 6 and row 5. -/
def frameOut3 : State := State.args frame16 0x3000 2 0x3010 3
def frameShort : State := State.args frame16 0x3000 6 0x3010 0
def frameSmall : State := State.args frame16 0x3000 2 0x3010 2

/-- The failing clauses, and the copy; for ReadFrameRemovesFrame too. -/
theorem witness_PeekFrameSplitsFrame :
    (LookReady frameShort (headSpan frameShort) ∧ ReferenceOK frameShort.arg0 frameShort.arg1 ∧
        ReferenceOK frameShort.arg2 frameShort.arg3 ∧ BlockPresent frameShort ∧
        declaredLength frameShort < frameShort.arg1.toNat) ∧
      (LookReady frameSmall (headSpan frameSmall) ∧ ReferenceOK frameSmall.arg0 frameSmall.arg1 ∧
        ReferenceOK frameSmall.arg2 frameSmall.arg3 ∧ BlockPresent frameSmall ∧
        frameSmall.arg1.toNat + frameSmall.arg3.toNat < declaredLength frameSmall) ∧
      MachineInv frameOut3 ∧ BlockPresent frameOut3 ∧ frameOut3.arg1.toNat ≤ declaredLength frameOut3 ∧
      declaredLength frameOut3 ≤ frameOut3.arg1.toNat + frameOut3.arg3.toNat ∧
      FrameOutReady frameOut3 (declaredLength frameOut3 - frameOut3.arg1.toNat) := by and_intros <;> decide

/-- An empty ring whose next 8 bytes cross the physical end. -/
def late8 : State := State.args (ring 8 0 6 6 (cells 0x2000 [1, 2, 3])) 0x2000 8 0 0

theorem witness_WriteThenReadRoundTrip :
    MachineInv late8 ∧ WriteReady late8 ∧ late8.length = 0 ∧ late8.arg1.toNat ≤ late8.capacity.toNat ∧
      BufferReady late8 0x3000 late8.arg1 ∧ BufferBacked late8 0x3000 late8.arg1.toNat := by and_intros <;> decide

/-- L2.4 row 3 about to run. -/
def block6 : State := State.args empty16 0x2000 6 0 0

theorem witness_WriteBlockThenReadBlockRoundTrip :
    MachineInv block6 ∧ WriteBlockReady block6 ∧ block6.length = 0 ∧ block6.arg1.toNat ≤ (8 : Word).toNat ∧
      BufferReady block6 0x3000 8 ∧ BufferBacked block6 0x3000 block6.arg1.toNat := by and_intros <;> decide

/-- L2.5 row 1 about to run. -/
def frame5 : State := State.args beforeFrame16 0x2000 2 0x2010 3

theorem witness_WriteFrameThenReadFrameRoundTrip :
    MachineInv frame5 ∧ WriteFrameReady frame5 ∧ frame5.length = 0 ∧ frame5.arg3.toNat ≤ (8 : Word).toNat ∧
      BufferReady frame5 0x3000 frame5.arg1 ∧ BufferReady frame5 0x3010 8 ∧
      Apart (reference 0x3000 frame5.arg1) (reference 0x3010 8) ∧ BufferBacked frame5 0x3000 frame5.arg1.toNat ∧
      BufferBacked frame5 0x3010 frame5.arg3.toNat := by and_intros <;> decide

/-- Host moves on the window of the default build; `inputs` is what stands next. -/
def facing (s : State) (moves : List Input) : State := { s with inputs := moves }

theorem witness_CmdWriteIssuesCommand :
    full8.busy = false ∧ full8.released = false ∧
      (facing full8 [.writeReg 0x40000000 .word 0x07]).inputs = .writeReg defaultConfig.coreBase .word 0x07 :: [] := by
  decide

/-- Both ends of the range, an ARG register and a read-only one. -/
theorem witness_WindowWriteSetsOnlyArgs :
    ∀ off ∈ [0x04, 0x0C, 0x18, 0x20, 0xFC],
      (windowAddr defaultConfig off).toNat = defaultConfig.coreBase.toNat + off ∧ off % 4 = 0 ∧ 0 < off ∧ off < 256 := by
  decide

theorem witness_WindowReadGivesRegister :
    ∀ off ∈ [0x00, 0x04, 0x30, 0x34, 0xFC],
      (windowAddr defaultConfig off).toNat = defaultConfig.coreBase.toNat + off ∧ off % 4 = 0 ∧ off < 256 := by decide

/-- R36 at STATUS: BUSY = 1 with the previous CODE. -/
theorem witness_ReadsWhileBusy :
    let s := facing (pending (after .writeAll (State.args full8 0x2000 1 0 0)) 0x03) [.readReg 0x40000004 .word]
    s.busy = true ∧ statusWord s = 0xC0000002#32 ∧ (0x40000004#32).toNat = s.cfg.coreBase.toNat + 4 ∧
      (0x400000FC#32).toNat = s.cfg.coreBase.toNat + 0xFC := by decide

theorem witness_BadWindowAccessRefused :
    (AccessWidth.byte ≠ .word ∧ (0x400000FC#32).toNat = defaultConfig.coreBase.toNat + 0xFC) ∧
      (0x40000002#32).toNat = defaultConfig.coreBase.toNat + 2 ∧ 2 % 4 ≠ 0 ∧
      (pending full8 0x03).busy = true := by decide

/-- R213: LENGTH and a wait for it end the run, with the registers they leave; stopped before the engine's step it has
not ended. For the clause on runs of any number of steps too. -/
theorem test_run_ends :
    let s := launch full8 [.writeReg 0x40000000 .word 0x03, .pollIdle]
    ((runFinal s).map fun f => (f.result.toNat, f.status, f.length.toNat)) = some (8, 0x40000000#32, 8) ∧
      (match runSteps 3 s with | .next t => (runEnded t, t.busy) | _ => (false, true)) = (true, false) ∧
      (match runSteps 1 s with | .next t => runEnded t | _ => true) = false := by decide

/-- R213: a run that reaches a stuck command or a refused step has no final state. -/
theorem test_run_without_end :
    runFinal (launch unbacked [.writeReg 0x40000000 .word 0x07, .pollIdle]) = none ∧
      runFinal (launch full8 [.writeMem 0x1000 9, .pollIdle]) = none := by decide

/-- READ pending on a full ring, and INIT pending on an unbound one. -/
def pendingRead : State := pending (State.args full8 0x3000 3 0 0) 0x07
def pendingInit : State := pending (State.args State.reset 0x1000 8 0 0) 0x01

/-- The first and the last byte of the storage region, of a pending READ's buffer, and of a pending INIT's region;
none of them in the window. -/
theorem witness_HostMemoryDutiesRefused :
    (windowOffset defaultConfig 0x1000 = none ∧ windowOffset defaultConfig 0x1007 = none ∧
        windowOffset defaultConfig 0x3000 = none ∧ windowOffset defaultConfig 0x3002 = none) ∧
      (full8.busy = false ∧ full8.bound = true ∧ byteBacked full8.cfg 0x1000 = true ∧
        byteBacked full8.cfg 0x1007 = true ∧ full8.storageBase.toNat ≤ 0x1000 ∧
        0x1007 < full8.storageBase.toNat + full8.capacity.toNat) ∧
      (pendingRead.busy = true ∧ decode pendingRead.cmd = some .read ∧
        (∃ r ∈ referenceOperands .read pendingRead, r.base ≤ 0x3000 ∧ 0x3002 < r.base + r.size) ∧
        pendingRead.bound = true) ∧
      pendingInit.busy = true ∧ decode pendingInit.cmd = some .init ∧
        ∃ r ∈ referenceOperands .init pendingInit, r.base ≤ 0x1000 ∧ 0x1007 < r.base + r.size := by
  and_intros <;> first | rfl | decide

/-- R67: the host may not write storage it has released. -/
theorem test_released_storage_stays_held :
    step (facing { full8 with released := true } [.writeMem 0x1007 9]) = .refused .storageWriteWhileBound := rfl

/-- R195: the region a pending INIT names is held from then on. -/
theorem test_pending_init_region_held :
    step { pendingInit with inputs := [.writeMem 0x1007 9] } = .refused .bufferAccessWhileBusy := rfl

/-- R60: a strict writer with its source in storage is refused on a full ring too. -/
theorem test_writeAll_from_storage_refused :
    exec .writeAll (State.args full8 0x1004 2 0 0) = .refused .overlapContract := rfl

/-- What the statement about broken contracts asks of a state. -/
abbrev OverlapCase (i : Instr) (s : State) : Prop :=
  s.bound = true ∧ (∀ r ∈ referenceOperands i s, regionOK r = true) ∧ OverlapBroken i s ∧ ReachesCopy i s

/-- Every command that moves data, and the two overlapping buffers of a frame reader. -/
theorem witness_OverlapIsRefused :
    (OverlapCase .read overlapping ∧ OverlapCase .peek overlapping ∧ OverlapCase .write overlapping ∧
        OverlapCase .peekOffset (State.args wrapped8 0 0x1007 2 0)) ∧
      (OverlapCase .writeAll (State.args full8 0x1004 2 0 0) ∧ OverlapCase .writeBlock (State.args full8 0x0FFF 2 0 0) ∧
        OverlapCase .writeFrame (State.args full8 0x2000 2 0x1004 2)) ∧
      (OverlapCase .readBlock (State.args blocks16 0x100F 6 0 0) ∧
        OverlapCase .peekBlock (State.args blocks16 0x1000 1 0 0)) ∧
      OverlapCase .peekFrame (State.args frame16 0x3000 2 0x3001 3) ∧
      OverlapCase .readFrame (State.args frame16 0x3000 2 0x1004 3) := by
  and_intros <;> decide

/-- What the statement about unbacked bytes asks of a state, but for the missing byte. -/
abbrev StuckCase (i : Instr) (s : State) : Prop :=
  s.bound = true ∧ (i = .writeBlock ∨ i = .writeFrame → RingInv s) ∧
    (∀ r ∈ referenceOperands i s, regionOK r = true) ∧ ¬ OverlapBroken i s

/-- Only the storage of a ring of 16 is backed, and only the pattern of FIND. -/
def noBuffers (s : State) : State := backedBy [⟨0x1000, 16⟩] s
def noStorage (s : State) : State := backedBy [⟨0x4000, 2⟩] s

/-- The byte movers: nothing is backed, or no buffer. -/
theorem witness_UnbackedByteSticks :
    (StuckCase .write unbacked ∧ MissingByte .write unbacked) ∧ (StuckCase .read unbacked ∧ MissingByte .read unbacked) ∧
      (StuckCase .peek unbacked ∧ MissingByte .peek unbacked) ∧
      (StuckCase .writeAll (noBuffers block6) ∧ MissingByte .writeAll (noBuffers block6)) ∧
      (StuckCase .writeBlock (noBuffers block6) ∧ MissingByte .writeBlock (noBuffers block6)) ∧
      (StuckCase .writeFrame (noBuffers frame5) ∧ MissingByte .writeFrame (noBuffers frame5)) ∧
      StuckCase .peekOffset (noBuffers (State.args blocks16 4 0x3000 2 0)) ∧
      MissingByte .peekOffset (noBuffers (State.args blocks16 4 0x3000 2 0)) := by
  simp only [MissingByte]
  and_intros <;> decide

/-- The commands that read a prefix, and those that copy out behind it. -/
theorem witness_UnbackedByteSticks_codec :
    (StuckCase .peekBlockLength (backedBy [] blocks16) ∧ MissingByte .peekBlockLength (backedBy [] blocks16)) ∧
      (StuckCase .discardBlock (backedBy [] blocks16) ∧ MissingByte .discardBlock (backedBy [] blocks16)) ∧
      (StuckCase .readBlock (noBuffers readBlock6) ∧ MissingByte .readBlock (noBuffers readBlock6)) ∧
      (StuckCase .peekBlock (noBuffers peekBlock3) ∧ MissingByte .peekBlock (noBuffers peekBlock3)) ∧
      (StuckCase .peekFrame (noBuffers frameOut3) ∧ MissingByte .peekFrame (noBuffers frameOut3)) ∧
      StuckCase .readFrame (noBuffers frameOut3) ∧ MissingByte .readFrame (noBuffers frameOut3) := by
  simp only [MissingByte]
  and_intros <;> first | rfl | decide

/-- FIND without its pattern, without the live bytes up to its match, and without the live bytes where none matches.
-/
theorem witness_UnbackedByteSticks_find :
    (StuckCase .find (noBuffers findHit) ∧ MissingByte .find (noBuffers findHit)) ∧
      (StuckCase .find (noStorage findHit) ∧ MissingByte .find (noStorage findHit)) ∧
      StuckCase .find (noStorage findMiss) ∧ MissingByte .find (noStorage findMiss) :=
  ⟨⟨by decide, by decide, .inl (by decide)⟩,
    ⟨by decide, by decide, .inr (.inl ⟨1, by decide, by decide, by decide⟩)⟩,
    by decide, by decide, .inr (.inr ⟨witness_FindGivesFirstMatch.2.2, by decide⟩)⟩

/-- Both counters, where the first block is backed and the second prefix is not. -/
theorem witness_UnbackedByteSticks_count :
    let s := backedBy [⟨0x1000, 10⟩] blocks16
    (StuckCase .countBlocks s ∧ MissingByte .countBlocks s) ∧ StuckCase .countFrames s ∧ MissingByte .countFrames s :=
  have missing := ⟨[[0xA0, 0xA1, 0xA2, 0xA3, 0xA4, 0xA5]], [2, 0, 0, 0, 0xA0, 0xA1], by decide, by decide, by decide⟩
  ⟨⟨by decide, missing⟩, by decide, missing⟩

theorem witness_ResetGivesResetValues : (facing full8 [.reset]).busy = false ∧
    (facing full8 [.reset]).inputs = .reset :: [] := by decide

/-- A command that would complete, an illegal word, and a stuck command. -/
theorem witness_ResetAbandonsPendingCommand :
    let s := facing (pending (State.args full8 0x3000 3 0 0) 0x07) [.reset]
    let w := facing (pending full8 0x105) [.reset]
    let u := facing (pending unbacked 0x07) [.reset]
    (MachineInv s ∧ s.busy = true ∧ decode s.cmd = some .read ∧ s.inputs = .reset :: [] ∧
        exec .read { s with inputs := [] } = .next (after .read { s with inputs := [] })) ∧
      (MachineInv w ∧ w.busy = true ∧ decode w.cmd = none) ∧
      MachineInv u ∧ u.busy = true ∧ decode u.cmd = some .read ∧
        exec .read { u with inputs := [] } = .fault .hostMemNotAdmitted :=
  ⟨⟨by decide, by decide, by decide, by decide, rfl⟩, by decide, by decide, by decide, by decide, rfl⟩

/-- A line with all of its operands, and one that reuses ARG1. -/
theorem witness_LineRunsItsCommand :
    defaultConfig.wellFormed = true ∧ full8.busy = false ∧ full8.released = false ∧
      Line.wellFormed ⟨.peekFrame, [0x3000, 2, 0x3010, 3]⟩ = true ∧ Line.wellFormed ⟨.read, [0x3000]⟩ = true ∧
      assemble defaultConfig ⟨.read, [0x3000]⟩ =
        [.writeReg 0x4000000C .word 0x3000, .writeReg 0x40000000 .word 0x07, .pollIdle] := by decide

end Sys2Proof.Tests
end

section
/-! What a command leaves, in two parts: what it moves, and what it completes with (30_encoding.md R77). -/

namespace Sys2Proof.Machine

open Sys2Proof.Safety

/-! ## The two parts of an effect -/

/-- What a command has done to the ring and to host memory when it finishes. -/
def moved (i : Instr) (s : State) : State :=
  match i with
  | .init => bindRing s s.arg0 s.arg1
  | .clear => emptyRing s
  | .write => append s (s.mem.hostBytes s.arg0.toNat (writeCount s))
  | .writeAll => append s (s.mem.hostBytes s.arg0.toNat s.arg1.toNat)
  | .read => remove (copyOut s s 0 (readCount s) s.arg0.toNat) (readCount s)
  | .peek => copyOut s s 0 (peekCount s) s.arg0.toNat
  | .peekOffset => copyOut s s s.arg0.toNat (peekOffsetCount s) s.arg1.toNat
  | .discard => remove s (discardCount s)
  | .writeBlock => append (withPrefix s s.arg1.toNat) (s.mem.hostBytes s.arg0.toNat s.arg1.toNat)
  | .readBlock =>
    remove (copyOut s s (prefixBytes s) (declaredLength s) s.arg0.toNat) (prefixBytes s + declaredLength s)
  | .peekBlock => copyOut s s (prefixBytes s) (min (declaredLength s) s.arg1.toNat) s.arg0.toNat
  | .discardBlock => remove s (prefixBytes s + declaredLength s)
  | .writeFrame => append (withHeader s) (s.mem.hostBytes s.arg2.toNat s.arg3.toNat)
  | .peekFrame => copyFrame s (declaredLength s)
  | .readFrame => remove (copyFrame s (declaredLength s)) (prefixBytes s + declaredLength s)
  | .length | .space | .find | .peekBlockLength | .countBlocks | .countFrames => s

theorem findResult_cases (s : State) :
    (∃ k, search s s.arg0.toNat (findPattern s) = some k ∧ findResult s = finish s .ok k false) ∨
      (search s s.arg0.toNat (findPattern s) = none ∧ findResult s = finish s .notFound 0xFFFFFFFF false) := by
  unfold findResult
  cases search s s.arg0.toNat (findPattern s) <;> simp

theorem countResult_cases (s : State) :
    (∃ n, countResult s = finish s .ok n false) ∨ countResult s = fail s .corrupt := by
  unfold countResult
  cases walk s with
  | none => exact .inr rfl
  | some n => exact .inl ⟨n, rfl⟩

/-- A finished state shows what it was finished with. -/
theorem finish_readBack {t u : State} {c : StatusCode} {r : Nat} {b : Bool} (h : t = finish u c r b) :
    t = finish u t.code t.result.toNat t.trunc := by
  subst h; simp [finish, -BitVec.toNat_ofNat]

/-- Every effect is a move of bytes and then a completion (R77). -/
theorem effect_eq_finish (i : Instr) (s : State) :
    effect i s = finish (moved i s) (effect i s).code (effect i s).result.toNat (effect i s).trunc := by
  have counted : countResult s = finish s (countResult s).code (countResult s).result.toNat (countResult s).trunc := by
    rcases countResult_cases s with ⟨_, e⟩ | e <;> exact finish_readBack e
  cases i with
  | find => rcases findResult_cases s with ⟨_, _, e⟩ | ⟨_, e⟩ <;> exact finish_readBack e
  | countBlocks => exact counted
  | countFrames => exact counted
  | _ => exact finish_readBack rfl

/-! ## What no command writes (R37, R39) -/

/-- The operand registers, CMD, the parameters of the build and the model's own lists and counters are the same. -/
structure OperandsKept (s t : State) : Prop where
  arg0 : t.arg0 = s.arg0
  arg1 : t.arg1 = s.arg1
  arg2 : t.arg2 = s.arg2
  arg3 : t.arg3 = s.arg3
  cmd : t.cmd = s.cmd
  cfg : t.cfg = s.cfg
  inputs : t.inputs = s.inputs
  readData : t.readData = s.readData
  draws : t.draws = s.draws

theorem moved_operandsKept (i : Instr) (s : State) : OperandsKept s (moved i s) := by
  cases i <;> exact ⟨rfl, rfl, rfl, rfl, rfl, rfl, rfl, rfl, rfl⟩

/-- Where the ring stands and whether it is bound is INIT's alone (R21, R22, R26). -/
theorem moved_binding {i : Instr} (hi : i ≠ .init) (s : State) :
    (moved i s).storageBase = s.storageBase ∧ (moved i s).capacity = s.capacity ∧ (moved i s).bound = s.bound ∧
      (moved i s).released = s.released := by
  cases i with
  | init => exact absurd rfl hi
  | _ => exact ⟨rfl, rfl, rfl, rfl⟩

/-- A command that completes has finished from its own state, or from the state its move left. -/
theorem exec_finishes {i : Instr} {s t : State} (h : exec i s = .next t) :
    ∃ u c r b, (u = s ∨ u = moved i s) ∧ t = finish u c r b := by
  rcases exec_next h with ⟨c, _, _, rfl⟩ | ⟨_, _, _, _, _, rfl⟩
  · exact ⟨s, c, 0, false, .inl rfl, rfl⟩
  · exact ⟨moved i s, _, _, _, .inr rfl, effect_eq_finish i s⟩

theorem exec_busy {i : Instr} {s t : State} (h : exec i s = .next t) : t.busy = false := by
  obtain ⟨u, c, r, b, _, rfl⟩ := exec_finishes h
  rfl

theorem exec_operandsKept {i : Instr} {s t : State} (h : exec i s = .next t) : OperandsKept s t := by
  obtain ⟨u, c, r, b, rfl | rfl, rfl⟩ := exec_finishes h
  · exact ⟨rfl, rfl, rfl, rfl, rfl, rfl, rfl, rfl, rfl⟩
  · obtain ⟨h0, h1, h2, h3, hc, hcfg, hin, hrd, hdr⟩ := moved_operandsKept i s
    exact ⟨h0, h1, h2, h3, hc, hcfg, hin, hrd, hdr⟩

theorem exec_binding {i : Instr} {s t : State} (hi : i ≠ .init) (h : exec i s = .next t) :
    t.storageBase = s.storageBase ∧ t.capacity = s.capacity ∧ t.bound = s.bound ∧ t.released = s.released := by
  obtain ⟨u, c, r, b, rfl | rfl, rfl⟩ := exec_finishes h
  · exact ⟨rfl, rfl, rfl, rfl⟩
  · exact moved_binding hi s

/-! ## What a command completes with (R31, R34) -/

theorem ne_of_mem_failCodes {i : Instr} {c : StatusCode} (h : c ∈ failCodes i) :
    c ≠ .ok ∧ c ≠ .notFound ∧ c ≠ .partialWrite := by
  have never : .ok ∉ failCodes i ∧ .notFound ∉ failCodes i ∧ .partialWrite ∉ failCodes i := by
    cases i <;> decide
  exact ⟨fun e => never.1 (e ▸ h), fun e => never.2.1 (e ▸ h), fun e => never.2.2 (e ▸ h)⟩

/-- An effect is a success, FIND's NOT_FOUND, or a counter's CORRUPT. -/
theorem effect_code (i : Instr) (s : State) :
    (effect i s).code = .ok ∨ (i = .find ∧ effect i s = finish s .notFound 0xFFFFFFFF false) ∨
      effect i s = fail s .corrupt := by
  have counted : (countResult s).code = .ok ∨ countResult s = fail s .corrupt :=
    (countResult_cases s).imp_left fun ⟨_, e⟩ => by rw [e]; rfl
  cases i with
  | find =>
    rcases findResult_cases s with ⟨_, _, e⟩ | ⟨_, e⟩
    · exact .inl (by rw [effect, e]; rfl)
    · exact .inr (.inl ⟨rfl, e⟩)
  | countBlocks => exact counted.imp_right .inr
  | countFrames => exact counted.imp_right .inr
  | _ => exact .inl rfl

/-- A failed command changes nothing but what `finish` writes, and says so by RESULT 0 or by FIND's 0xFFFFFFFF. -/
theorem exec_failed {i : Instr} {s t : State} (h : exec i s = .next t) (hc : t.code ≠ .ok) :
    (i = .find ∧ t = finish s .notFound 0xFFFFFFFF false) ∨
      ∃ c, c ≠ .notFound ∧ c ≠ .partialWrite ∧ t = fail s c := by
  rcases exec_next h with ⟨c, hf, _, e⟩ | ⟨_, _, _, _, _, rfl⟩
  · obtain ⟨_, hn, hp⟩ := ne_of_mem_failCodes hf
    exact .inr ⟨c, hn, hp, e⟩
  · rcases effect_code i s with hok | hf | hf
    · exact absurd hok hc
    · exact .inl hf
    · exact .inr ⟨.corrupt, nofun, nofun, hf⟩

theorem statusInv_of_ok {t : State} (h : t.code = .ok) : StatusInv t := by
  simp [StatusInv, h]

theorem statusInv_fail {s : State} {c : StatusCode} (hn : c ≠ .notFound) (hp : c ≠ .partialWrite) :
    StatusInv (fail s c) := by
  simp [StatusInv, fail, hn, hp]

/-- What a completion leaves in STATUS and RESULT is consistent. -/
theorem exec_statusInv {i : Instr} {s t : State} (h : exec i s = .next t) : StatusInv t := by
  by_cases hc : t.code = .ok
  · exact statusInv_of_ok hc
  · rcases exec_failed h hc with ⟨_, rfl⟩ | ⟨c, hn, hp, rfl⟩
    · simp [StatusInv]
    · exact statusInv_fail hn hp

/-- The command is one of R34's list, and `result` is smaller than the count it asked for. -/
def FellShort (i : Instr) (s : State) (result : Nat) : Prop :=
  ((i = .write ∨ i = .read ∨ i = .peek) ∧ result < s.arg1.toNat) ∨ (i = .peekOffset ∧ result < s.arg2.toNat) ∨
    (i = .discard ∧ result < s.arg0.toNat) ∨ (i = .peekBlock ∧ result < declaredLength s)

/-- A count no larger than a register fits in RESULT. -/
theorem toNat_ofNat_of_le {n : Nat} {w : Word} (h : n ≤ w.toNat) : (BitVec.ofNat 32 n).toNat = n :=
  toNat_ofNat (lt_of_le_of_lt h w.isLt)

theorem writeCount_le (s : State) : writeCount s ≤ s.arg1.toNat := Nat.min_le_left _ _
theorem readCount_le (s : State) : readCount s ≤ s.arg1.toNat := Nat.min_le_left _ _
theorem peekCount_le (s : State) : peekCount s ≤ s.arg1.toNat := Nat.min_le_left _ _
theorem discardCount_le (s : State) : discardCount s ≤ s.arg0.toNat := Nat.min_le_left _ _

theorem peekOffsetCount_eq (s : State) : peekOffsetCount s = min s.arg2.toNat (s.length.toNat - s.arg0.toNat) := by
  unfold peekOffsetCount
  split <;> omega

theorem peekOffsetCount_le (s : State) : peekOffsetCount s ≤ s.arg2.toNat :=
  (peekOffsetCount_eq s).trans_le (Nat.min_le_left _ _)

/-- R34, for a command whose checks have passed. -/
theorem effect_trunc_iff (i : Instr) (s : State) :
    (effect i s).trunc = true ↔ (effect i s).code = .ok ∧ FellShort i s (effect i s).result.toNat := by
  have counted : (countResult s).trunc = false := by
    rcases countResult_cases s with ⟨_, e⟩ | e <;> rw [e] <;> rfl
  have found : (findResult s).trunc = false := by
    rcases findResult_cases s with ⟨_, _, e⟩ | ⟨_, e⟩ <;> rw [e] <;> rfl
  cases i with
  | write => simp [effect, FellShort, truncated, -BitVec.toNat_ofNat, toNat_ofNat_of_le (writeCount_le s)]
  | read => simp [effect, FellShort, truncated, -BitVec.toNat_ofNat, toNat_ofNat_of_le (readCount_le s)]
  | peek => simp [effect, FellShort, truncated, -BitVec.toNat_ofNat, toNat_ofNat_of_le (peekCount_le s)]
  | peekOffset => simp [effect, FellShort, truncated, -BitVec.toNat_ofNat, toNat_ofNat_of_le (peekOffsetCount_le s)]
  | discard => simp [effect, FellShort, truncated, -BitVec.toNat_ofNat, toNat_ofNat_of_le (discardCount_le s)]
  | peekBlock =>
    simp [effect, FellShort, truncated, -BitVec.toNat_ofNat,
      toNat_ofNat_of_le (Nat.min_le_right (declaredLength s) s.arg1.toNat)]
  | find => simp [effect, FellShort, found]
  | countBlocks => simp [effect, FellShort, counted]
  | countFrames => simp [effect, FellShort, counted]
  | _ => simp [effect, FellShort]

theorem exec_trunc_iff {i : Instr} {s t : State} (h : exec i s = .next t) :
    t.trunc = true ↔ t.code = .ok ∧ FellShort i s t.result.toNat := by
  rcases exec_next h with ⟨c, hf, _, rfl⟩ | ⟨_, _, _, _, _, rfl⟩
  · simp [fail, (ne_of_mem_failCodes hf).1]
  · exact effect_trunc_iff i s

end Sys2Proof.Machine
end

section
/-! Every command keeps the machine invariant (10_state.md R27), and touches only bytes of its own regions
(20_memory.md R50, R53). -/

namespace Sys2Proof.Machine

open Sys2Proof.Safety

/-! ## The moves keep the ring and the form of host memory -/

/-- What a move must leave behind: a ring that keeps R27, and host memory in its canonical form. -/
abbrev RingAndMemory (s : State) : Prop := RingInv s ∧ s.mem.wf

theorem append_ringAndMemory {s : State} (h : RingAndMemory s) {b : List Byte} (hb : b.length ≤ space s) :
    RingAndMemory (append s b) := by
  obtain ⟨hring, hmem, -⟩ := append_spec h.1 h.2 hb
  exact ⟨hring, hmem⟩

theorem remove_ringAndMemory {s : State} (h : RingAndMemory s) {m : Nat} (hm : m ≤ s.length.toNat) :
    RingAndMemory (remove s m) :=
  ⟨(remove_spec h.1 hm).1, h.2⟩

theorem copyOut_ringAndMemory {s u : State} (h : RingAndMemory u) {off m dst : Nat} (hd : dst + m ≤ addressSpace) :
    RingAndMemory (copyOut s u off m dst) :=
  ⟨h.1, (copyOut_spec h.2 hd).1⟩

theorem emptyRing_ringAndMemory {s : State} (h : RingAndMemory s) : RingAndMemory (emptyRing s) := by
  obtain ⟨⟨hbase, hend, -, hwr, -⟩, hmem⟩ := h
  have hcap : 0 < s.capacity.toNat := Nat.zero_lt_of_lt hwr
  exact ⟨⟨hbase, hend, Nat.zero_le _, hcap, hcap, (Nat.zero_mod _).symm⟩, hmem⟩

/-- A storage region that passes RegionOK, with a capacity above 0, binds an empty ring that keeps R27 (R110). -/
theorem bindRing_ringAndMemory {s : State} {b c : Word} (hm : s.mem.wf) (href : ReferenceOK b c) (hc : c ≠ 0) :
    RingAndMemory (bindRing s b c) := by
  have hcap : 0 < c.toNat := Nat.pos_of_ne_zero fun h => hc (BitVec.eq_of_toNat_eq h)
  have hbase : b.toNat ≠ 0 := fun h => href.1 (BitVec.eq_of_toNat_eq h)
  exact ⟨⟨hbase, href.2, Nat.zero_le _, hcap, hcap, (Nat.zero_mod _).symm⟩, hm⟩

theorem withPrefix_ringAndMemory {s : State} (h : RingAndMemory s) {v : Nat} (hv : prefixBytes s ≤ space s) :
    RingAndMemory (withPrefix s v) :=
  append_ringAndMemory h (by rwa [prefixEnc_length])

theorem withHeader_ringAndMemory {s : State} (h : RingAndMemory s)
    (hv : prefixBytes s + s.arg1.toNat ≤ space s) : RingAndMemory (withHeader s) :=
  append_ringAndMemory (withPrefix_ringAndMemory h (by omega))
    (by rw [hostBytes_length, space_withPrefix hv]; omega)

/-- The bytes of a reference that passes RegionOK lie in the address space (R57). -/
theorem reference_end {a c : Word} (h : regionOK (reference a c) = true) : a.toNat + c.toNat ≤ addressSpace :=
  (regionOK_reference.mp h).2

theorem copyFrame_ringAndMemory {s : State} (h : RingAndMemory s) {len : Nat}
    (hr : ∀ r ∈ [reference s.arg0 s.arg1, reference s.arg2 s.arg3], regionOK r = true)
    (hlen : len ≤ s.arg1.toNat + s.arg3.toNat) : RingAndMemory (copyFrame s len) := by
  have hend0 := reference_end (hr (reference s.arg0 s.arg1) (by simp))
  have hend2 := reference_end (hr (reference s.arg2 s.arg3) (by simp))
  exact copyOut_ringAndMemory (copyOut_ringAndMemory h hend0) (by omega)

/-- A present block lies in the live region (R141). -/
theorem prefix_add_declaredLength_le {s : State} (h : BlockPresent s) :
    prefixBytes s + declaredLength s ≤ s.length.toNat := by
  obtain ⟨hp, hl⟩ := h; omega

theorem peekOffsetCount_end {s : State} {n : Nat} (h : n + s.arg2.toNat ≤ addressSpace) :
    n + peekOffsetCount s ≤ addressSpace :=
  le_trans (Nat.add_le_add_left (peekOffsetCount_le s) n) h

/-- The move of every command whose references and checks have passed. -/
theorem moved_ringAndMemory {i : Instr} {s : State} (hring : i ≠ .init → RingInv s) (hm : s.mem.wf)
    (hr : ∀ r ∈ referenceOperands i s, regionOK r = true) (hp : checksPass i s) : RingAndMemory (moved i s) := by
  have ready : i ≠ .init → RingAndMemory s := fun hi => ⟨hring hi, hm⟩
  cases i with
  | init => exact bindRing_ringAndMemory hm (regionOK_reference.mp (hr _ (List.mem_singleton_self _))) hp
  | clear => exact emptyRing_ringAndMemory (ready nofun)
  | write => exact append_ringAndMemory (ready nofun) (by rw [hostBytes_length]; exact Nat.min_le_right _ _)
  | writeAll => exact append_ringAndMemory (ready nofun) (by rw [hostBytes_length]; exact hp)
  | read =>
    have hend := reference_end (hr _ (List.mem_singleton_self _))
    have hcount := readCount_le s
    exact remove_ringAndMemory (copyOut_ringAndMemory (ready nofun) (by omega)) (Nat.min_le_right _ _)
  | peek =>
    have hend := reference_end (hr _ (List.mem_singleton_self _))
    have hcount := peekCount_le s
    exact copyOut_ringAndMemory (ready nofun) (by omega)
  | peekOffset =>
    exact copyOut_ringAndMemory (ready nofun) (peekOffsetCount_end (reference_end (hr _ (List.mem_singleton_self _))))
  | discard => exact remove_ringAndMemory (ready nofun) (Nat.min_le_right _ _)
  | writeBlock =>
    have hfit : prefixBytes s + s.arg1.toNat ≤ space s := hp
    exact append_ringAndMemory (withPrefix_ringAndMemory (ready nofun) (by omega))
      (by rw [hostBytes_length, space_withPrefix hfit]; omega)
  | readBlock =>
    obtain ⟨hblock, hcap⟩ := hp
    have hend := reference_end (hr _ (List.mem_singleton_self _))
    exact remove_ringAndMemory (copyOut_ringAndMemory (ready nofun) (by omega)) (prefix_add_declaredLength_le hblock)
  | peekBlock =>
    have hend := reference_end (hr _ (List.mem_singleton_self _))
    exact copyOut_ringAndMemory (ready nofun) (by omega)
  | discardBlock => exact remove_ringAndMemory (ready nofun) (prefix_add_declaredLength_le hp)
  | writeFrame =>
    have hfit : prefixBytes s + s.arg1.toNat + s.arg3.toNat ≤ space s := hp
    exact append_ringAndMemory (withHeader_ringAndMemory (ready nofun) (by omega))
      (by rw [hostBytes_length, space_withHeader hfit]; omega)
  | peekFrame =>
    obtain ⟨-, -, hcap⟩ := hp
    exact copyFrame_ringAndMemory (ready nofun) hr hcap
  | readFrame =>
    obtain ⟨hblock, -, hcap⟩ := hp
    exact remove_ringAndMemory (copyFrame_ringAndMemory (ready nofun) hr hcap) (prefix_add_declaredLength_le hblock)
  | _ => exact ready nofun

theorem moved_bound {i : Instr} {s : State} (hb : i ≠ .init → s.bound = true) : (moved i s).bound = true := by
  by_cases hi : i = .init
  · subst hi; rfl
  · exact (moved_binding hi s).2.2.1.trans (hb hi)

/-- A failing completion leaves the ring and host memory alone. -/
theorem fail_machineInv {s : State} (hs : MachineInv s) {c : StatusCode} (hn : c ≠ .notFound)
    (hp : c ≠ .partialWrite) : MachineInv (fail s c) := by
  obtain ⟨hbound, hunbound, -, hmem⟩ := hs
  exact ⟨hbound, hunbound, statusInv_fail hn hp, hmem⟩

theorem exec_machineInv {i : Instr} {s t : State} (hs : MachineInv s) (h : exec i s = .next t) : MachineInv t := by
  have hstatus := exec_statusInv h
  obtain ⟨hbound, -, -, hmem⟩ := id hs
  rcases exec_next h with ⟨c, hf, _, rfl⟩ | ⟨hb, hr, hp, _, _, rfl⟩
  · obtain ⟨-, hn, hpw⟩ := ne_of_mem_failCodes hf
    exact fail_machineInv hs hn hpw
  · have hmoved := moved_ringAndMemory (fun hi => hbound (hb hi)) hmem hr hp
    have hunbound : (moved i s).bound ≠ false := by simp [moved_bound hb]
    rw [effect_eq_finish] at hstatus ⊢
    exact ⟨fun _ => hmoved.1, fun h => absurd h hunbound, hstatus, hmoved.2⟩

/-! ## The bytes a command touches lie in its regions (R50, R53) -/

/-- The byte is one of the storage region or of an operand buffer. -/
def InRegions (i : Instr) (s : State) (a : Nat) : Prop :=
  ∃ r ∈ storageRegion s :: (sourceRegions i s ++ destinationRegions i s), r.base ≤ a ∧ a < r.base + r.size

theorem inRegions_of_storage {i : Instr} {s : State} {a : Nat}
    (h : s.storageBase.toNat ≤ a ∧ a < s.storageBase.toNat + s.capacity.toNat) : InRegions i s a :=
  ⟨storageRegion s, List.mem_cons_self, h⟩

theorem bufferBytes_inRegions {i : Instr} {s : State} {a c : Word} {n : Nat}
    (hr : reference a c ∈ sourceRegions i s ++ destinationRegions i s) (hn : n ≤ c.toNat) :
    ∀ x ∈ bufferBytes a.toNat n, InRegions i s x := by
  intro x hx
  obtain ⟨j, hj, rfl⟩ := List.mem_map.mp hx
  have hj' := List.mem_range.mp hj
  refine ⟨reference a c, List.mem_cons_of_mem _ hr, ?_, ?_⟩ <;> simp only [reference] <;> omega

theorem liveBytes_inRegions {i : Instr} {s : State} (hring : RingInv s) {off n : Nat}
    (h : n = 0 ∨ off + n ≤ s.length.toNat) : ∀ x ∈ liveBytes s off n, InRegions i s x := by
  intro x hx
  obtain ⟨j, hj, rfl⟩ := List.mem_map.mp hx
  have hj' := List.mem_range.mp hj
  have hlen := hring.2.2.1
  exact inRegions_of_storage (liveAddr_bounds hring (by omega))

theorem freeBytes_inRegions {i : Instr} {s : State} (hring : RingInv s) {n : Nat} (h : n ≤ space s) :
    ∀ x ∈ freeBytes s n, InRegions i s x := by
  intro x hx
  obtain ⟨j, hj, rfl⟩ := List.mem_map.mp hx
  have hj' := List.mem_range.mp hj
  have hcap := space_le_capacity (s := s)
  exact inRegions_of_storage (freeAddr_bounds hring (by omega))

theorem headBytes_inRegions {i : Instr} {s : State} (hring : RingInv s) (off : Nat) :
    ∀ x ∈ headBytes s off, InRegions i s x := by
  have hpos := prefixBytes_pos s
  unfold headBytes
  split
  · simp
  · exact liveBytes_inRegions hring (by omega)

theorem walkBytesFrom_inRegions {i : Instr} {s : State} (hring : RingInv s) (fuel : Nat) :
    ∀ off, ∀ x ∈ walkBytesFrom s fuel off, InRegions i s x := by
  induction fuel with
  | zero => simp [walkBytesFrom]
  | succ fuel ih =>
    intro off
    unfold walkBytesFrom
    split
    · split
      · exact headBytes_inRegions hring off
      · exact List.forall_mem_append.mpr ⟨headBytes_inRegions hring off, ih _⟩
    · simp

theorem findFrom_le {s : State} {p : List Byte} {left k j : Nat} (h : findFrom s p left k = some j) :
    j ≤ k + left := by
  induction left generalizing k with
  | zero =>
    simp only [findFrom] at h
    split at h
    · cases h; exact Nat.le_add_right _ _
    · cases h
  | succ left ih =>
    simp only [findFrom] at h
    split at h
    · cases h; exact Nat.le_add_right _ _
    · have := ih h; omega

/-- FIND reads no byte behind the live region. -/
theorem findSpan_le {s : State} (hoff : s.arg0.toNat ≤ s.length.toNat)
    (hlen : s.arg2.toNat ≤ s.length.toNat - s.arg0.toNat) : s.arg0.toNat + findSpan s ≤ s.length.toNat := by
  rcases findResult_cases s with ⟨k, hk, -⟩ | ⟨hk, -⟩
  · have hle := findFrom_le hk
    rw [findPattern, hostBytes_length] at hle
    simp only [findSpan, hk]
    omega
  · simp only [findSpan, hk]
    omega

/-- The bytes of a frame copy: the live frame, and as much of both buffers as it fills. -/
theorem frameBytes_inRegions {i : Instr} {s : State} (hring : RingInv s)
    (hp : BlockPresent s ∧ s.arg1.toNat ≤ declaredLength s ∧ declaredLength s ≤ s.arg1.toNat + s.arg3.toNat)
    (hi : i = .peekFrame ∨ i = .readFrame) : ∀ a ∈ frameBytes s (declaredLength s), InRegions i s a := by
  obtain ⟨hblock, -, hcap⟩ := hp
  have hdst : sourceRegions i s ++ destinationRegions i s =
      [reference s.arg0 s.arg1, reference s.arg2 s.arg3] := by
    rcases hi with rfl | rfl <;> rfl
  simp only [frameBytes, List.forall_mem_append]
  exact ⟨⟨⟨headBytes_inRegions hring 0, liveBytes_inRegions hring (.inr (prefix_add_declaredLength_le hblock))⟩,
    bufferBytes_inRegions (by simp [hdst]) le_rfl⟩, bufferBytes_inRegions (c := s.arg3) (by simp [hdst]) (by omega)⟩

theorem touched_inRegions {i : Instr} {s : State} (hring : RingInv s) (hm : s.mem.wf) (hp : checksPass i s) :
    ∀ a ∈ touched i s, InRegions i s a := by
  have hpos := prefixBytes_pos s
  cases i with
  | init => exact List.forall_mem_nil _
  | clear => exact List.forall_mem_nil _
  | length => exact List.forall_mem_nil _
  | space => exact List.forall_mem_nil _
  | discard => exact List.forall_mem_nil _
  | write =>
    exact List.forall_mem_append.mpr ⟨bufferBytes_inRegions (List.mem_singleton_self _) (writeCount_le s),
      freeBytes_inRegions hring (Nat.min_le_right _ _)⟩
  | writeAll =>
    exact List.forall_mem_append.mpr ⟨bufferBytes_inRegions (List.mem_singleton_self _) le_rfl,
      freeBytes_inRegions hring hp⟩
  | read =>
    have hcount : 0 + readCount s ≤ s.length.toNat := by rw [Nat.zero_add]; exact Nat.min_le_right _ _
    exact List.forall_mem_append.mpr ⟨liveBytes_inRegions hring (.inr hcount),
      bufferBytes_inRegions (List.mem_singleton_self _) (readCount_le s)⟩
  | peek =>
    have hcount : 0 + peekCount s ≤ s.length.toNat := by rw [Nat.zero_add]; exact Nat.min_le_right _ _
    exact List.forall_mem_append.mpr ⟨liveBytes_inRegions hring (.inr hcount),
      bufferBytes_inRegions (List.mem_singleton_self _) (peekCount_le s)⟩
  | peekOffset =>
    have hcount := peekOffsetCount_eq s
    exact List.forall_mem_append.mpr ⟨liveBytes_inRegions hring (by omega),
      bufferBytes_inRegions (List.mem_singleton_self _) (peekOffsetCount_le s)⟩
  | find =>
    obtain ⟨-, hoff, hlen⟩ := hp
    exact List.forall_mem_append.mpr ⟨bufferBytes_inRegions (List.mem_singleton_self _) le_rfl,
      liveBytes_inRegions hring (.inr (findSpan_le hoff.le hlen))⟩
  | writeBlock =>
    have hfit : prefixBytes s + s.arg1.toNat ≤ space s := hp
    have hprefix : RingAndMemory (withPrefix s s.arg1.toNat) := withPrefix_ringAndMemory ⟨hring, hm⟩ (by omega)
    have hrest : ∀ x ∈ freeBytes (withPrefix s s.arg1.toNat) s.arg1.toNat, InRegions .writeBlock s x :=
      freeBytes_inRegions (i := .writeBlock) hprefix.1 (by rw [space_withPrefix hfit]; omega)
    exact List.forall_mem_append.mpr ⟨List.forall_mem_append.mpr
      ⟨freeBytes_inRegions hring (by omega), bufferBytes_inRegions (List.mem_singleton_self _) le_rfl⟩, hrest⟩
  | peekBlockLength => exact headBytes_inRegions hring 0
  | discardBlock => exact headBytes_inRegions hring 0
  | readBlock =>
    obtain ⟨hblock, hcap⟩ := hp
    exact List.forall_mem_append.mpr ⟨List.forall_mem_append.mpr ⟨headBytes_inRegions hring 0,
      liveBytes_inRegions hring (.inr (prefix_add_declaredLength_le hblock))⟩,
      bufferBytes_inRegions (List.mem_singleton_self _) hcap⟩
  | peekBlock =>
    have hlen := prefix_add_declaredLength_le hp
    exact List.forall_mem_append.mpr ⟨List.forall_mem_append.mpr ⟨headBytes_inRegions hring 0,
      liveBytes_inRegions hring (by omega)⟩, bufferBytes_inRegions (List.mem_singleton_self _) (Nat.min_le_right _ _)⟩
  | countBlocks => exact walkBytesFrom_inRegions hring _ 0
  | countFrames => exact walkBytesFrom_inRegions hring _ 0
  | writeFrame =>
    have hfit : prefixBytes s + s.arg1.toNat + s.arg3.toNat ≤ space s := hp
    have hprefix : RingAndMemory (withPrefix s (s.arg1.toNat + s.arg3.toNat)) :=
      withPrefix_ringAndMemory ⟨hring, hm⟩ (by omega)
    have hheader : RingAndMemory (withHeader s) := withHeader_ringAndMemory ⟨hring, hm⟩ (by omega)
    have hsecond : ∀ x ∈ freeBytes (withPrefix s (s.arg1.toNat + s.arg3.toNat)) s.arg1.toNat,
        InRegions .writeFrame s x :=
      freeBytes_inRegions (i := .writeFrame) hprefix.1
        (by rw [space_withPrefix (n := s.arg1.toNat + s.arg3.toNat) (by omega)]; omega)
    have hthird : ∀ x ∈ freeBytes (withHeader s) s.arg3.toNat, InRegions .writeFrame s x :=
      freeBytes_inRegions (i := .writeFrame) hheader.1 (by rw [space_withHeader hfit]; omega)
    simp only [touched, List.forall_mem_append]
    exact ⟨⟨⟨⟨freeBytes_inRegions hring (by omega),
      bufferBytes_inRegions (by simp [sourceRegions]) le_rfl⟩, hsecond⟩,
      bufferBytes_inRegions (by simp [sourceRegions]) le_rfl⟩, hthird⟩
  | peekFrame => exact frameBytes_inRegions hring hp (.inl rfl)
  | readFrame => exact frameBytes_inRegions hring hp (.inr rfl)

/-- A stuck command lacks a byte of the storage region or of an operand buffer. -/
theorem exec_fault_inRegions {i : Instr} {s : State} {f : Fault} (hs : MachineInv s) (h : exec i s = .fault f) :
    ∃ a, InRegions i s a ∧ byteBacked s.cfg a = false := by
  obtain ⟨hring, -, -, hmem⟩ := hs
  obtain ⟨-, hb, -, hmissing⟩ := exec_fault h
  have lacks : ∀ {l : List Nat}, (∀ a ∈ l, InRegions i s a) → admitsAll s l = false →
      ∃ a, InRegions i s a ∧ byteBacked s.cfg a = false := fun hl ha => by
    rw [← Bool.not_eq_true, admitsAll_iff] at ha
    push Not at ha
    obtain ⟨a, hal, hna⟩ := ha
    exact ⟨a, hl a hal, Bool.eq_false_iff.mpr hna⟩
  rcases hmissing with ⟨hp, ha⟩ | ⟨-, ha⟩
  · exact lacks (touched_inRegions (hring hb) hmem hp) ha
  · exact lacks (headBytes_inRegions (hring hb) 0) ha

end Sys2Proof.Machine
end

section
/-! Said once, what a step can do (10_state.md R20, 70_reset_and_hazards.md R210); what every step keeps, and that every
run ends or is stopped (R213). -/

namespace Sys2Proof.Machine

open Sys2Proof.Safety

/-! ## The engine's move -/

theorem decode_eq_some_iff {w : Word} {i : Instr} : decode w = some i ↔ decodeWord w = .ok i := by
  unfold decode
  cases decodeWord w <;> simp

theorem decode_eq_none_iff {w : Word} : decode w = none ↔ ∃ e, decodeWord w = .error e := by
  unfold decode
  cases decodeWord w <;> simp

theorem engineMove_of_decode {s : State} {i : Instr} (h : decode s.cmd = some i) : engineMove s = exec i s := by
  rw [engineMove, decode_eq_some_iff.mp h]

theorem engineMove_of_illegal {s : State} (h : decode s.cmd = none) :
    engineMove s = .next (fail s .illegalCommand) := by
  obtain ⟨e, he⟩ := decode_eq_none_iff.mp h
  rw [engineMove, he]

theorem engineMove_next {s t : State} (h : engineMove s = .next t) :
    (decode s.cmd = none ∧ t = fail s .illegalCommand) ∨ ∃ i, decode s.cmd = some i ∧ exec i s = .next t := by
  cases hd : decode s.cmd with
  | none =>
    rw [engineMove_of_illegal hd] at h
    cases h
    exact .inl ⟨rfl, rfl⟩
  | some i => exact .inr ⟨i, rfl, (engineMove_of_decode hd).symm.trans h⟩

theorem step_of_engineNext {s : State} (h : EngineNext s) : step s = engineMove s := by
  obtain ⟨hb, hi⟩ := h
  cases hin : s.inputs with
  | nil => simp [step, nextMove, engineTurn, hin, hb]
  | cons m rest =>
    have hm : m = .pollIdle := by simpa [hin] using hi
    subst hm
    simp [step, nextMove, engineTurn, hin, hb]

theorem engineMove_busy {s t : State} (h : engineMove s = .next t) : t.busy = false := by
  rcases engineMove_next h with ⟨_, rfl⟩ | ⟨i, _, he⟩
  · rfl
  · exact exec_busy he

theorem engineMove_operandsKept {s t : State} (h : engineMove s = .next t) : OperandsKept s t := by
  rcases engineMove_next h with ⟨_, rfl⟩ | ⟨i, _, he⟩
  · exact ⟨rfl, rfl, rfl, rfl, rfl, rfl, rfl, rfl, rfl⟩
  · exact exec_operandsKept he

theorem engineMove_machineInv {s t : State} (hs : MachineInv s) (h : engineMove s = .next t) : MachineInv t := by
  rcases engineMove_next h with ⟨_, rfl⟩ | ⟨i, _, he⟩
  · exact fail_machineInv hs nofun nofun
  · exact exec_machineInv hs he

/-! ## The host's moves -/

/-- A write of the window changes the ARG register that stands at the offset, and nothing at another one (R39). -/
theorem writeRegister_eq (s : State) (off : Nat) (v : Word) :
    writeRegister s off v =
      { s with
        arg0 := if off = 0x0C then v else s.arg0
        arg1 := if off = 0x10 then v else s.arg1
        arg2 := if off = 0x14 then v else s.arg2
        arg3 := if off = 0x18 then v else s.arg3 } := by
  unfold writeRegister
  split <;> simp_all

theorem windowAccess_next {s t : State} {addr : Word} {width : AccessWidth} {body : Nat → Answer}
    (h : windowAccess s addr width body = .next t) : ∃ off, body off = .next t := by
  unfold windowAccess at h
  split at h
  · cases h
  · split at h
    · exact ⟨_, h⟩
    · cases h

theorem hostByteAccess_next {s t : State} {addr : Word} {body : Answer} (h : hostByteAccess s addr body = .next t) :
    body = .next t := by
  unfold hostByteAccess at h
  split_ifs at h
  exact h

/-- The host's write of the window issues a command or writes operand registers. -/
theorem hostWriteReg_next {s t : State} {addr v : Word} {width : AccessWidth}
    (h : hostWriteReg s addr width v = .next t) :
    t = { s with cmd := v, busy := true } ∨ ∃ off, t = writeRegister s off v := by
  obtain ⟨off, h⟩ := windowAccess_next h
  simp only [issue] at h
  split_ifs at h
  · cases h; exact .inl rfl
  · cases h; exact .inr ⟨off, rfl⟩

theorem hostReadReg_next {s t : State} {addr : Word} {width : AccessWidth} (h : hostReadReg s addr width = .next t) :
    ∃ data draws, t = { s with readData := data, draws := draws } := by
  obtain ⟨off, h⟩ := windowAccess_next h
  split_ifs at h <;> cases h
  · exact ⟨_, _, rfl⟩
  · exact ⟨_, s.draws, rfl⟩

theorem hostWriteMem_next {s t : State} {addr : Word} {v : Byte} (h : hostWriteMem s addr v = .next t) :
    t = { s with mem := s.mem.write addr.toNat v } := by
  have h := hostByteAccess_next h
  split_ifs at h
  cases h; rfl

theorem hostReadMem_next {s t : State} {addr : Word} (h : hostReadMem s addr = .next t) :
    t = { s with readData := (s.mem.read addr.toNat).setWidth 32 } := by
  cases hostByteAccess_next h; rfl

theorem hostRelease_next {s t : State} (h : hostRelease s = .next t) : t = { s with released := s.bound } := by
  unfold hostRelease at h
  split_ifs at h
  cases h; rfl

/-- Reset leaves every register at its reset value, and host memory as it was or mixed with what the abandoned command
would have written (R200, R201). -/
theorem resetMove_next {s t : State} (h : resetMove s = .next t) :
    ∃ mem draws, t = { resetRegisters s with mem := mem, draws := draws } ∧
      (mem = s.mem ∨ ∃ landed u, engineMove s = .next u ∧ mem = s.mem.mix landed u.mem) := by
  have kept : t = resetRegisters s → ∃ mem draws, t = { resetRegisters s with mem := mem, draws := draws } ∧
      (mem = s.mem ∨ ∃ landed u, engineMove s = .next u ∧ mem = s.mem.mix landed u.mem) :=
    fun e => ⟨s.mem, s.draws, e, .inl rfl⟩
  unfold resetMove at h
  split at h
  · split at h
    · next u hu => cases h; exact ⟨_, _, rfl, .inr ⟨_, u, hu, rfl⟩⟩
    · cases h; exact kept rfl
    · cases h
  · cases h; exact kept rfl

/-! ## All that a step can answer with a next state -/

/-- The next states of a step: the idle machine's, the engine's, and those of the move `m` that was due. -/
inductive StepNext (s : State) : State → Prop where
  | idle (hi : s.inputs = []) (hb : s.busy = false) : StepNext s s
  | engine {t : State} (hb : s.busy = true) (h : engineMove s = .next t) : StepNext s t
  | observed {m : Input} {rest : List Input} (hi : s.inputs = m :: rest) (data : Word) (draws : Nat) :
      StepNext s { s with inputs := rest, readData := data, draws := draws }
  | issued {m : Input} {rest : List Input} (hi : s.inputs = m :: rest) (w : Word) :
      StepNext s { s with inputs := rest, cmd := w, busy := true }
  | argWritten {m : Input} {rest : List Input} (hi : s.inputs = m :: rest) (off : Nat) (v : Word) :
      StepNext s (writeRegister { s with inputs := rest } off v)
  | byteWritten {m : Input} {rest : List Input} (hi : s.inputs = m :: rest) (addr : Word) (v : Byte) :
      StepNext s { s with inputs := rest, mem := s.mem.write addr.toNat v }
  | released {m : Input} {rest : List Input} (hi : s.inputs = m :: rest) :
      StepNext s { s with inputs := rest, released := s.bound }
  | reset {m : Input} {rest : List Input} (hi : s.inputs = m :: rest) (mem : Memory) (draws : Nat)
      (hm : mem = s.mem ∨ ∃ landed u, engineMove { s with inputs := rest } = .next u ∧ mem = s.mem.mix landed u.mem) :
      StepNext s { resetRegisters { s with inputs := rest } with mem := mem, draws := draws }

theorem step_next {s t : State} (h : step s = .next t) : StepNext s t := by
  unfold step nextMove at h
  cases hi : s.inputs with
  | nil =>
    simp only [hi, engineTurn] at h
    split at h
    · next hb => exact .engine hb h
    · next hb => cases h; exact .idle hi (Bool.eq_false_iff.mpr hb)
  | cons m rest =>
    cases m with
    | writeReg addr width v =>
      simp only [hi] at h
      rcases hostWriteReg_next h with rfl | ⟨off, rfl⟩
      · exact .issued hi v
      · exact .argWritten hi off v
    | readReg addr width =>
      simp only [hi] at h
      obtain ⟨data, draws, rfl⟩ := hostReadReg_next h
      exact .observed hi data draws
    | writeMem addr v =>
      simp only [hi] at h
      rw [hostWriteMem_next h]
      exact .byteWritten hi addr v
    | readMem addr =>
      simp only [hi] at h
      rw [hostReadMem_next h]
      exact .observed hi _ s.draws
    | pollIdle =>
      simp only [hi, engineTurn] at h
      split at h
      · next hb => exact .engine hb h
      · cases h; exact .observed hi _ s.draws
    | release =>
      simp only [hi] at h
      rw [hostRelease_next h]
      exact .released hi
    | reset =>
      simp only [hi] at h
      obtain ⟨mem, draws, rfl, hm⟩ := resetMove_next h
      exact .reset hi mem draws hm

/-! ## What every step keeps -/

theorem step_cfg {s t : State} (h : step s = .next t) : t.cfg = s.cfg := by
  cases step_next h with
  | engine hb h => exact (engineMove_operandsKept h).cfg
  | argWritten hi off v => rw [writeRegister_eq]
  | _ => rfl

theorem reset_machineInv : MachineInv State.reset := by decide

/-- After reset nothing is bound, and the invariant asks for host memory's form alone. -/
theorem resetRegisters_machineInv {s : State} {mem : Memory} (hm : mem.wf) (draws : Nat) :
    MachineInv { resetRegisters s with mem := mem, draws := draws } := by
  obtain ⟨hbound, hunbound, hstatus, -⟩ := reset_machineInv
  exact ⟨hbound, hunbound, hstatus, hm⟩

theorem step_machineInv {s t : State} (hs : MachineInv s) (h : step s = .next t) : MachineInv t := by
  obtain ⟨hbound, hunbound, hstatus, hmem⟩ := id hs
  cases step_next h with
  | idle hi hb => exact hs
  | engine hb h => exact engineMove_machineInv hs h
  | observed hi data draws => exact hs
  | issued hi w => exact hs
  | argWritten hi off v => rw [writeRegister_eq]; exact hs
  | byteWritten hi addr v => exact ⟨hbound, hunbound, hstatus, write_wf hmem addr.isLt v⟩
  | released hi =>
    refine ⟨hbound, fun hb => ?_, hstatus, hmem⟩
    obtain ⟨h1, h2, h3, h4, h5, -⟩ := hunbound hb
    exact ⟨h1, h2, h3, h4, h5, hb⟩
  | @reset m rest hi mem draws hm =>
    refine resetRegisters_machineInv ?_ draws
    rcases hm with rfl | ⟨landed, u, hu, rfl⟩
    · exact hmem
    · have hu' : MachineInv u := engineMove_machineInv (s := { s with inputs := rest }) hs hu
      obtain ⟨-, -, -, humem⟩ := hu'
      exact mix_wf hmem humem

/-! ## Every run ends, or is stopped (R213) -/

/-- A step of a run that has not ended brings it nearer to its end: a move is taken off the list, which can at most make
a command pending, or the pending command completes. -/
theorem runBound_step_lt {s t : State} (h : step s = .next t) (he : runEnded s ≠ true) : runBound t < runBound s := by
  have moved : ∀ {m rest}, s.inputs = m :: rest → t.inputs = rest → runBound t < runBound s := fun hi ht => by
    have := Bool.toNat_le t.busy
    simp only [runBound, hi, ht, List.length_cons]
    omega
  cases step_next h with
  | idle hi hb => exact absurd (runEnded_iff.mpr ⟨hi, hb⟩) he
  | engine hb h => simp [runBound, hb, engineMove_busy h, (engineMove_operandsKept h).inputs]
  | observed hi data draws => exact moved hi rfl
  | issued hi w => exact moved hi rfl
  | argWritten hi off v => exact moved hi (by rw [writeRegister_eq])
  | byteWritten hi addr v => exact moved hi rfl
  | released hi => exact moved hi rfl
  | reset hi mem draws hm => exact moved hi rfl

/-- After as many steps as its bound a run has ended, where nothing stopped it. -/
theorem runEnded_of_runSteps {k : Nat} : ∀ {s t : State}, runBound s ≤ k → runSteps k s = .next t →
    runEnded t = true := by
  induction k with
  | zero =>
    intro s t hk h
    cases h
    simp only [runBound] at hk
    refine runEnded_iff.mpr ⟨List.eq_nil_of_length_eq_zero (by omega), ?_⟩
    cases hb : s.busy
    · rfl
    · simp [hb] at hk
  | succ k ih =>
    intro s t hk h
    by_cases he : runEnded s = true
    · rw [runSteps_of_ended he] at h
      cases h
      exact he
    · cases hs : step s with
      | next u =>
        have hlt := runBound_step_lt hs he
        rw [runSteps_succ hs] at h
        exact ih (by omega) h
      | fault f => simp [runSteps, hs] at h
      | refused r => simp [runSteps, hs] at h

/-- A longer run that nothing stopped was not stopped on its way. -/
theorem runSteps_next_of_add {k j : Nat} : ∀ {s t : State}, runSteps (k + j) s = .next t →
    ∃ u, runSteps k s = .next u ∧ runSteps j u = .next t := by
  induction k with
  | zero => intro s t h; exact ⟨s, rfl, by rwa [Nat.zero_add] at h⟩
  | succ k ih =>
    intro s t h
    rw [Nat.succ_add] at h
    cases hs : step s with
    | next v =>
      rw [runSteps_succ hs] at h ⊢
      exact ih h
    | fault f => simp [runSteps, hs] at h
    | refused r => simp [runSteps, hs] at h

/-- However many steps lead to an ended state, the run answers that state. -/
theorem run_of_runSteps {s t : State} {k : Nat} (h : runSteps k s = .next t) (he : runEnded t = true) :
    run s = .next t := by
  have hlong : runSteps (runBound s + k) s = .next t := runSteps_stable h he (Nat.le_add_left _ _)
  obtain ⟨u, hu, hut⟩ := runSteps_next_of_add hlong
  rw [runSteps_of_ended (runEnded_of_runSteps le_rfl hu)] at hut
  cases hut
  exact hu

theorem run_cases (s : State) :
    (∃ t, run s = .next t ∧ runEnded t = true ∧ runFinal s = some (finalState t)) ∨
      (((∃ f, run s = .fault f) ∨ ∃ r, run s = .refused r) ∧ runFinal s = none) := by
  cases h : run s with
  | next t =>
    have he : runEnded t = true := runEnded_of_runSteps le_rfl h
    exact .inl ⟨t, rfl, he, runFinal_of_ended h he le_rfl⟩
  | fault f => exact .inr ⟨.inl ⟨f, rfl⟩, by simp [runFinal, h]⟩
  | refused r => exact .inr ⟨.inr ⟨r, rfl⟩, by simp [runFinal, h]⟩

/-- The engine's turn completes the pending command where memory backs its regions and they keep the contract. -/
theorem engineMove_completes {s : State} (hs : MachineInv s)
    (hready : ∀ i, decode s.cmd = some i →
      (∀ a, InRegions i s a → byteBacked s.cfg a = true) ∧ overlapFree i s = true) :
    ∃ t, engineMove s = .next t := by
  cases hd : decode s.cmd with
  | none => exact ⟨_, engineMove_of_illegal hd⟩
  | some i =>
    obtain ⟨hbacked, hfree⟩ := hready i hd
    rw [engineMove_of_decode hd]
    cases he : exec i s with
    | next t => exact ⟨t, rfl⟩
    | fault f =>
      obtain ⟨a, ha, hn⟩ := exec_fault_inRegions hs he
      simp [hbacked a ha] at hn
    | refused r =>
      obtain ⟨-, -, -, hbroken⟩ := exec_refused he
      simp [hfree] at hbroken

end Sys2Proof.Machine
end

section
/-! The register window as the host sees it (10_state.md R29 to R39). -/

namespace Sys2Proof.Machine

open Sys2Proof.Safety

/-! ## STATUS as a word (R32, R35) -/

theorem toNat_append_eq_add {v w : Nat} (x : BitVec v) (y : BitVec w) :
    (x ++ y).toNat = 2 ^ w * x.toNat + y.toNat := by
  rw [BitVec.toNat_append, Nat.shiftLeft_eq, Nat.mul_comm, Nat.two_pow_add_eq_or_of_lt y.isLt]

theorem statusWord_toNat (s : State) :
    (statusWord s).toNat =
      (codeBits s.code).toNat + 2 ^ 8 * s.trunc.toNat + 2 ^ 30 * s.bound.toNat + 2 ^ 31 * s.busy.toNat := by
  have hzero : (0 : BitVec 21).toNat = 0 := rfl
  simp only [statusWord, toNat_append_eq_add, BitVec.toNat_ofBool, hzero]
  omega

/-- STATUS[31] is BUSY (R36). -/
theorem statusWord_msb (s : State) : (statusWord s).msb = s.busy := by
  have hcode := (codeBits s.code).isLt
  have htrunc := Bool.toNat_le s.trunc
  have hbound := Bool.toNat_le s.bound
  rw [BitVec.msb_eq_decide, statusWord_toNat]
  cases s.busy with
  | true => simp
  | false => simp; omega

/-! ## Accesses of the window -/

theorem windowOffset_of_eq {c : Config} {addr : Word} {off : Nat} (ha : addr.toNat = c.coreBase.toNat + off)
    (hoff : off < 256) : windowOffset c addr = some off := by
  rw [windowOffset, if_pos ⟨by omega, by omega⟩, ha, Nat.add_sub_cancel_left]

/-- An aligned word access in the window reaches the register at its offset (R51, R52). -/
theorem windowAccess_word {s : State} {addr : Word} {off : Nat} (ha : addr.toNat = s.cfg.coreBase.toNat + off)
    (hal : off % 4 = 0) (hoff : off < 256) (body : Nat → Answer) : windowAccess s addr .word body = body off := by
  simp [windowAccess, windowOffset_of_eq ha hoff, hal]

theorem step_writeReg {s : State} {addr v : Word} {rest : List Input} {off : Nat}
    (hin : s.inputs = .writeReg addr .word v :: rest) (hbusy : s.busy = false)
    (ha : addr.toNat = s.cfg.coreBase.toNat + off) (hal : off % 4 = 0) (hoff : off < 256) :
    step s = if off = 0 then issue { s with inputs := rest } v
      else .next (writeRegister { s with inputs := rest } off v) := by
  simp only [step, nextMove, hin, hostWriteReg]
  rw [windowAccess_word (s := { s with inputs := rest }) ha hal hoff]
  simp [hbusy]

/-- The list of outside moves is no register. -/
theorem readRegister_inputs (s : State) (rest : List Input) (off : Nat) :
    readRegister { s with inputs := rest } off = readRegister s off := rfl

theorem step_readReg {s : State} {addr : Word} {rest : List Input} {off : Nat}
    (hin : s.inputs = .readReg addr .word :: rest) (ha : addr.toNat = s.cfg.coreBase.toNat + off) (hal : off % 4 = 0)
    (hoff : off < 256) :
    step s = if s.busy && unspecifiedWhileBusy off then
        .next { s with inputs := rest, readData := Config.freeRead s.draws, draws := s.draws + 1 }
      else .next { s with inputs := rest, readData := readRegister s off } := by
  simp only [step, nextMove, hin, hostReadReg]
  rw [windowAccess_word (s := { s with inputs := rest }) ha hal hoff, readRegister_inputs]

/-- The registers in the order of R29's table, one word each, and 0 behind them (R38). -/
theorem readRegister_eq_getD (s : State) {off : Nat} (hal : off % 4 = 0) :
    readRegister s off =
      [s.cmd, statusWord s, s.result, s.arg0, s.arg1, s.arg2, s.arg3, configWord s, s.storageBase, s.capacity,
        s.length, s.wrIdx, s.rdIdx].getD (off / 4) 0 := by
  unfold readRegister
  split
  case h_14 =>
    rw [List.getD_eq_default]
    by_contra hlt
    have hk : off / 4 < 13 := Nat.lt_of_not_le hlt
    have hoff : off = 4 * (off / 4) := by omega
    interval_cases off / 4 <;> contradiction
  all_goals rfl

theorem configWord_toNat (s : State) : (configWord s).toNat = prefixBytes s := by
  rcases prefixBytes_cases s with h | h <;> rw [configWord, h] <;> rfl

end Sys2Proof.Machine
end

section
/-! The statements about the state, the step and the register window, settled. -/

namespace Sys2Proof.Proofs

open Sys2Proof.Machine Sys2Proof.Safety

/-- Settles O18: the engine's moves keep the invariant by `exec_machineInv`, every other move leaves the ring alone. -/
theorem stepKeepsRingInvariants : Obligations.StepKeepsRingInvariants :=
  fun _ _ hs h => step_machineInv hs h

/-- Settles O9: a stuck command would lack a byte of its regions and a refused one would break the contract; a run ends
because each step lowers `runBound`. -/
theorem pendingCommandsCompleteAndRunsEnd : Obligations.PendingCommandsCompleteAndRunsEnd := by
  refine ⟨fun s hs hn hready => ?_, fun s => ?_, fun s t k h hi hb => run_of_runSteps h (runEnded_iff.mpr ⟨hi, hb⟩)⟩
  · obtain ⟨t, ht⟩ := engineMove_completes hs fun i hd => by
      obtain ⟨hbacked, hstorage, hpair, happend⟩ := hready i hd
      exact ⟨fun a ⟨r, hr, hlo, hhi⟩ => hbacked r hr a hlo hhi, overlapFree_iff.mpr ⟨hstorage, hpair, happend⟩⟩
    exact ⟨t, (step_of_engineNext hn).trans ht, engineMove_busy ht⟩
  · refine (run_cases s).imp_left fun ⟨t, ht, he, hf⟩ => ?_
    obtain ⟨hi, hb⟩ := runEnded_iff.mp he
    exact ⟨t, ht, hi, hb, hf⟩

/-- Settles O10: no move of a command writes these fields. -/
theorem commandsKeepOperandsAndBuild : Obligations.CommandsKeepOperandsAndBuild := by
  intro i s t h
  obtain ⟨h0, h1, h2, h3, hcmd, hcfg, hin, hrd, hdr⟩ := exec_operandsKept h
  exact ⟨h0, h1, h2, h3, hcmd, hcfg, hin, hrd, hdr, exec_busy h⟩

/-- Settles O11: the move of every command but INIT leaves the binding. -/
theorem onlyInitBinds : Obligations.OnlyInitBinds := fun _ _ _ hi h => exec_binding hi h

/-- Settles O13: a failure is FIND's NOT_FOUND, or it completes through `fail`. -/
theorem resultOfFailedCommands : Obligations.ResultOfFailedCommands := by
  intro i s t h hc
  rcases exec_failed h hc with ⟨hi, rfl⟩ | ⟨c, hn, -, rfl⟩
  · exact ⟨fun _ => ⟨hi, rfl⟩, fun hne => absurd rfl hne⟩
  · exact ⟨fun he => absurd he hn, fun _ => rfl⟩

/-- Settles O14: TRUNC compares the moved count, which fits in RESULT, with the count asked for. -/
theorem truncExactly : Obligations.TruncExactly := by
  refine ⟨fun i s t _ h => exec_trunc_iff h, fun s t hd h => ?_⟩
  rw [engineMove_of_illegal hd] at h
  cases h
  rfl

/-- Settles O20: no step writes the build's parameters, and CONFIG is the width they name. -/
theorem stepKeepsBuildParameters : Obligations.StepKeepsBuildParameters := by
  refine ⟨fun s s' h => ?_, fun s => ⟨configWord_toNat s, prefixBytes_cases s⟩⟩
  have hcfg := step_cfg h
  exact ⟨hcfg, by rw [configWord, configWord, prefixBytes, prefixBytes, hcfg]⟩

/-- Settles O52: while BUSY = 0 the read answers the register at its offset, in the order of R29's table. -/
theorem windowReadGivesRegister : Obligations.WindowReadGivesRegister := by
  intro s addr rest off hbusy hin ha hal hoff
  rw [step_readReg hin ha hal hoff, if_neg (by simp [hbusy]), readRegister_eq_getD s hal, configWord]

/-- Settles O4: on the engine's turn the step is the engine's move. -/
theorem stepRunsDecodedCommand : Obligations.StepRunsDecodedCommand :=
  fun _ _ hn hd _ => (step_of_engineNext hn).trans (engineMove_of_decode hd)

/-- Settles O19: reset leaves an unbound ring and empty host memory. -/
theorem resetMeetsRingInvariants : Obligations.ResetMeetsRingInvariants := reset_machineInv

/-- Settles O49: the fields of STATUS do not overlap. -/
theorem statusWordFields : Obligations.StatusWordFields := ⟨statusWord_toNat, rfl⟩

/-- Settles O50: offset 0 of the window is CMD. -/
theorem cmdWriteIssuesCommand : Obligations.CmdWriteIssuesCommand := by
  intro s w rest hbusy hrel hin
  rw [step_writeReg (off := 0) hin hbusy rfl rfl (by decide), if_pos rfl]
  simp [issue, hrel]

/-- Settles O51: every offset but CMD's goes to `writeRegister`. -/
theorem windowWriteSetsOnlyArgs : Obligations.WindowWriteSetsOnlyArgs := by
  intro s addr v rest off hbusy hin ha hal hpos hoff
  refine ⟨_, ?_, rfl⟩
  rw [step_writeReg hin hbusy ha hal hoff, if_neg hpos.ne', writeRegister_eq]

/-- Settles O53: STATUS is the one register whose value R36 gives while BUSY = 1. -/
theorem readsWhileBusy : Obligations.ReadsWhileBusy := by
  intro s addr rest off hbusy hin ha hal hoff
  refine ⟨?_, fun _ => ?_⟩
  · rintro rfl
    refine ⟨?_, (statusWord_msb s).trans hbusy⟩
    rw [step_readReg hin ha hal hoff, if_neg (by simp [unspecifiedWhileBusy])]
    rfl
  · rw [step_readReg hin ha hal hoff]
    split
    · exact ⟨_, rfl, rfl⟩
    · exact ⟨_, rfl, rfl⟩

end Sys2Proof.Proofs
end

section
/-! The gates around a command's body, as statements about `exec`: which commands check references, which ask the
overlap contract, and what a broken one answers (20_memory.md R57, R60). -/

namespace Sys2Proof.Machine

open Sys2Proof.Safety

/-! ## References (R57) -/

/-- Every command with a reference operand checks its references first; the bound gate stands before that check in
every command but INIT (R76). -/
theorem exec_checksReferences {i : Instr} (s : State) (hr : referenceOperands i s ≠ []) :
    ∃ k, exec i s = if i = .init then checkReferences i s k else boundGate s (checkReferences i s k) := by
  cases i with
  | clear | length | space | discard | peekBlockLength | discardBlock | countBlocks | countFrames =>
    exact absurd rfl hr
  | init | write | writeAll | read | peek | peekOffset | find | writeBlock | readBlock | peekBlock | writeFrame
  | peekFrame | readFrame => exact ⟨_, rfl⟩

theorem exec_of_badReference {i : Instr} {s : State} (hb : i ≠ .init → s.bound = true)
    (h : ∃ r ∈ referenceOperands i s, ¬ regionOK r = true) : exec i s = .next (fail s .invalidArgument) := by
  obtain ⟨r, hr, -⟩ := id h
  obtain ⟨k, hk⟩ := exec_checksReferences s (List.ne_nil_of_mem hr)
  rw [hk, checkReferences_of_bad h]
  split
  · rfl
  · next hi => exact boundGate_of_bound (hb hi) _

theorem regionOK_iff {r : Region} : regionOK r = true ↔ r.base ≠ 0 ∧ r.base + r.size ≤ addressSpace := by
  simp [regionOK]

/-! ## The overlap contract (R60) -/

theorem overlapBroken_iff {i : Instr} {s : State} : OverlapBroken i s ↔ overlapFree i s = false := by
  rw [← Bool.not_eq_true, overlapFree_iff]
  simp only [not_and_or, not_forall, exists_prop]

/-- The checks R60's copying commands make before they copy are all of their own checks. -/
theorem checksPass_of_reachesCopy {i : Instr} {s : State} (hd : destinationRegions i s ≠ [])
    (h : ReachesCopy i s) : checksPass i s := by
  obtain ⟨hread, hpeek, hframe⟩ := h
  cases i with
  | read | peek | peekOffset => trivial
  | readBlock => exact hread rfl
  | peekBlock => exact hpeek rfl
  | peekFrame => exact hframe (.inl rfl)
  | readFrame => exact hframe (.inr rfl)
  | _ => exact absurd rfl hd

/-- On a bound ring, with good references, a command answers as its body does. -/
theorem gates_pass {i : Instr} {s : State} (hb : s.bound = true)
    (hr : ∀ r ∈ referenceOperands i s, regionOK r = true) (k : Answer) : boundGate s (checkReferences i s k) = k := by
  rw [boundGate_of_bound hb, checkReferences_of_ok hr]

/-- An appending command asks the overlap contract right after its references (log 8). -/
theorem exec_of_appends {i : Instr} {s : State} (hb : s.bound = true)
    (hr : ∀ r ∈ referenceOperands i s, regionOK r = true) (ha : appends i = true) :
    ∃ k, exec i s = keepContract i s k := by
  have gate := gates_pass hb hr
  cases i with
  | write | writeAll | writeBlock | writeFrame => exact ⟨_, gate _⟩
  | _ => exact absurd ha nofun

/-- A copying command asks the overlap contract once its own checks have passed (log 8). -/
theorem exec_of_copies {i : Instr} {s : State} (hb : s.bound = true)
    (hr : ∀ r ∈ referenceOperands i s, regionOK r = true) (hd : destinationRegions i s ≠ []) (hp : checksPass i s) :
    exec i s = moveData i s (touched i s) (effect i s) := by
  have gate := gates_pass hb hr
  cases i with
  | read | peek | peekOffset => exact gate _
  | readBlock =>
    obtain ⟨hblock, hcap⟩ := hp
    refine (gate _).trans ?_
    rw [head_zero, if_pos hblock]
    exact if_neg (Nat.not_lt.mpr hcap)
  | peekBlock =>
    refine (gate _).trans ?_
    rw [head_zero, if_pos (show BlockPresent s from hp)]
    rfl
  | peekFrame | readFrame =>
    obtain ⟨hblock, hhdr, hcap⟩ := hp
    refine (gate _).trans ?_
    rw [frameCheck_eq, if_pos hblock, if_neg (Nat.not_lt.mpr hhdr), if_neg (Nat.not_lt.mpr hcap)]
    rfl
  | _ => exact absurd rfl hd

/-- Only a command that appends or copies out has regions that can break the contract. -/
theorem appends_or_copies_of_broken {i : Instr} {s : State} (h : OverlapBroken i s) :
    appends i = true ∨ destinationRegions i s ≠ [] := by
  by_contra hn
  push Not at hn
  obtain ⟨happ, hdst⟩ := hn
  rw [overlapBroken_iff, overlapFree_of_readOnly hdst (Bool.eq_false_iff.mpr happ)] at h
  exact absurd h nofun

end Sys2Proof.Machine
end

section
/-! Where a command writes host memory (20_memory.md R50, R105, R202). -/

namespace Sys2Proof.Machine

open Sys2Proof.Safety

theorem append_read_outside {s : State} (h : RingAndMemory s) {b : List Byte} (hb : b.length ≤ space s) {a : Nat}
    (ha : ¬ (s.storageBase.toNat ≤ a ∧ a < s.storageBase.toNat + s.capacity.toNat)) :
    (append s b).mem.read a = s.mem.read a := by
  obtain ⟨-, -, -, -, -, hkept⟩ := append_spec h.1 h.2 hb
  have hcap := space_le_capacity (s := s)
  exact hkept a fun j hj e => ha (e ▸ freeAddr_bounds h.1 (by omega))

theorem copyOut_read_outside {s u : State} (hm : u.mem.wf) {dst count : Word} {off m a : Nat}
    (hr : regionOK (reference dst count) = true) (hle : m ≤ count.toNat)
    (ha : ¬ (dst.toNat ≤ a ∧ a < dst.toNat + count.toNat)) :
    (copyOut s u off m dst.toNat).mem.read a = u.mem.read a := by
  have hend := reference_end hr
  obtain ⟨-, -, hkept⟩ := copyOut_spec (s := s) (off := off) (m := m) (dst := dst.toNat) hm (by omega)
  exact hkept a (by omega)

theorem copyFrame_read_outside {s : State} (hm : s.mem.wf) {len a : Nat}
    (hr : ∀ r ∈ [reference s.arg0 s.arg1, reference s.arg2 s.arg3], regionOK r = true)
    (hlen : len ≤ s.arg1.toNat + s.arg3.toNat)
    (ha : ∀ d ∈ [reference s.arg0 s.arg1, reference s.arg2 s.arg3], ¬ (d.base ≤ a ∧ a < d.base + d.size)) :
    (copyFrame s len).mem.read a = s.mem.read a := by
  have hhdr := hr (reference s.arg0 s.arg1) (by simp)
  have hpay := hr (reference s.arg2 s.arg3) (by simp)
  have hmid : (copyOut s s (prefixBytes s) s.arg1.toNat s.arg0.toNat).mem.wf :=
    (copyOut_spec hm (reference_end hhdr)).1
  calc (copyFrame s len).mem.read a
      = (copyOut s s (prefixBytes s) s.arg1.toNat s.arg0.toNat).mem.read a :=
        copyOut_read_outside hmid hpay (by omega) (ha (reference s.arg2 s.arg3) (by simp))
    _ = s.mem.read a := copyOut_read_outside hm hhdr le_rfl (ha (reference s.arg0 s.arg1) (by simp))

/-- The move of a command writes its destination buffers, and the storage region where it appends. -/
theorem moved_read_outside {i : Instr} {s : State} (hring : i ≠ .init → RingInv s) (hm : s.mem.wf)
    (hr : ∀ r ∈ referenceOperands i s, regionOK r = true) (hp : checksPass i s) {a : Nat}
    (hd : ∀ d ∈ destinationRegions i s, ¬ (d.base ≤ a ∧ a < d.base + d.size))
    (hs : appends i = true → ¬ (s.storageBase.toNat ≤ a ∧ a < s.storageBase.toNat + s.capacity.toNat)) :
    (moved i s).mem.read a = s.mem.read a := by
  have ready : i ≠ .init → RingAndMemory s := fun hi => ⟨hring hi, hm⟩
  cases i with
  | write =>
    exact append_read_outside (ready nofun) (by rw [hostBytes_length]; exact Nat.min_le_right _ _) (hs rfl)
  | writeAll => exact append_read_outside (ready nofun) (by rw [hostBytes_length]; exact hp) (hs rfl)
  | writeBlock =>
    have hfit : prefixBytes s + s.arg1.toNat ≤ space s := hp
    have hprefix := withPrefix_ringAndMemory (ready nofun) (v := s.arg1.toNat) (by omega)
    calc (moved .writeBlock s).mem.read a
        = (withPrefix s s.arg1.toNat).mem.read a :=
          append_read_outside hprefix (by rw [hostBytes_length, space_withPrefix hfit]; omega) (hs rfl)
      _ = s.mem.read a := append_read_outside (ready nofun) (by rw [prefixEnc_length]; omega) (hs rfl)
  | writeFrame =>
    have hfit : prefixBytes s + s.arg1.toNat + s.arg3.toNat ≤ space s := hp
    have hspace := space_withPrefix (s := s) (n := s.arg1.toNat + s.arg3.toNat)
      (v := s.arg1.toNat + s.arg3.toNat) (by omega)
    have hprefix := withPrefix_ringAndMemory (ready nofun) (v := s.arg1.toNat + s.arg3.toNat) (by omega)
    have hheader := withHeader_ringAndMemory (ready nofun) (by omega)
    calc (moved .writeFrame s).mem.read a
        = (withHeader s).mem.read a :=
          append_read_outside hheader (by rw [hostBytes_length, space_withHeader hfit]; omega) (hs rfl)
      _ = (withPrefix s (s.arg1.toNat + s.arg3.toNat)).mem.read a :=
          append_read_outside hprefix (by rw [hostBytes_length, hspace]; omega) (hs rfl)
      _ = s.mem.read a := append_read_outside (ready nofun) (by rw [prefixEnc_length]; omega) (hs rfl)
  | read =>
    exact copyOut_read_outside hm (hr _ (List.mem_singleton_self _)) (readCount_le s)
      (hd _ (List.mem_singleton_self _))
  | peek =>
    exact copyOut_read_outside hm (hr _ (List.mem_singleton_self _)) (peekCount_le s)
      (hd _ (List.mem_singleton_self _))
  | peekOffset =>
    exact copyOut_read_outside hm (hr _ (List.mem_singleton_self _)) (peekOffsetCount_le s)
      (hd _ (List.mem_singleton_self _))
  | readBlock =>
    exact copyOut_read_outside hm (hr _ (List.mem_singleton_self _)) hp.2 (hd _ (List.mem_singleton_self _))
  | peekBlock =>
    exact copyOut_read_outside hm (hr _ (List.mem_singleton_self _)) (Nat.min_le_right _ _)
      (hd _ (List.mem_singleton_self _))
  | peekFrame | readFrame =>
    obtain ⟨-, -, hcap⟩ := hp
    exact copyFrame_read_outside hm hr hcap hd
  | init | clear | length | space | discard | find | peekBlockLength | discardBlock | countBlocks | countFrames => rfl

theorem exec_read_outside {i : Instr} {s t : State} (hs : MachineInv s) (h : exec i s = .next t) {a : Nat}
    (hd : ∀ d ∈ destinationRegions i s, ¬ (d.base ≤ a ∧ a < d.base + d.size))
    (hst : appends i = true → ¬ (s.storageBase.toNat ≤ a ∧ a < s.storageBase.toNat + s.capacity.toNat)) :
    t.mem.read a = s.mem.read a := by
  obtain ⟨hring, -, -, hmem⟩ := hs
  rcases exec_next h with ⟨c, -, -, rfl⟩ | ⟨hb, hr, hp, -, -, rfl⟩
  · rfl
  · rw [effect_eq_finish, finish_mem]
    exact moved_read_outside (fun hi => hring (hb hi)) hmem hr hp hd hst

end Sys2Proof.Machine
end

section
/-! The bytes of `PrefixEnc` (20_memory.md R55). -/

namespace Sys2Proof.Machine

theorem prefixEnc_getElem {n v j : Nat} (h : j < (prefixEnc n v).length) :
    (prefixEnc n v)[j] = BitVec.ofNat 8 (v / 256 ^ j) := by
  induction n generalizing v j with
  | zero => simp [prefixEnc] at h
  | succ n ih =>
    cases j with
    | zero => simp [prefixEnc]
    | succ j =>
      simp only [prefixEnc, List.getElem_cons_succ]
      rw [ih, Nat.div_div_eq_div_mul, ← Nat.pow_succ']

/-- Byte `j` of a number, by shift and mask and by division. -/
theorem ofNat_shiftRight_and (v j : Nat) :
    BitVec.ofNat 8 ((v >>> (8 * j)) &&& 0xFF) = BitVec.ofNat 8 (v / 256 ^ j) := by
  apply BitVec.eq_of_toNat_eq
  rw [Nat.shiftRight_eq_div_pow, Nat.pow_mul, show (0xFF : Nat) = 2 ^ 8 - 1 from rfl, Nat.and_two_pow_sub_one_eq_mod]
  simp

end Sys2Proof.Machine
end

section
/-! The host's moves that R210 makes a model refuse: misshapen window accesses (20_memory.md R52), window writes while
BUSY = 1 (R207), and host bytes that the engine holds (R67, R195, R206). -/

namespace Sys2Proof.Machine

theorem windowAccess_misshapen {s : State} {addr : Word} {width : AccessWidth} {off : Nat}
    (ha : addr.toNat = s.cfg.coreBase.toNat + off) (hoff : off < 256) (h : width ≠ .word ∨ off % 4 ≠ 0)
    (body : Nat → Answer) : windowAccess s addr width body = .refused .windowAccessShape := by
  simp only [windowAccess, windowOffset_of_eq ha hoff]
  exact if_neg (by tauto)

theorem hostWriteReg_busy {s : State} {addr v : Word} {off : Nat} (ha : addr.toNat = s.cfg.coreBase.toNat + off)
    (hal : off % 4 = 0) (hoff : off < 256) (hb : s.busy = true) :
    hostWriteReg s addr .word v = .refused .windowWriteWhileBusy := by
  rw [hostWriteReg, windowAccess_word ha hal hoff, if_pos hb]

theorem regionContains_iff {r : Region} {a : Nat} :
    regionContains r a = true ↔ r.base ≤ a ∧ a < r.base + r.size := by
  simp [regionContains]

theorem busyRegions_idle {s : State} (hb : s.busy = false) : busyRegions s = [] := by
  simp [busyRegions, hb]

/-- What the host may not touch while BUSY = 1: the references of the pending command and a bound ring's storage. -/
theorem mem_busyRegions {s : State} (hb : s.busy = true) {r : Region} :
    r ∈ busyRegions s ↔ (∃ i, decode s.cmd = some i ∧ r ∈ referenceOperands i s) ∨
      (s.bound = true ∧ r = storageRegion s) := by
  rw [busyRegions, if_pos hb, List.mem_append]
  refine or_congr ?_ (by split <;> simp_all)
  unfold decode
  cases decodeWord s.cmd <;> simp

theorem hostByteAccess_held {s : State} {addr : Word} (hw : windowOffset s.cfg addr = none) {r : Region}
    (hr : r ∈ busyRegions s) (ha : r.base ≤ addr.toNat ∧ addr.toNat < r.base + r.size) (body : Answer) :
    hostByteAccess s addr body = .refused .bufferAccessWhileBusy := by
  rw [hostByteAccess, if_neg (by simp [hw]), if_pos (List.any_eq_true.mpr ⟨r, hr, regionContains_iff.mpr ha⟩)]

theorem hostByteAccess_idle {s : State} {addr : Word} (hw : windowOffset s.cfg addr = none) (hb : s.busy = false)
    (hmem : byteBacked s.cfg addr.toNat = true) (body : Answer) : hostByteAccess s addr body = body := by
  simp [hostByteAccess, hw, busyRegions_idle hb, hmem]

theorem hostWriteMem_storage {s : State} {addr : Word} {v : Byte} (hw : windowOffset s.cfg addr = none)
    (hb : s.busy = false) (hbound : s.bound = true) (hmem : byteBacked s.cfg addr.toNat = true)
    (ha : s.storageBase.toNat ≤ addr.toNat ∧ addr.toNat < s.storageBase.toNat + s.capacity.toNat) :
    hostWriteMem s addr v = .refused .storageWriteWhileBound := by
  have hheld : heldStorage s addr.toNat = true := by
    rw [heldStorage, hbound, Bool.true_and]
    exact regionContains_iff.mpr ha
  rw [hostWriteMem, hostByteAccess_idle hw hb hmem, if_pos hheld]

end Sys2Proof.Machine
end

section
/-! The bytes a command asks memory for, and that it is stuck where memory lacks one (20_memory.md R53). -/

namespace Sys2Proof.Machine

open Sys2Proof.Safety

/-! ## The places of a second append (R101, R104) -/

/-- Places counted from an advanced index are places counted from the index itself. -/
theorem phys_adv {c idx m j : Nat} (hi : idx < c) (h : m + j ≤ c) : phys c (adv c idx m) j = phys c idx (m + j) := by
  have hadv : adv c idx m < c := by rw [adv_eq_mod hi (by omega)]; exact Nat.mod_lt _ (by omega)
  rw [phys_eq_mod hadv (by omega), phys_eq_mod hi h, adv_eq_mod hi (by omega), Nat.mod_add_mod, Nat.add_assoc]

theorem append_wrIdx_toNat {s : State} (hw : s.wrIdx.toNat < s.capacity.toNat) {b : List Byte}
    (hb : b.length ≤ s.capacity.toNat) :
    (append s b).wrIdx.toNat = adv s.capacity.toNat s.wrIdx.toNat b.length ∧
      (append s b).wrIdx.toNat < (append s b).capacity.toNat := by
  have hadv : adv s.capacity.toNat s.wrIdx.toNat b.length < s.capacity.toNat := by
    rw [adv_eq_mod hw hb]; exact Nat.mod_lt _ (by omega)
  have heq : (append s b).wrIdx.toNat = adv s.capacity.toNat s.wrIdx.toNat b.length := by
    rw [append_wrIdx, toNat_ofNat_of_le hadv.le]
  exact ⟨heq, heq.trans_lt hadv⟩

/-- The free places after an append follow those it filled. -/
theorem freeAddr_append {s : State} (hw : s.wrIdx.toNat < s.capacity.toNat) {b : List Byte} {j : Nat}
    (h : b.length + j ≤ s.capacity.toNat) : freeAddr (append s b) j = freeAddr s (b.length + j) := by
  obtain ⟨heq, -⟩ := append_wrIdx_toNat hw (b := b) (by omega)
  simp only [freeAddr, storageAddr, heq, append_storageBase, append_capacity, phys_adv hw h]

/-- Two backed runs of places, the second right behind the first, are one. -/
theorem backed_add {s : State} {f g : Nat → Nat} {m n : Nat} (hf : Backed s f m) (hg : Backed s g n)
    (h : ∀ j < n, g j = f (m + j)) : Backed s f (m + n) := by
  intro j hj
  by_cases hlt : j < m
  · exact hf j hlt
  · have hrest := hg (j - m) (by omega)
    rwa [h _ (by omega), show m + (j - m) = j by omega] at hrest

/-- Where memory backs both appends of WRITE_BLOCK, it backs one run of free places. -/
theorem backed_withPrefix {s : State} (hr : RingInv s) {v n : Nat} (hfit : prefixBytes s + n ≤ space s)
    (hprefix : Backed s (freeAddr s) (prefixBytes s)) (hrest : Backed s (freeAddr (withPrefix s v)) n) :
    Backed s (freeAddr s) (prefixBytes s + n) := by
  obtain ⟨-, -, -, hw, -⟩ := hr
  have hcap := space_le_capacity (s := s)
  refine backed_add hprefix hrest fun j hj => ?_
  rw [withPrefix, freeAddr_append hw (by rw [prefixEnc_length]; omega), prefixEnc_length]

theorem freeAddr_withHeader {s : State} (hr : RingInv s) {j : Nat}
    (h : prefixBytes s + s.arg1.toNat + j ≤ s.capacity.toNat) :
    freeAddr (withHeader s) j = freeAddr s (prefixBytes s + s.arg1.toNat + j) := by
  obtain ⟨-, -, -, hw, -⟩ := hr
  have hfirst := (append_wrIdx_toNat hw (b := prefixEnc (prefixBytes s) (s.arg1.toNat + s.arg3.toNat))
    (by rw [prefixEnc_length]; omega)).2
  rw [withHeader, withPrefix, freeAddr_append hfirst, freeAddr_append hw, prefixEnc_length, hostBytes_length,
    Nat.add_assoc]
  · rw [prefixEnc_length, hostBytes_length]; omega
  · rw [hostBytes_length, append_capacity]; omega

/-- Where memory backs the three appends of WRITE_FRAME, it backs one run of free places. -/
theorem backed_withHeader {s : State} (hr : RingInv s)
    (hfit : prefixBytes s + s.arg1.toNat + s.arg3.toNat ≤ space s)
    (hprefix : Backed s (freeAddr s) (prefixBytes s))
    (hheader : Backed s (freeAddr (withPrefix s (s.arg1.toNat + s.arg3.toNat))) s.arg1.toNat)
    (hpayload : Backed s (freeAddr (withHeader s)) s.arg3.toNat) :
    Backed s (freeAddr s) (prefixBytes s + s.arg1.toNat + s.arg3.toNat) := by
  have hcap := space_le_capacity (s := s)
  exact backed_add (backed_withPrefix hr (by omega) hprefix hheader) hpayload fun j hj =>
    freeAddr_withHeader hr (by omega)

/-! ## The search of FIND (R120) -/

/-- The loop of R120 gives the first of its offsets that matches, or none of them does. -/
theorem findFrom_cases (s : State) (p : List Byte) (left k : Nat) :
    (∃ j, findFrom s p left k = some j ∧ k ≤ j ∧ j ≤ k + left ∧ matchesAt s p j = true ∧
        ∀ i, k ≤ i → i < j → matchesAt s p i ≠ true) ∨
      (findFrom s p left k = none ∧ ∀ i, k ≤ i → i ≤ k + left → matchesAt s p i ≠ true) := by
  induction left generalizing k with
  | zero =>
    by_cases hk : matchesAt s p k = true
    · exact .inl ⟨k, if_pos hk, le_rfl, le_rfl, hk, by omega⟩
    · refine .inr ⟨if_neg hk, fun i hlo hhi => ?_⟩
      rwa [show i = k by omega]
  | succ left ih =>
    by_cases hk : matchesAt s p k = true
    · exact .inl ⟨k, if_pos hk, le_rfl, Nat.le_add_right _ _, hk, by omega⟩
    · have hstep : findFrom s p (left + 1) k = findFrom s p left (k + 1) := if_neg hk
      have below : ∀ i, k ≤ i → (k + 1 ≤ i → matchesAt s p i ≠ true) → matchesAt s p i ≠ true := fun i hi h => by
        rcases Nat.eq_or_lt_of_le hi with rfl | hlt
        · exact hk
        · exact h hlt
      rw [hstep]
      rcases ih (k + 1) with ⟨j, hj, hlo, hhi, hm, hfirst⟩ | ⟨hnone, hno⟩
      · exact .inl ⟨j, hj, by omega, by omega, hm, fun i hi hij => below i hi fun h => hfirst i h hij⟩
      · exact .inr ⟨hnone, fun i hi hile => below i hi fun h => hno i h (by omega)⟩

/-- The comparison of R120 at an offset from which the pattern fits. -/
theorem matchAt_iff {s : State} {k : Nat} (hlo : s.arg0.toNat ≤ k) (hhi : k + s.arg2.toNat ≤ s.length.toNat) :
    MatchAt s k ↔ matchesAt s (findPattern s) k = true := by
  rw [matchesAt, decide_eq_true_iff, findPattern, hostBytes_length, ringBytes_eq_slice hhi]
  simp only [MatchAt, hlo, hhi, true_and]

/-- FIND's search gives the first match, or there is none (R120). -/
theorem search_cases {s : State} (hfit : s.arg0.toNat + s.arg2.toNat ≤ s.length.toNat) :
    (∃ k, search s s.arg0.toNat (findPattern s) = some k ∧ MatchAt s k ∧ ∀ j < k, ¬ MatchAt s j) ∨
      (search s s.arg0.toNat (findPattern s) = none ∧ ∀ k, ¬ MatchAt s k) := by
  have hplen : (findPattern s).length = s.arg2.toNat := hostBytes_length _ _ _
  unfold search
  rcases findFrom_cases s (findPattern s) (s.length.toNat - (findPattern s).length - s.arg0.toNat) s.arg0.toNat with
    ⟨k, hk, hlo, hhi, hm, hfirst⟩ | ⟨hnone, hno⟩
  · refine .inl ⟨k, hk, (matchAt_iff hlo (by omega)).mpr hm, fun j hj hmatch => ?_⟩
    obtain ⟨hjlo, hjhi, -⟩ := id hmatch
    exact hfirst j hjlo hj ((matchAt_iff hjlo hjhi).mp hmatch)
  · refine .inr ⟨hnone, fun k hmatch => ?_⟩
    obtain ⟨hlo, hhi, -⟩ := id hmatch
    exact hno k hlo (by omega) ((matchAt_iff hlo hhi).mp hmatch)

theorem findSpan_of_first {s : State} {k : Nat} (hfit : s.arg0.toNat + s.arg2.toNat ≤ s.length.toNat)
    (hm : MatchAt s k) (hfirst : ∀ j < k, ¬ MatchAt s j) : findSpan s = k + s.arg2.toNat - s.arg0.toNat := by
  rcases search_cases hfit with ⟨k', hk', hm', hfirst'⟩ | ⟨-, hno⟩
  · have hkk : k' = k := by
      rcases lt_trichotomy k' k with h | h | h
      · exact absurd hm' (hfirst k' h)
      · exact h
      · exact absurd hm (hfirst' k h)
    simp only [findSpan, hk', hkk]
  · exact absurd hm (hno k)

theorem findSpan_of_none {s : State} (hfit : s.arg0.toNat + s.arg2.toNat ≤ s.length.toNat)
    (hno : ∀ k, ¬ MatchAt s k) : findSpan s = s.length.toNat - s.arg0.toNat := by
  rcases search_cases hfit with ⟨k, -, hm, -⟩ | ⟨hnone, -⟩
  · exact absurd hm (hno k)
  · simp only [findSpan, hnone]

/-! ## The walk of the counters (R142) -/

theorem headBytes_of_fits {s : State} {off : Nat} (h : prefixBytes s ≤ s.length.toNat - off) :
    headBytes s off = liveBytes s off (prefixBytes s) :=
  if_neg (Nat.not_lt.mpr h)

@[simp] theorem blockWire_length (s : State) (p : List Byte) : (blockWire s p).length = prefixBytes s + p.length := by
  simp [blockWire]

/-- `Head` at the start of a whole block on the wire is the length of its payload (R140, R141). -/
theorem head_of_blockWire {s : State} {off : Nat} (ho : off ≤ s.length.toNat) {p tail : List Byte}
    (h : (contents s).drop off = blockWire s p ++ tail) : head s off = some p.length := by
  have hlen : s.length.toNat - off = prefixBytes s + p.length + tail.length := by
    simpa using congrArg List.length h
  have hvalue : prefixValue (((contents s).drop off).take (prefixBytes s)) = p.length := by
    rw [h, blockWire, List.append_assoc, List.take_left' (prefixEnc_length _ _)]
    exact prefixValue_prefixEnc (fits_prefix s (by have := s.length.isLt; omega))
  rw [head_eq s ho, hvalue, List.length_drop, contents_length, if_neg (by omega), if_neg (by omega)]

/-- A walk over whole blocks touches the bytes of the `PrefixAt` behind them. -/
theorem walkBytesFrom_reaches {s : State} {payloads : List (List Byte)} {rest : List Byte}
    (hrest : prefixBytes s ≤ rest.length) : ∀ {fuel off : Nat}, off ≤ s.length.toNat → s.length.toNat ≤ off + fuel →
    (contents s).drop off = blocksWire s payloads ++ rest →
    ∀ a ∈ liveBytes s (off + (blocksWire s payloads).length) (prefixBytes s), a ∈ walkBytesFrom s fuel off := by
  have hpos := prefixBytes_pos s
  induction payloads with
  | nil =>
    intro fuel off ho hfuel h a ha
    have hlen : s.length.toNat - off = rest.length := by simpa [blocksWire] using congrArg List.length h
    obtain ⟨fuel, rfl⟩ : ∃ n, fuel = n + 1 := ⟨fuel - 1, by omega⟩
    have hhead : a ∈ headBytes s off := by rw [headBytes_of_fits (by omega)]; exact ha
    rw [walkBytesFrom, if_pos (by omega)]
    split
    · exact hhead
    · exact List.mem_append_left _ hhead
  | cons p payloads ih =>
    intro fuel off ho hfuel h a ha
    have hcons : blocksWire s (p :: payloads) = blockWire s p ++ blocksWire s payloads := rfl
    rw [hcons, List.append_assoc] at h
    have hlen : s.length.toNat - off = prefixBytes s + p.length + ((blocksWire s payloads).length + rest.length) := by
      simpa using congrArg List.length h
    obtain ⟨fuel, rfl⟩ : ∃ n, fuel = n + 1 := ⟨fuel - 1, by omega⟩
    have hnext : (contents s).drop (off + prefixBytes s + p.length) = blocksWire s payloads ++ rest := by
      rw [Nat.add_assoc, ← List.drop_drop, h, ← blockWire_length s p, List.drop_left]
    rw [walkBytesFrom, if_pos (by omega), head_of_blockWire ho h]
    refine List.mem_append_right _ (ih (by omega) (by omega) hnext a ?_)
    rwa [hcons, List.length_append, blockWire_length, ← Nat.add_assoc, ← Nat.add_assoc] at ha

/-! ## Every missing byte is one the command asks for -/

/-- The commands that ask for `Head(0)` before their own checks (R141, R161). -/
def readsPrefix : Instr → Bool
  | .peekBlockLength | .readBlock | .peekBlock | .discardBlock | .peekFrame | .readFrame => true
  | .init | .clear | .length | .space | .write | .writeAll | .read | .peek | .peekOffset | .discard | .find
  | .writeBlock | .countBlocks | .writeFrame | .countFrames => false

theorem headBytes_subset_touched {i : Instr} {s : State} (hi : readsPrefix i = true) :
    ∀ a ∈ headBytes s 0, a ∈ touched i s := by
  intro a ha
  cases i with
  | peekBlockLength | discardBlock => exact ha
  | readBlock | peekBlock => exact List.mem_append_left _ (List.mem_append_left _ ha)
  | peekFrame | readFrame =>
    exact List.mem_append_left _ (List.mem_append_left _ (List.mem_append_left _ ha))
  | _ => exact absurd hi nofun

/-- A codec reader whose own checks fail has only the bytes of `Head(0)` left to ask for. -/
theorem exec_prefix_of_failing {i : Instr} {s : State} (hi : readsPrefix i = true) (hb : s.bound = true)
    (hr : ∀ r ∈ referenceOperands i s, regionOK r = true) (hp : ¬ checksPass i s) :
    ∃ c, exec i s = touchBytes s (headBytes s 0) (fail s c) := by
  cases i with
  | peekBlockLength | discardBlock =>
    refine ⟨.notPresent, (boundGate_of_bound hb _).trans ?_⟩
    rw [head_zero, if_neg (show ¬ BlockPresent s from hp)]
  | peekBlock =>
    refine ⟨.notPresent, (gates_pass hb hr _).trans ?_⟩
    rw [head_zero, if_neg (show ¬ BlockPresent s from hp)]
  | readBlock =>
    by_cases hblock : BlockPresent s
    · refine ⟨.destTooSmall, (gates_pass hb hr _).trans ?_⟩
      rw [head_zero, if_pos hblock]
      exact if_pos (Nat.not_le.mp fun hcap => hp ⟨hblock, hcap⟩)
    · refine ⟨.notPresent, (gates_pass hb hr _).trans ?_⟩
      rw [head_zero, if_neg hblock]
  | peekFrame | readFrame =>
    have herr : ∃ c, frameCheck s s.arg1.toNat s.arg3.toNat = .error c := by
      rw [frameCheck_eq]
      split_ifs with hblock hhdr hcap
      · exact ⟨_, rfl⟩
      · exact ⟨_, rfl⟩
      · exact absurd ⟨hblock, Nat.not_lt.mp hhdr, Nat.not_lt.mp hcap⟩ hp
      · exact ⟨_, rfl⟩
    obtain ⟨c, hc⟩ := herr
    refine ⟨c, (gates_pass hb hr _).trans ?_⟩
    rw [hc]
  | _ => exact absurd hi nofun

/-- A codec reader without the bytes of `Head(0)` is stuck, whatever its own checks say. -/
theorem exec_stuck_of_prefix {i : Instr} {s : State} (hi : readsPrefix i = true) (hb : s.bound = true)
    (hr : ∀ r ∈ referenceOperands i s, regionOK r = true) (ho : overlapFree i s = true)
    (hmissing : ¬ LiveBacked s 0 (headSpan s)) : exec i s = .fault .hostMemNotAdmitted := by
  have hhead : admitsAll s (headBytes s 0) ≠ true := by rwa [headBytes_eq, Ne, admitsAll_liveBytes]
  by_cases hp : checksPass i s
  · refine exec_stuck (fun _ => hb) hr hp ho (Bool.eq_false_iff.mpr fun ha => hhead ?_)
    exact admitsAll_iff.mpr fun a h => admitsAll_iff.mp ha a (headBytes_subset_touched hi a h)
  · obtain ⟨c, hc⟩ := exec_prefix_of_failing hi hb hr hp
    rw [hc, touchBytes_of_missing (Bool.eq_false_iff.mpr hhead)]

/-- A byte missing by the command's own rule is one of a codec reader's `Head(0)`, or a byte the command asks for once
its checks have passed. -/
theorem missingByte_cases {i : Instr} {s : State} (hring : i = .writeBlock ∨ i = .writeFrame → RingInv s)
    (h : MissingByte i s) :
    (readsPrefix i = true ∧ ¬ LiveBacked s 0 (headSpan s)) ∨
      (checksPass i s ∧ ¬ admitsAll s (touched i s) = true) := by
  cases i with
  | init | clear | length | space | discard => exact absurd h id
  | write =>
    refine .inr ⟨trivial, ?_⟩
    rw [touched, admitsAll_append, admitsAll_bufferBytes, admitsAll_freeBytes]
    exact not_and_or.mpr h
  | writeAll =>
    obtain ⟨hfit, hmissing⟩ := h
    refine .inr ⟨hfit, ?_⟩
    rw [touched, admitsAll_append, admitsAll_bufferBytes, admitsAll_freeBytes]
    exact not_and_or.mpr hmissing
  | read | peek =>
    refine .inr ⟨trivial, ?_⟩
    rw [touched, admitsAll_append, admitsAll_bufferBytes, admitsAll_liveBytes]
    exact not_and_or.mpr h.symm
  | peekOffset =>
    refine .inr ⟨trivial, ?_⟩
    rw [touched, admitsAll_append, admitsAll_bufferBytes, admitsAll_liveBytes, peekOffsetCount_eq]
    exact not_and_or.mpr h.symm
  | find =>
    obtain ⟨hp, hmissing⟩ := h
    have hfit : s.arg0.toNat + s.arg2.toNat ≤ s.length.toNat := by have := hp.2; omega
    refine .inr ⟨hp, ?_⟩
    rw [touched, findBytes, admitsAll_append, admitsAll_bufferBytes, admitsAll_liveBytes]
    rintro ⟨hpattern, hlive⟩
    rcases hmissing with hn | ⟨k, hm, hfirst, hn⟩ | ⟨hno, hn⟩
    · exact hn hpattern
    · exact hn (findSpan_of_first hfit hm hfirst ▸ hlive)
    · exact hn (findSpan_of_none hfit hno ▸ hlive)
  | writeBlock =>
    obtain ⟨hfit, hmissing⟩ := h
    refine .inr ⟨hfit, ?_⟩
    simp only [touched, admitsAll_append, admitsAll_bufferBytes, admitsAll_freeBytes]
    rintro ⟨⟨hprefix, hsource⟩, hrest⟩
    exact hmissing.elim (· hsource) (· (backed_withPrefix (hring (.inl rfl)) hfit hprefix (admitsAll_map.mp hrest)))
  | writeFrame =>
    obtain ⟨hfit, hmissing⟩ := h
    refine .inr ⟨hfit, ?_⟩
    simp only [touched, admitsAll_append, admitsAll_bufferBytes, admitsAll_freeBytes]
    rintro ⟨⟨⟨⟨hprefix, hsource⟩, hheader⟩, hsource'⟩, hpayload⟩
    rcases hmissing with hn | hn | hn
    · exact hn hsource
    · exact hn hsource'
    · exact hn (backed_withHeader (hring (.inr rfl)) hfit hprefix (admitsAll_map.mp hheader)
        (admitsAll_map.mp hpayload))
  | peekBlockLength | discardBlock => exact .inl ⟨rfl, h⟩
  | readBlock | peekBlock =>
    refine h.imp (⟨rfl, ·⟩) fun ⟨hcopy, hmissing⟩ => ⟨checksPass_of_reachesCopy nofun hcopy, ?_⟩
    simp only [touched, admitsAll_append, admitsAll_bufferBytes, admitsAll_liveBytes]
    rintro ⟨⟨-, hlive⟩, hdst⟩
    exact hmissing.elim (· hlive) (· hdst)
  | countBlocks | countFrames =>
    obtain ⟨payloads, rest, hwire, hrest, hn⟩ := h
    refine .inr ⟨trivial, fun ha => hn (admitsAll_liveBytes.mp (admitsAll_iff.mpr fun a hmem => ?_))⟩
    refine admitsAll_iff.mp ha a (walkBytesFrom_reaches hrest (Nat.zero_le _) (Nat.le_add_left _ _) hwire a ?_)
    rwa [Nat.zero_add]
  | peekFrame | readFrame =>
    refine h.imp (⟨rfl, ·⟩) fun ⟨hcopy, hmissing⟩ =>
      ⟨checksPass_of_reachesCopy (i := .readFrame) nofun hcopy, ?_⟩
    simp only [touched, frameBytes, admitsAll_append, admitsAll_bufferBytes, admitsAll_liveBytes]
    rintro ⟨⟨⟨-, hlive⟩, hheader⟩, hpayload⟩
    rcases hmissing with hn | hn | hn
    · exact hn hlive
    · exact hn hheader
    · exact hn hpayload

end Sys2Proof.Machine
end

section
/-! The statements about host memory, settled (20_memory.md). -/

namespace Sys2Proof.Proofs

open Sys2Proof.Machine Sys2Proof.Safety

/-- Settles O7: the overlap gate is the one gate that refuses. -/
theorem onlyOverlapIsRefused : Obligations.OnlyOverlapIsRefused := by
  intro i s r h
  obtain ⟨hname, hb, hr, ho⟩ := exec_refused h
  exact ⟨hname, hb, hr, overlapBroken_iff.mpr ho⟩

/-- Settles O8: every byte a command touches lies in one of its regions. -/
theorem stuckOnlyOnMissingMemory : Obligations.StuckOnlyOnMissingMemory := by
  intro i s f hs h
  obtain ⟨hname, hb, -, -⟩ := exec_fault h
  obtain ⟨a, ⟨r, hr, hlo, hhi⟩, hmissing⟩ := exec_fault_inRegions hs h
  exact ⟨hname, hb, r, hr, a, hlo, hhi, hmissing⟩

/-- Settles O16: the reference checks come first, behind the bound gate alone. -/
theorem badReferenceOnlyFails : Obligations.BadReferenceOnlyFails := by
  rintro i s hb ⟨r, hr, hbad⟩
  exact exec_of_badReference hb ⟨r, hr, fun hok => hbad (regionOK_iff.mp hok)⟩

/-- Settles O17: an append writes free places of the storage region, a copy its buffer, and nothing else writes. -/
theorem commandsWriteOnlyTheirRegions : Obligations.CommandsWriteOnlyTheirRegions :=
  fun _ _ _ hs h _ hd hst => exec_read_outside hs h hd hst

/-- Settles O22: byte `j` is the quotient by `256 ^ j`. -/
theorem prefixIsLittleEndian : Obligations.PrefixIsLittleEndian := by
  intro n v hv
  refine ⟨prefixEnc_length n v, prefixValue_prefixEnc hv, fun j hj => ?_⟩
  rw [prefixEnc_getElem, ofNat_shiftRight_and]

/-- Settles O56: a command with a broken contract appends or copies out, and then the overlap gate is reached. -/
theorem overlapIsRefused : Obligations.OverlapIsRefused := by
  intro i s hb hr hbroken hcopy
  have hfree := overlapBroken_iff.mp hbroken
  rcases appends_or_copies_of_broken hbroken with happ | hdst
  · obtain ⟨k, hk⟩ := exec_of_appends hb hr happ
    rw [hk, keepContract_of_broken hfree]
  · rw [exec_of_copies hb hr hdst (checksPass_of_reachesCopy hdst hcopy), moveData, keepContract_of_broken hfree]

/-- Settles O57: the missing byte is one of a codec reader's `Head(0)`, or one that the command touches on its way to
its effect. -/
theorem unbackedByteSticks : Obligations.UnbackedByteSticks := by
  intro i s hb hring hr hkept hmissing
  have ho : overlapFree i s = true := by rwa [overlapBroken_iff, Bool.not_eq_false] at hkept
  rcases missingByte_cases hring hmissing with ⟨hi, hprefix⟩ | ⟨hp, ha⟩
  · exact exec_stuck_of_prefix hi hb hr ho hprefix
  · exact exec_stuck (fun _ => hb) hr hp ho (Bool.eq_false_iff.mpr ha)

/-- Settles O54: the shape of a window access is looked at before BUSY, and BUSY before the offset. -/
theorem badWindowAccessRefused : Obligations.BadWindowAccessRefused := by
  intro s addr v width rest off ha hoff
  refine ⟨fun hbad => ⟨fun hin => ?_, fun hin => ?_⟩, ?_⟩
  · simp only [step, nextMove, hin]
    exact windowAccess_misshapen (s := { s with inputs := rest }) ha hoff hbad _
  · simp only [step, nextMove, hin]
    exact windowAccess_misshapen (s := { s with inputs := rest }) ha hoff hbad _
  · rintro rfl hal hb hin
    simp only [step, nextMove, hin]
    exact hostWriteReg_busy (s := { s with inputs := rest }) ha hal hoff hb

/-- Settles O55: while BUSY = 0 only the storage of a bound ring is held, while BUSY = 1 every region of
`busyRegions`. -/
theorem hostMemoryDutiesRefused : Obligations.HostMemoryDutiesRefused := by
  intro s addr v rest hw
  refine ⟨fun hb hbound hmem hlo hhi hin => ?_, fun hb hheld => ?_⟩
  · simp only [step, nextMove, hin]
    exact hostWriteMem_storage (s := { s with inputs := rest }) hw hb hbound hmem ⟨hlo, hhi⟩
  · have hregion : ∃ r ∈ busyRegions s, r.base ≤ addr.toNat ∧ addr.toNat < r.base + r.size := by
      rcases hheld with ⟨i, hd, r, hr, ha⟩ | ⟨hbound, ha⟩
      · exact ⟨r, (mem_busyRegions hb).mpr (.inl ⟨i, hd, hr⟩), ha⟩
      · exact ⟨storageRegion s, (mem_busyRegions hb).mpr (.inr ⟨hbound, rfl⟩), ha⟩
    obtain ⟨r, hr, ha⟩ := hregion
    refine ⟨fun hin => ?_, fun hin => ?_⟩ <;> simp only [step, nextMove, hin]
    · exact hostByteAccess_held (s := { s with inputs := rest }) hw hr ha _
    · exact hostByteAccess_held (s := { s with inputs := rest }) hw hr ha _

end Sys2Proof.Proofs
end

section
/-! The decoder and the encoder (30_encoding.md R70, R73, R74), and the bound gate of R76 as a statement about
`exec`. -/

namespace Sys2Proof.Machine

/-! ## The fields of format C (R70) -/

theorem wordReserved_eq_zero_iff (w : Word) : wordReserved w = 0 ↔ w.toNat / 256 = 0 := by
  have hw := w.isLt
  have hzero : (0 : BitVec 24).toNat = 0 := rfl
  rw [BitVec.toNat_eq, wordReserved, BitVec.extractLsb'_toNat, Nat.shiftRight_eq_div_pow, hzero]
  omega

theorem wordOpcode_toNat (w : Word) : (wordOpcode w).toNat = w.toNat % 256 := by
  rw [wordOpcode, BitVec.extractLsb'_toNat, Nat.shiftRight_zero]

theorem encode_toNat (i : Instr) : (encode i).toNat = (opcode i).toNat := by
  have hzero : (0 : BitVec 24).toNat = 0 := rfl
  rw [encode, toNat_append_eq_add, hzero, Nat.mul_zero, Nat.zero_add]

/-! ## The opcode map (R73) -/

theorem decodeOpcode_opcode (i : Instr) : decodeOpcode (opcode i) = some i := by
  cases i <;> rfl

theorem opcode_of_decodeOpcode {op : Byte} {i : Instr} (h : decodeOpcode op = some i) : op = opcode i := by
  apply BitVec.eq_of_toNat_eq
  unfold decodeOpcode at h
  -- a row leaves its OP as the hypothesis; the last branch is no row
  split at h
  all_goals cases h
  all_goals assumption

/-- The two columns of R73 are one map: no row is lost, and no OP stands in two rows. -/
theorem decodeOpcode_eq_some_iff {op : Byte} {i : Instr} : decodeOpcode op = some i ↔ op = opcode i :=
  ⟨opcode_of_decodeOpcode, fun h => h ▸ decodeOpcode_opcode i⟩

theorem decode_eq_ite (w : Word) : decode w = if wordReserved w = 0 then decodeOpcode (wordOpcode w) else none := by
  unfold decode decodeWord
  by_cases h : wordReserved w = 0
  · rw [if_neg (not_not.mpr h), if_pos h]
    cases decodeOpcode (wordOpcode w) <;> rfl
  · rw [if_pos h, if_neg h]

/-- What the decoder looks at, as arithmetic on the word. -/
theorem decode_eq_some_iff_toNat {w : Word} {i : Instr} :
    decode w = some i ↔ w.toNat / 256 = 0 ∧ w.toNat % 256 = (opcode i).toNat := by
  rw [decode_eq_ite, Option.ite_none_right_eq_some, wordReserved_eq_zero_iff, decodeOpcode_eq_some_iff,
    BitVec.toNat_eq, wordOpcode_toNat]

theorem decode_encode (i : Instr) : decode (encode i) = some i := by
  have hop := (opcode i).isLt
  rw [decode_eq_some_iff_toNat, encode_toNat]
  omega

theorem decode_eq_none_of_illegal {w : Word}
    (h : w.toNat / 256 ≠ 0 ∨ ∀ i : Instr, w.toNat % 256 ≠ (opcode i).toNat) : decode w = none := by
  rw [Option.eq_none_iff_forall_ne_some]
  intro i hi
  obtain ⟨hreserved, hop⟩ := decode_eq_some_iff_toNat.mp hi
  rcases h with h | h
  · exact h hreserved
  · exact h i hop

/-! ## The bound gate (R76) -/

/-- The bound gate stands before the body of every command but INIT. -/
theorem exec_gated {i : Instr} (hi : i ≠ .init) (s : State) : ∃ k, exec i s = boundGate s k := by
  cases i with
  | init => exact absurd rfl hi
  | _ => exact ⟨_, rfl⟩

end Sys2Proof.Machine
end

section
/-! A source line as the host's moves: its ARG writes one after the other, then its CMD write (30_encoding.md R78). -/

namespace Sys2Proof.Machine

/-! ## The registers that the moves of a line reach -/

theorem windowAddr_zero (c : Config) : windowAddr c 0 = c.coreBase := by simp [windowAddr]

/-- The window of a well-formed build does not run past the top of the address space (R51). -/
theorem windowAddr_toNat {c : Config} (hc : c.wellFormed = true) {off : Nat} (hoff : off < 256) :
    (windowAddr c off).toNat = c.coreBase.toNat + off := by
  have hend : c.coreBase.toNat + 256 ≤ addressSpace := by
    simp only [Config.wellFormed, Bool.and_eq_true, decide_eq_true_eq] at hc
    exact hc.2
  simp only [addressSpace] at hend
  simp only [windowAddr, BitVec.toNat_add, BitVec.toNat_ofNat]
  omega

/-- No command takes more operands than there are ARG registers (R71). -/
theorem operandKinds_length_le (i : Instr) : i.operandKinds.length ≤ 4 := by
  cases i <;> decide

theorem operands_length_le {l : Line} (h : l.wellFormed = true) : l.operands.length ≤ 4 :=
  (of_decide_eq_true h).trans (operandKinds_length_le l.command)

/-! ## The ARG writes -/

/-- The operands of a line written to the ARG registers from ARG`i` on, in ascending order (R78). -/
def storeOperands : Nat → List Word → State → State
  | _, [], s => s
  | i, op :: ops, s => storeOperands (i + 1) ops (writeRegister s (0x0C + 4 * i) op)

@[simp] theorem writeRegister_cfg (s : State) (off : Nat) (v : Word) : (writeRegister s off v).cfg = s.cfg := by
  rw [writeRegister_eq]

@[simp] theorem writeRegister_busy (s : State) (off : Nat) (v : Word) : (writeRegister s off v).busy = s.busy := by
  rw [writeRegister_eq]

theorem writeRegister_launch (s : State) (p : List Input) (off : Nat) (v : Word) :
    writeRegister (launch s p) off v = launch (writeRegister s off v) p := by
  rw [writeRegister_eq, writeRegister_eq]
  rfl

theorem step_argWrite {s : State} (hc : s.cfg.wellFormed = true) (hb : s.busy = false) {i : Nat} (hi : i < 4)
    (v : Word) (rest : List Input) :
    step (launch s (.writeReg (windowAddr s.cfg (0x0C + 4 * i)) .word v :: rest)) =
      .next (launch (writeRegister s (0x0C + 4 * i) v) rest) := by
  have hstep := step_writeReg (s := launch s (.writeReg (windowAddr s.cfg (0x0C + 4 * i)) .word v :: rest)) rfl hb
    (windowAddr_toNat hc (off := 0x0C + 4 * i) (by omega)) (by omega) (by omega)
  rw [hstep, if_neg (by omega), ← writeRegister_launch]
  rfl

theorem runSteps_argWrites {rest : List Input} (ops : List Word) :
    ∀ {s : State} {i : Nat}, s.cfg.wellFormed = true → s.busy = false → i + ops.length ≤ 4 →
      runSteps ops.length (launch s (argWrites s.cfg i ops ++ rest)) = .next (launch (storeOperands i ops s) rest) := by
  induction ops with
  | nil => intros; rfl
  | cons op ops ih =>
    intro s i hc hb hlen
    rw [List.length_cons] at hlen ⊢
    rw [argWrites, List.cons_append, runSteps_succ (step_argWrite hc hb (by omega) op _), storeOperands]
    have hnext := ih (s := writeRegister s (0x0C + 4 * i) op) (i := i + 1) (by simpa using hc) (by simpa using hb)
      (by omega)
    rwa [writeRegister_cfg] at hnext

/-- The operands in ARG0 upwards; the ARG registers a line does not write stay as they stood (R39, R78). -/
def withOperands (s : State) (ops : List Word) : State :=
  { s with
    arg0 := ops.getD 0 s.arg0, arg1 := ops.getD 1 s.arg1
    arg2 := ops.getD 2 s.arg2, arg3 := ops.getD 3 s.arg3 }

theorem storeOperands_eq_withOperands (s : State) {ops : List Word} (h : ops.length ≤ 4) :
    storeOperands 0 ops s = withOperands s ops := by
  match ops, h with
  | [], _ | [_], _ | [_, _], _ | [_, _, _], _ | [_, _, _, _], _ => rfl
  | _ :: _ :: _ :: _ :: _ :: _, h => simp only [List.length_cons] at h; omega

/-! ## The CMD write and the engine's step -/

theorem runSteps_one (s : State) : runSteps 1 s = step s := by
  rw [runSteps]
  cases step s <;> rfl

/-- The CMD write of a command and the engine's step behind it run the command (R30, R75). -/
theorem runSteps_cmdWrite {s : State} (hb : s.busy = false) (hrel : s.released = false) (i : Instr)
    (rest : List Input) :
    runSteps 2 (launch s (.writeReg (windowAddr s.cfg 0x00) .word (encode i) :: .pollIdle :: rest)) =
      exec i { s with cmd := encode i, busy := true, inputs := .pollIdle :: rest } := by
  have hissue : step (launch s (.writeReg (windowAddr s.cfg 0x00) .word (encode i) :: .pollIdle :: rest)) =
      .next { s with cmd := encode i, busy := true, inputs := .pollIdle :: rest } := by
    rw [windowAddr_zero]
    exact Proofs.cmdWriteIssuesCommand _ _ _ hb hrel rfl
  rw [runSteps_succ hissue, runSteps_one]
  exact (step_of_engineNext ⟨rfl, .inr rfl⟩).trans (engineMove_of_decode (decode_encode i))

end Sys2Proof.Machine
end

section
/-! The statements about the encoding and the source line, settled (30_encoding.md). -/

namespace Sys2Proof.Proofs

open Sys2Proof.Machine

/-- Settles O2: the reserved field and the OP field are the word's quotient and remainder by 256, and the map has one
row for each OP. -/
theorem wordSelectsCommandExactly : Obligations.WordSelectsCommandExactly := fun _ _ => decode_eq_some_iff_toNat

/-- Settles O60: by induction on the operands the ARG writes store them in order, then the CMD write makes the line's
word pending and the engine runs it. -/
theorem lineRunsItsCommand : Obligations.LineRunsItsCommand := by
  intro s l rest hc hb hrel hl hin
  have hlen := operands_length_le hl
  have hs : s = launch s (argWrites s.cfg 0 l.operands ++
      .writeReg (windowAddr s.cfg 0x00) .word (encode l.command) :: .pollIdle :: rest) := by
    rw [assemble, List.append_assoc] at hin
    exact congrArg (launch s) hin
  have hargs := runSteps_argWrites (i := 0)
    (rest := .writeReg (windowAddr s.cfg 0x00) .word (encode l.command) :: .pollIdle :: rest)
    l.operands hc hb (by omega)
  rw [← hs, storeOperands_eq_withOperands s hlen] at hargs
  rw [runSteps_add hargs]
  exact runSteps_cmdWrite (s := withOperands s l.operands) hb hrel l.command rest

/-- Settles O1: the OP of a command's word is the command's own row. -/
theorem decodeOfEncode : Obligations.DecodeOfEncode := fun i _ => decode_encode i

/-- Settles O3: eight closed evaluations of the decoder. -/
theorem opcodeMapWords : Obligations.OpcodeMapWords := ⟨rfl, rfl, rfl, rfl, rfl, rfl, rfl, rfl⟩

/-- Settles O5: such a word decodes to no command, and the engine completes it through `fail`. -/
theorem illegalWordOnlyCompletes : Obligations.IllegalWordOnlyCompletes := fun _ hn hillegal =>
  (step_of_engineNext hn).trans (engineMove_of_illegal (decode_eq_none_of_illegal hillegal))

/-- Settles O6: the bound gate answers before the command's body does. -/
theorem unboundCommandsOnlyFail : Obligations.UnboundCommandsOnlyFail := by
  intro i s hi hb
  obtain ⟨body, hbody⟩ := exec_gated hi s
  rw [hbody, boundGate_of_unbound hb, fail_eq]

end Sys2Proof.Proofs
end

section
/-! The gates of a command with one operand buffer, and when each Core Ring command leaves its effect
(20_memory.md R53, R57, R60, 40_core_ring.md R110 to R120). -/

namespace Sys2Proof.Machine

open Sys2Proof.Safety

/-! ## One reference operand -/

theorem references_ok {i : Instr} {s : State} {a c : Word} (href : referenceOperands i s = [reference a c])
    (h : ReferenceOK a c) : ∀ r ∈ referenceOperands i s, regionOK r = true := by
  rw [href, List.forall_mem_singleton]
  exact regionOK_reference.mpr h

theorem exec_of_badBuffer {i : Instr} {s : State} {a c : Word} (href : referenceOperands i s = [reference a c])
    (hb : i ≠ .init → s.bound = true) (h : ¬ ReferenceOK a c) :
    exec i s = .next (completed s .invalidArgument 0 false) :=
  exec_of_badReference hb ⟨reference a c, href ▸ List.mem_singleton_self _, fun hok => h (regionOK_reference.mp hok)⟩

/-- INIT's storage aside, the reference operands of a command are its buffers. -/
theorem buffers_eq_references {i : Instr} (hi : i ≠ .init) (s : State) :
    sourceRegions i s ++ destinationRegions i s = referenceOperands i s := by
  cases i with
  | init => exact absurd rfl hi
  | _ => rfl

/-- A single buffer keeps the overlap contract where it keeps clear of the storage region. -/
theorem overlapFree_of_apart {i : Instr} {s : State} {a c : Word} (hi : i ≠ .init)
    (href : referenceOperands i s = [reference a c]) (h : Apart (reference a c) (storageRegion s)) :
    overlapFree i s = true := by
  have hbuffers := (buffers_eq_references hi s).trans href
  have hapart : ∀ r ∈ sourceRegions i s ++ destinationRegions i s, Apart r (storageRegion s) := by
    rw [hbuffers, List.forall_mem_singleton]
    exact h
  refine overlapFree_iff.mpr ⟨fun d hd => hapart d (List.mem_append_right _ hd), ?_,
    fun _ r hr => hapart r (List.mem_append_left _ hr)⟩
  exact (List.pairwise_singleton Apart (reference a c)).sublist (hbuffers ▸ List.sublist_append_right _ _)

/-- A command whose one buffer is ready, whose checks pass and whose bytes are backed leaves its effect. -/
theorem exec_of_bufferReady {i : Instr} {s : State} {a c : Word} (hi : i ≠ .init)
    (href : referenceOperands i s = [reference a c]) (hb : s.bound = true) (hbuf : BufferReady s a c)
    (hp : checksPass i s) (ha : admitsAll s (touched i s) = true) : exec i s = .next (effect i s) :=
  exec_done (fun _ => hb) (references_ok href hbuf.1) hp (overlapFree_of_apart hi href hbuf.2) ha

/-! ## The commands -/

theorem exec_init_of_ready {s : State} (h : InitReady s) : exec .init s = .next (effect .init s) :=
  exec_done (fun hi => absurd rfl hi) (references_ok rfl h.1) h.2 (overlapFree_of_readOnly rfl rfl) rfl

theorem exec_init_of_not_ready {s : State} (h : ¬ InitReady s) :
    exec .init s = .next (completed s .invalidArgument 0 false) := by
  by_cases href : ReferenceOK s.arg0 s.arg1
  · have hcap : s.arg1 = 0 := not_not.mp fun hne => h ⟨href, hne⟩
    exact (checkReferences_of_ok (i := .init) (references_ok rfl href) _).trans (if_pos hcap)
  · exact exec_of_badBuffer rfl (fun hi => absurd rfl hi) href

theorem exec_write_of_ready {s : State} (h : WriteReady s) : exec .write s = .next (effect .write s) := by
  obtain ⟨⟨hb, -⟩, hbuf, hsource, hfree⟩ := h
  exact exec_of_bufferReady nofun rfl hb hbuf trivial
    (admitsAll_append.mpr ⟨admitsAll_bufferBytes.mpr hsource, admitsAll_freeBytes.mpr hfree⟩)

theorem exec_writeAll_of_ready {s : State} (h : WriteAllReady s) : exec .writeAll s = .next (effect .writeAll s) := by
  obtain ⟨⟨hb, -⟩, hbuf, hfit, hsource, hfree⟩ := h
  exact exec_of_bufferReady nofun rfl hb hbuf hfit
    (admitsAll_append.mpr ⟨admitsAll_bufferBytes.mpr hsource, admitsAll_freeBytes.mpr hfree⟩)

theorem exec_writeAll_of_full {s : State} (hb : s.bound = true) (hbuf : BufferReady s s.arg0 s.arg1)
    (hfull : space s < s.arg1.toNat) : exec .writeAll s = .next (completed s .insufficientSpace 0 false) := by
  have hkept : overlapFree .writeAll s = true := overlapFree_of_apart nofun rfl hbuf.2
  refine (gates_pass hb (i := .writeAll) (references_ok rfl hbuf.1) _).trans ?_
  exact (keepContract_of_ok hkept _).trans (if_pos hfull)

/-- The bytes of a READ or PEEK that is ready are backed. -/
theorem admitsAll_of_readReady {s : State} (h : ReadReady s) :
    admitsAll s (liveBytes s 0 (readCount s) ++ bufferBytes s.arg0.toNat (readCount s)) = true := by
  obtain ⟨-, -, hlive, hout⟩ := h
  exact admitsAll_append.mpr ⟨admitsAll_liveBytes.mpr hlive, admitsAll_bufferBytes.mpr hout⟩

theorem exec_read_of_ready {s : State} (h : ReadReady s) : exec .read s = .next (effect .read s) :=
  exec_of_bufferReady nofun rfl h.1.1 h.2.1 trivial (admitsAll_of_readReady h)

theorem exec_peek_of_ready {s : State} (h : ReadReady s) : exec .peek s = .next (effect .peek s) :=
  exec_of_bufferReady nofun rfl h.1.1 h.2.1 trivial (admitsAll_of_readReady h)

theorem exec_peekOffset_of_ready {s : State} (h : PeekOffsetReady s) :
    exec .peekOffset s = .next (effect .peekOffset s) := by
  obtain ⟨⟨hb, -⟩, hbuf, hlive, hout⟩ := h
  rw [← peekOffsetCount_eq] at hlive hout
  exact exec_of_bufferReady nofun rfl hb hbuf trivial
    (admitsAll_append.mpr ⟨admitsAll_liveBytes.mpr hlive, admitsAll_bufferBytes.mpr hout⟩)

theorem exec_discard_of_bound {s : State} (hb : s.bound = true) : exec .discard s = .next (effect .discard s) :=
  boundGate_of_bound hb _

/-- FIND's search stays inside the remainder that `FindReady` has backed. -/
theorem exec_find_of_ready {s : State} (h : FindReady s) : exec .find s = .next (findResult s) := by
  obtain ⟨⟨hb, -⟩, href, hne, hoff, hlen, hpattern, hlive⟩ := h
  have hspan := findSpan_le hoff.le hlen
  have hsearched : LiveBacked s s.arg0.toNat (findSpan s) := fun j hj => hlive j (by omega)
  exact exec_done (i := .find) (fun _ => hb) (references_ok rfl href) ⟨hne, hoff, hlen⟩
    (overlapFree_of_readOnly rfl rfl)
    (admitsAll_append.mpr ⟨admitsAll_bufferBytes.mpr hpattern, admitsAll_liveBytes.mpr hsearched⟩)

theorem exec_find_of_invalid {s : State} (hb : s.bound = true)
    (h : ¬ (ReferenceOK s.arg1 s.arg2 ∧ s.arg2 ≠ 0 ∧ s.arg0.toNat < s.length.toNat ∧
      s.arg2.toNat ≤ s.length.toNat - s.arg0.toNat)) :
    exec .find s = .next (completed s .invalidArgument 0 false) := by
  by_cases href : ReferenceOK s.arg1 s.arg2
  · refine (gates_pass hb (i := .find) (references_ok rfl href) _).trans ?_
    by_cases hne : s.arg2 = 0
    · exact if_pos hne
    · have hbad : s.length.toNat ≤ s.arg0.toNat ∨ s.length.toNat - s.arg0.toNat < s.arg2.toNat := by
        by_contra hn
        push Not at hn
        exact h ⟨href, hne, hn⟩
      exact (if_neg hne).trans (if_pos hbad)
  · exact exec_of_badBuffer rfl (fun _ => hb) href

/-! ## What FIND reports (R120) -/

theorem search_of_first {s : State} {k : Nat} (hfit : s.arg0.toNat + s.arg2.toNat ≤ s.length.toNat)
    (hm : MatchAt s k) (hfirst : ∀ j < k, ¬ MatchAt s j) : search s s.arg0.toNat (findPattern s) = some k := by
  rcases search_cases hfit with ⟨k', hk', hm', hfirst'⟩ | ⟨-, hno⟩
  · have hkk : k' = k :=
      le_antisymm (not_lt.mp fun h => hfirst' k h hm) (not_lt.mp fun h => hfirst k' h hm')
    rw [hk', hkk]
  · exact absurd hm (hno k)

theorem search_of_none {s : State} (hfit : s.arg0.toNat + s.arg2.toNat ≤ s.length.toNat)
    (hno : ∀ k, ¬ MatchAt s k) : search s s.arg0.toNat (findPattern s) = none := by
  rcases search_cases hfit with ⟨k, -, hm, -⟩ | ⟨hnone, -⟩
  · exact absurd hm (hno k)
  · exact hnone

theorem findResult_of_some {s : State} {k : Nat} (h : search s s.arg0.toNat (findPattern s) = some k) :
    findResult s = completed s .ok k false := by
  simp only [findResult, h]
  rfl

theorem findResult_of_none {s : State} (h : search s s.arg0.toNat (findPattern s) = none) :
    findResult s = completed s .notFound 0xFFFFFFFF false := by
  simp only [findResult, h]
  rfl

end Sys2Proof.Machine
end

section
/-! Appends, removals and copies as completions (40_core_ring.md R103 to R105): the whole state they leave, and what
becomes of the live bytes. -/

namespace Sys2Proof.Machine

open Sys2Proof.Safety

/-! ## The state a completion leaves -/

theorem ringAndMemory_of_bound {s : State} (hs : MachineInv s) (hb : s.bound = true) : RingAndMemory s := by
  obtain ⟨hring, -, -, hmem⟩ := hs
  exact ⟨hring hb, hmem⟩

/-- What an appending command has done when it completes: the whole state, the live bytes, and no byte written but the
places appended to (R104). -/
theorem append_completes {s : State} (h : RingAndMemory s) {a : Word} {n : Nat} (hn : n ≤ space s) (r : Nat)
    (tr : Bool) :
    finish (append s (s.mem.hostBytes a.toNat n)) .ok r tr =
      { completed s .ok r tr with
        mem := (append s (s.mem.hostBytes a.toNat n)).mem
        length := BitVec.ofNat 32 (s.length.toNat + n)
        wrIdx := BitVec.ofNat 32 ((s.wrIdx.toNat + n) % s.capacity.toNat) } ∧
      contents (finish (append s (s.mem.hostBytes a.toNat n)) .ok r tr) = contents s ++ s.mem.hostBytes a.toNat n ∧
      MemoryKeptButAppended s (finish (append s (s.mem.hostBytes a.toNat n)) .ok r tr) n := by
  have hlen := hostBytes_length s.mem a.toNat n
  obtain ⟨-, -, -, -, hcontents, hkept⟩ := append_spec h.1 h.2 (hlen.trans_le hn)
  rw [hlen] at hkept
  obtain ⟨-, -, -, hw, -⟩ := h.1
  refine ⟨?_, hcontents, hkept⟩
  rw [← adv_eq_mod hw (hn.trans space_le_capacity), finish, append, hlen]
  rfl

theorem finish_remove {s : State} (hr : RingInv s) {m : Nat} (hm : m ≤ s.length.toNat) (c : StatusCode)
    (r : Nat) (tr : Bool) :
    finish (remove s m) c r tr =
      { completed s c r tr with
        length := BitVec.ofNat 32 (s.length.toNat - m)
        rdIdx := BitVec.ofNat 32 ((s.rdIdx.toNat + m) % s.capacity.toNat) } := by
  obtain ⟨-, -, hlen, -, hrd, -⟩ := hr
  rw [← adv_eq_mod hrd (hm.trans hlen)]
  rfl

/-- A count clamped to what there is falls short exactly where less is there than asked for (R34). -/
theorem truncated_min (n available : Nat) : truncated (min n available) n = decide (available < n) :=
  decide_eq_decide.mpr (by omega)

/-! ## The live bytes at the front, and at an offset -/

/-- The bytes READ and PEEK copy are the first `n` live ones, as many as there are (R116, R117). -/
theorem ringBytes_readCount (s : State) : ringBytes s 0 (readCount s) = (contents s).take s.arg1.toNat := by
  have hcount : readCount s = min s.arg1.toNat (contents s).length := by rw [contents_length]; rfl
  have hle : 0 + readCount s ≤ s.length.toNat := by rw [Nat.zero_add]; exact Nat.min_le_right _ _
  rw [ringBytes_eq_slice hle, List.drop_zero, hcount, ← List.take_eq_take_min]

/-- The bytes PEEK_OFFSET copies are the first `n` live ones behind the offset, as many as there are (R118). -/
theorem ringBytes_peekOffsetCount (s : State) :
    ringBytes s s.arg0.toNat (peekOffsetCount s) = ((contents s).drop s.arg0.toNat).take s.arg2.toNat := by
  have hcount := peekOffsetCount_eq s
  by_cases hoff : s.arg0.toNat ≤ s.length.toNat
  · rw [ringBytes_eq_slice (by omega), hcount, ← contents_length, ← List.length_drop, ← List.take_eq_take_min]
  · have hzero : peekOffsetCount s = 0 := by omega
    have hpast : (contents s).length ≤ s.arg0.toNat := by rw [contents_length]; omega
    rw [hzero, List.drop_of_length_le hpast, List.take_nil]
    rfl

/-! ## A copy into a buffer apart from the storage region -/

section copy
variable {s u : State} {a n : Word} {off m : Nat}

/-- The live bytes are not overwritten by a copy into a buffer that keeps the overlap contract (R60). -/
theorem contents_copyOut (h : RingAndMemory u) (hbuf : BufferReady u a n) (hm : m ≤ n.toNat) :
    contents (copyOut s u off m a.toNat) = contents u := by
  obtain ⟨⟨-, hend⟩, hapart⟩ := hbuf
  obtain ⟨-, -, hkept⟩ := copyOut_spec (s := s) (off := off) (m := m) (dst := a.toNat) h.2 (by omega)
  refine contents_congr h.1 rfl rfl rfl rfl fun x hlo hhi => hkept x fun hx => ?_
  simp only [Apart, reference, storageRegion] at hapart
  omega

/-- What a copying command has done when its copy is made: the buffer holds the bytes, the live bytes are the same, and
nothing but the buffer's bytes is written (R103). -/
theorem copyOut_into_buffer (h : RingAndMemory s) (hbuf : BufferReady s a n) (hm : m ≤ n.toNat) :
    (copyOut s s off m a.toNat).mem.hostBytes a.toNat m = ringBytes s off m ∧
      contents (copyOut s s off m a.toNat) = contents s ∧
      MemoryKeptOutside s (copyOut s s off m a.toNat) a.toNat m := by
  have hend := hbuf.1.2
  obtain ⟨-, hbytes, hkept⟩ := copyOut_spec (s := s) (off := off) (m := m) (dst := a.toNat) h.2 (by omega)
  exact ⟨hbytes, contents_copyOut h hbuf hm, hkept⟩

end copy

theorem read_eq_of_hostBytes_eq {m m' : Memory} {a n x : Nat} (h : m.hostBytes a n = m'.hostBytes a n)
    (hx : a ≤ x ∧ x < a + n) : m.read x = m'.read x := by
  have hbyte := congrArg (·[x - a]?) h
  simpa [Memory.hostBytes, show x - a < n by omega, show a + (x - a) = x by omega] using hbyte

/-- Copying bytes to where they already stand changes nothing. -/
theorem copyOut_of_copied {s : State} (hw : s.mem.wf) {off m dst : Nat} (hd : dst + m ≤ addressSpace)
    (h : s.mem.hostBytes dst m = ringBytes s off m) : copyOut s s off m dst = s := by
  obtain ⟨hw', hbytes, hkept⟩ := copyOut_spec (s := s) (off := off) hw hd
  have hmem : (copyOut s s off m dst).mem = s.mem := by
    refine wf_ext hw' hw fun x => ?_
    by_cases hx : dst ≤ x ∧ x < dst + m
    · exact read_eq_of_hostBytes_eq (hbytes.trans h.symm) hx
    · exact hkept x hx
  calc copyOut s s off m dst
      = { s with mem := (copyOut s s off m dst).mem } := rfl
    _ = s := by rw [hmem]

/-! ## The empty ring -/

theorem contents_of_empty {s : State} (h : s.length = 0) : contents s = [] := by
  rw [← List.length_eq_zero_iff, contents_length, h]
  rfl

/-- In an empty ring the next byte is appended where the next one will be read. -/
theorem freeAddr_of_empty {s : State} (hr : RingInv s) (h : s.length = 0) {j : Nat} (hj : j ≤ s.capacity.toNat) :
    freeAddr s j = liveAddr s j := by
  rw [freeAddr_eq hr hj, liveAddr_eq hr hj, h]
  exact congrArg (slot s) (Nat.zero_add j)

/-- A WRITE of at most CAPACITY bytes to an empty ring writes them all. -/
theorem writeCount_of_empty {s : State} (h : s.length = 0) (hn : s.arg1.toNat ≤ s.capacity.toNat) :
    writeCount s = s.arg1.toNat := by
  unfold writeCount space
  rw [h]
  exact Nat.min_eq_left hn

/-- Such a WRITE makes the source's bytes the live ones. -/
theorem effect_write_of_empty {s : State} (h : RingAndMemory s) (hempty : s.length = 0)
    (hn : s.arg1.toNat ≤ s.capacity.toNat) :
    (effect .write s).result = s.arg1 ∧ (effect .write s).length = s.arg1 ∧
      contents (effect .write s) = s.mem.hostBytes s.arg0.toNat s.arg1.toNat := by
  have hcount := writeCount_of_empty hempty hn
  have heffect : effect .write s = finish (append s (s.mem.hostBytes s.arg0.toNat s.arg1.toNat)) .ok s.arg1.toNat
      (truncated s.arg1.toNat s.arg1.toNat) := by rw [effect, hcount]
  obtain ⟨hstate, hcontents, -⟩ := append_completes h (a := s.arg0) (n := s.arg1.toNat)
    (hcount ▸ Nat.min_le_right _ _) s.arg1.toNat (truncated s.arg1.toNat s.arg1.toNat)
  rw [contents_of_empty hempty, List.nil_append] at hcontents
  have hzero : s.length.toNat = 0 := congrArg BitVec.toNat hempty
  rw [heffect]
  refine ⟨?_, ?_, hcontents⟩
  · rw [finish_result, BitVec.ofNat_toNat, BitVec.setWidth_eq]
  · rw [hstate, hzero, Nat.zero_add, BitVec.ofNat_toNat, BitVec.setWidth_eq]

/-- A READ of exactly LENGTH bytes copies them all and empties the ring. -/
theorem effect_read_all {s : State} (h : RingAndMemory s) (hbuf : BufferReady s s.arg0 s.arg1)
    (hall : s.length = s.arg1) :
    (effect .read s).result = s.arg1 ∧ (effect .read s).trunc = false ∧ (effect .read s).length = 0 ∧
      (effect .read s).mem.hostBytes s.arg0.toNat s.arg1.toNat = contents s := by
  have hcount : readCount s = s.arg1.toNat := by rw [readCount, hall, Nat.min_self]
  obtain ⟨hbytes, -, -⟩ := copyOut_into_buffer (off := 0) h hbuf (readCount_le s)
  rw [ringBytes_readCount, List.take_of_length_le (by rw [contents_length, hall]), hcount] at hbytes
  refine ⟨?_, ?_, ?_, ?_⟩
  · simp only [effect, finish_result, hcount, BitVec.ofNat_toNat, BitVec.setWidth_eq]
  · simp only [effect, finish_trunc, hcount, truncated, lt_irrefl, decide_false]
  · simp only [effect, finish_length, remove_length, copyOut_length, hcount, hall, Nat.sub_self]
    rfl
  · simp only [effect, finish_mem, remove_mem, hcount]
    exact hbytes

/-- After a WRITE to an empty ring, a READ of as many bytes into a ready buffer is ready: its bytes stand in the places
that the WRITE has found backed. -/
theorem readReady_after_write {s : State} {out : Word} (hs : MachineInv s) (hw : WriteReady s)
    (hempty : s.length = 0) (hn : s.arg1.toNat ≤ s.capacity.toNat) (hbuf : BufferReady s out s.arg1)
    (hback : BufferBacked s out s.arg1.toNat) : ReadReady { effect .write s with arg0 := out } := by
  obtain ⟨⟨hb, hring⟩, -, -, hfree⟩ := id hw
  have hring' := (ringAndMemory_of_bound (exec_machineInv hs (exec_write_of_ready hw)) hb).1
  have hle := Nat.min_le_left s.arg1.toNat (effect .write s).length.toNat
  have hplaces : LiveBacked s 0 (min s.arg1.toNat (effect .write s).length.toNat) := fun j hj => by
    have hall : min s.arg1.toNat (space s) = s.arg1.toNat := writeCount_of_empty hempty hn
    have hplace : liveAddr s (0 + j) = freeAddr s j := by
      rw [Nat.zero_add, freeAddr_of_empty hring hempty (by omega)]
    exact (congrArg (byteBacked s.cfg) hplace).trans (hfree j (by omega))
  exact ⟨⟨hb, hring'⟩, hbuf, hplaces, fun j hj => hback j (lt_of_lt_of_le hj hle)⟩

end Sys2Proof.Machine
end

section
/-! The statements about the Core Ring commands, settled (40_core_ring.md). -/

namespace Sys2Proof.Proofs

open Sys2Proof.Machine Sys2Proof.Safety

/-- Settles O21: both two-segment rules are the one sum modulo CAPACITY. -/
theorem twoSegmentsAreModular : Obligations.TwoSegmentsAreModular :=
  fun _ _ _ hi hm => ⟨adv_eq_mod hi hm, fun _ => phys_eq_mod hi hm⟩

/-- Settles O23: INIT's two checks decide which, and the bound gate fails every other command on an unbound ring. -/
theorem initBindsEmptyRing : Obligations.InitBindsEmptyRing := by
  refine ⟨rfl, fun s => ⟨exec_init_of_not_ready, fun h => ⟨_, exec_init_of_ready h, rfl⟩, fun hb i t h hok => ?_⟩⟩
  by_contra hi
  obtain ⟨body, hbody⟩ := exec_gated hi s
  rw [hbody, boundGate_of_unbound hb] at h
  cases h
  exact absurd hok nofun

/-- Settles O24: CLEAR has the bound gate alone before it empties the ring. -/
theorem clearEmptiesRing : Obligations.ClearEmptiesRing :=
  ⟨rfl, fun _ hb => boundGate_of_bound hb _⟩

/-- Settles O25: the live bytes are as many as LENGTH says. -/
theorem lengthReportsLiveBytes : Obligations.LengthReportsLiveBytes := by
  refine ⟨rfl, fun s hb => ?_⟩
  rw [contents_length]
  have hmirror : readRegister s 0x28 = s.length := rfl
  exact ⟨boundGate_of_bound hb _, by rw [hmirror, BitVec.ofNat_toNat, BitVec.setWidth_eq]⟩

/-- Settles O26: under R27 the subtraction does not wrap. -/
theorem spaceReportsFreeBytes : Obligations.SpaceReportsFreeBytes := by
  refine ⟨rfl, fun s ⟨hb, _, _, hlen, _⟩ => ?_⟩
  have hsub : (s.capacity - s.length).toNat = space s := BitVec.toNat_sub_of_le hlen
  have hresult : BitVec.ofNat 32 (space s) = s.capacity - s.length := by
    rw [← hsub, BitVec.ofNat_toNat, BitVec.setWidth_eq]
  refine ⟨?_, by rw [hsub]; exact Nat.add_sub_of_le hlen⟩
  rw [← hresult]
  exact boundGate_of_bound hb _

/-- Settles O27: the append of the bytes that fit. -/
theorem writeAppendsWhatFits : Obligations.WriteAppendsWhatFits := by
  refine ⟨rfl, fun s => ⟨fun hb => exec_of_badBuffer rfl fun _ => hb, fun hs h => ?_⟩⟩
  rw [← truncated_min]
  exact ⟨_, exec_write_of_ready h, append_completes (ringAndMemory_of_bound hs h.1.1) (Nat.min_le_right _ _) _ _⟩

/-- Settles O28: the space check stands between the overlap contract and the append of all `n` bytes. -/
theorem writeAllIsStrict : Obligations.WriteAllIsStrict := by
  refine ⟨rfl, fun s => ⟨fun hb => exec_of_badBuffer rfl fun _ => hb, exec_writeAll_of_full, fun hs h => ?_⟩⟩
  obtain ⟨⟨hb, -⟩, -, hspace, -⟩ := id h
  have hsum : s.length + s.arg1 = BitVec.ofNat 32 (s.length.toNat + s.arg1.toNat) := by
    simp only [BitVec.ofNat_add, BitVec.ofNat_toNat, BitVec.setWidth_eq]
  rw [hsum]
  exact ⟨_, exec_writeAll_of_ready h, append_completes (ringAndMemory_of_bound hs hb) hspace _ _⟩

/-- Settles O29: PEEK's copy, then the removal of what was copied. -/
theorem readRemovesFromFront : Obligations.ReadRemovesFromFront := by
  refine ⟨rfl, fun s => ⟨fun hb => exec_of_badBuffer rfl fun _ => hb, fun hs h => ?_⟩⟩
  obtain ⟨⟨hb, hring⟩, hbuf, -⟩ := id h
  obtain ⟨hbytes, hcontents, hkept⟩ :=
    copyOut_into_buffer (off := 0) (ringAndMemory_of_bound hs hb) hbuf (readCount_le s)
  have hle : readCount s ≤ s.length.toNat := Nat.min_le_right _ _
  obtain ⟨-, -, -, hrest⟩ := remove_spec (s := copyOut s s 0 (readCount s) s.arg0.toNat) hring hle
  refine ⟨_, exec_read_of_ready h, ?_, hbytes.trans (ringBytes_readCount s), ?_, hkept⟩
  · rw [← truncated_min, show s.length.toNat - s.arg1.toNat = s.length.toNat - readCount s by unfold readCount; omega]
    exact finish_remove (s := copyOut s s 0 (readCount s) s.arg0.toNat) hring hle _ _ _
  · refine hrest.trans ?_
    rw [hcontents, List.drop_eq_drop_iff, contents_length, readCount]
    omega

/-- Settles O30: the copy into a buffer apart from the storage region. -/
theorem peekCopiesFromFront : Obligations.PeekCopiesFromFront := by
  refine ⟨rfl, fun s => ⟨fun hb => exec_of_badBuffer rfl fun _ => hb, fun hs h => ?_⟩⟩
  obtain ⟨⟨hb, -⟩, hbuf, -⟩ := id h
  obtain ⟨hbytes, hcontents, hkept⟩ :=
    copyOut_into_buffer (off := 0) (ringAndMemory_of_bound hs hb) hbuf (peekCount_le s)
  refine ⟨_, exec_peek_of_ready h, ?_, hbytes.trans (ringBytes_readCount s), hcontents, hkept⟩
  rw [← truncated_min]
  rfl

/-- Settles O31: the same copy from an offset. -/
theorem peekOffsetCopiesFromOffset : Obligations.PeekOffsetCopiesFromOffset := by
  refine ⟨rfl, fun s => ⟨fun hb => exec_of_badBuffer rfl fun _ => hb, fun hs h => ?_⟩⟩
  obtain ⟨⟨hb, -⟩, hbuf, -⟩ := id h
  obtain ⟨hbytes, hcontents, hkept⟩ :=
    copyOut_into_buffer (off := s.arg0.toNat) (ringAndMemory_of_bound hs hb) hbuf (peekOffsetCount_le s)
  rw [← ringBytes_peekOffsetCount, ringBytes_length]
  exact ⟨_, exec_peekOffset_of_ready h, rfl, hbytes, hcontents, hkept⟩

/-- Settles O32: the removal alone. -/
theorem discardDropsFromFront : Obligations.DiscardDropsFromFront := by
  refine ⟨rfl, fun s ⟨hb, hring⟩ => ?_⟩
  have hstate := finish_remove hring (m := discardCount s) (Nat.min_le_right _ _) .ok (discardCount s)
    (truncated (discardCount s) s.arg0.toNat)
  rw [← truncated_min, show s.length.toNat - s.arg0.toNat = s.length.toNat - discardCount s by
    unfold discardCount; omega]
  exact (exec_discard_of_bound hb).trans (congrArg _ hstate)

/-- Settles O33: the loop of R120 gives the first match. -/
theorem findGivesFirstMatch : Obligations.FindGivesFirstMatch := by
  have fits : ∀ {s : State}, FindReady s → s.arg0.toNat + s.arg2.toNat ≤ s.length.toNat := fun h => by
    obtain ⟨-, -, -, hoff, hlen, -⟩ := h
    omega
  refine ⟨rfl, fun s => ⟨exec_find_of_invalid, fun h k hm hfirst => ?_, fun h hno => ?_⟩⟩
  · rw [exec_find_of_ready h, findResult_of_some (search_of_first (fits h) hm hfirst)]
  · rw [exec_find_of_ready h, findResult_of_none (search_of_none (fits h) hno)]

/-- Settles O44: the WRITE makes the source's bytes the live ones, and the READ copies and removes all of them. -/
theorem writeThenReadRoundTrip : Obligations.WriteThenReadRoundTrip := by
  intro s out hs hw hempty hcap hbuf hback
  obtain ⟨⟨hb, -⟩, -⟩ := id hw
  have hwrite := exec_write_of_ready hw
  obtain ⟨hresult, hlen, hcontents⟩ := effect_write_of_empty (ringAndMemory_of_bound hs hb) hempty hcap
  have hready := readReady_after_write hs hw hempty hcap hbuf hback
  have hafter : RingAndMemory (effect .write s) := ringAndMemory_of_bound (exec_machineInv hs hwrite) hb
  obtain ⟨hresult', htrunc, hlen', hbytes⟩ :=
    effect_read_all (s := { effect .write s with arg0 := out }) hafter hbuf hlen
  exact ⟨_, _, hwrite, exec_read_of_ready hready, rfl, hresult, rfl, hresult', htrunc, hlen', hbytes.trans hcontents⟩

/-- Settles O47: the first PEEK leaves the ring and its own bytes, so the second copies them to where they stand. -/
theorem peekTwiceIsPeekOnce : Obligations.PeekTwiceIsPeekOnce := by
  intro s hs h
  obtain ⟨⟨hb, -⟩, hbuf, -⟩ := id h
  have hend := hbuf.1.2
  have hcount := peekCount_le s
  have hpeek := exec_peek_of_ready h
  obtain ⟨hbytes, hcontents, -⟩ := copyOut_into_buffer (off := 0) (ringAndMemory_of_bound hs hb) hbuf hcount
  have hwf : (effect .peek s).mem.wf := (ringAndMemory_of_bound (exec_machineInv hs hpeek) hb).2
  have hcopied : (effect .peek s).mem.hostBytes s.arg0.toNat (peekCount s) =
      ringBytes (effect .peek s) 0 (peekCount s) := by
    calc (effect .peek s).mem.hostBytes s.arg0.toNat (peekCount s)
        = (contents s).take s.arg1.toNat := hbytes.trans (ringBytes_readCount s)
      _ = (contents (effect .peek s)).take s.arg1.toNat := congrArg _ hcontents.symm
      _ = ringBytes (effect .peek s) 0 (peekCount s) := (ringBytes_readCount (effect .peek s)).symm
  have hagain : copyOut (effect .peek s) (effect .peek s) 0 (peekCount s) s.arg0.toNat = effect .peek s :=
    copyOut_of_copied hwf (by omega) hcopied
  refine ⟨_, _, hpeek, exec_peek_of_ready (s := effect .peek s) h, ?_⟩
  calc effect .peek (effect .peek s)
      = finish (copyOut (effect .peek s) (effect .peek s) 0 (peekCount s) s.arg0.toNat) .ok (peekCount s)
          (truncated (peekCount s) s.arg1.toNat) := rfl
    _ = finish (effect .peek s) .ok (peekCount s) (truncated (peekCount s) s.arg1.toNat) := by rw [hagain]
    _ = effect .peek s := rfl

/-- Settles O48: DISCARD's count and removal are READ's, and READ's copy writes host memory alone. -/
theorem discardIsReadWithoutCopy : Obligations.DiscardIsReadWithoutCopy :=
  fun s _ h => ⟨_, _, exec_read_of_ready h, exec_discard_of_bound (s := { s with arg0 := s.arg1 }) h.1.1, rfl⟩

end Sys2Proof.Proofs
end

section
/-! Two appends in a row are one, and a block on the wire is the prefix and the payload that WRITE_BLOCK appends
(40_core_ring.md R104, 41_block_codec.md R140, R143). -/

namespace Sys2Proof.Machine

open Sys2Proof.Safety

/-! ## Runs of writes -/

theorem storeRun_append (addr : Nat → Nat) (bs cs : List Byte) : ∀ (m : Memory) (j : Nat),
    m.storeRun addr j (bs ++ cs) = (m.storeRun addr j bs).storeRun addr (j + bs.length) cs := by
  induction bs with
  | nil => exact fun _ _ => rfl
  | cons b bs ih =>
    intro m j
    simp only [List.cons_append, Memory.storeRun, ih, List.length_cons]
    rw [Nat.add_right_comm, Nat.add_assoc]

/-- Where a run stores depends on its own places alone. -/
theorem storeRun_congr {f g : Nat → Nat} {bs : List Byte} : ∀ {m : Memory} {j k : Nat},
    (∀ i < bs.length, f (j + i) = g (k + i)) → m.storeRun f j bs = m.storeRun g k bs := by
  induction bs with
  | nil => exact fun _ => rfl
  | cons b bs ih =>
    intro m j k h
    have hfirst : f j = g k := h 0 (Nat.zero_lt_succ _)
    simp only [Memory.storeRun, hfirst]
    refine ih fun i hi => ?_
    have hnext := h (i + 1) (Nat.succ_lt_succ hi)
    rwa [Nat.add_right_comm, Nat.add_right_comm k]

/-! ## Appends -/

/-- Appending behind what was just appended is appending both at once. -/
theorem append_append {s : State} (hw : s.wrIdx.toNat < s.capacity.toNat) {a b : List Byte}
    (h : a.length + b.length ≤ s.capacity.toNat) : append (append s a) b = append s (a ++ b) := by
  obtain ⟨hidx, -⟩ := append_wrIdx_toNat hw (b := a) (by omega)
  have hmem : (append (append s a) b).mem = (append s (a ++ b)).mem := by
    rw [append_mem, append_mem, append_mem, storeRun_append]
    refine storeRun_congr fun i hi => ?_
    rw [Nat.zero_add, Nat.zero_add, freeAddr_append hw (by omega)]
  have hwr : (append (append s a) b).wrIdx = (append s (a ++ b)).wrIdx := by
    rw [append_wrIdx, hidx, append_wrIdx, List.length_append]
    exact congrArg (BitVec.ofNat 32) (phys_adv hw h)
  have hlen : (append (append s a) b).length = (append s (a ++ b)).length := by
    rw [append_length, append_length, append_length, List.length_append]
    apply BitVec.eq_of_toNat_eq
    simp only [BitVec.toNat_ofNat]
    omega
  calc append (append s a) b
      = { s with
          mem := (append (append s a) b).mem
          wrIdx := (append (append s a) b).wrIdx
          length := (append (append s a) b).length } := rfl
    _ = append s (a ++ b) := by rw [hmem, hwr, hlen]; rfl

theorem finish_append {s : State} (hr : RingInv s) {b : List Byte} (hb : b.length ≤ space s) (c : StatusCode)
    (r : Nat) (tr : Bool) :
    finish (append s b) c r tr =
      { completed s c r tr with
        mem := (append s b).mem
        length := BitVec.ofNat 32 (s.length.toNat + b.length)
        wrIdx := BitVec.ofNat 32 ((s.wrIdx.toNat + b.length) % s.capacity.toNat) } := by
  obtain ⟨-, -, -, hw, -⟩ := hr
  rw [← adv_eq_mod hw (hb.trans space_le_capacity)]
  rfl

/-! ## Backed runs of places -/

/-- A backed run of places is a backed first part and a backed rest. -/
theorem backed_split {s : State} {f : Nat → Nat} {m n : Nat} (h : Backed s f (m + n)) :
    Backed s f m ∧ Backed s (fun j => f (m + j)) n :=
  ⟨fun j hj => h j (by omega), fun j hj => h (m + j) (by omega)⟩

/-- Where memory backs one run of free places, it backs both appends of WRITE_BLOCK. -/
theorem admitsAll_withPrefix {s : State} (hr : RingInv s) {v n : Nat} (hfit : prefixBytes s + n ≤ space s)
    (h : Backed s (freeAddr s) (prefixBytes s + n)) :
    admitsAll s (freeBytes s (prefixBytes s)) = true ∧ admitsAll s (freeBytes (withPrefix s v) n) = true := by
  obtain ⟨-, -, -, hw, -⟩ := hr
  have hcap := space_le_capacity (s := s)
  obtain ⟨hprefix, hrest⟩ := backed_split h
  refine ⟨admitsAll_freeBytes.mpr hprefix, admitsAll_map.mpr fun j hj => ?_⟩
  rw [withPrefix, freeAddr_append hw (by rw [prefixEnc_length]; omega), prefixEnc_length]
  exact hrest j hj

/-! ## WRITE_BLOCK (R143) -/

theorem exec_writeBlock_of_ready {s : State} (h : WriteBlockReady s) :
    exec .writeBlock s = .next (effect .writeBlock s) := by
  obtain ⟨⟨hb, hring⟩, hbuf, hfit, hsource, hfree⟩ := h
  obtain ⟨hprefix, hpayload⟩ := admitsAll_withPrefix (v := s.arg1.toNat) hring hfit hfree
  exact exec_of_bufferReady nofun rfl hb hbuf hfit
    (admitsAll_append.mpr ⟨admitsAll_append.mpr ⟨hprefix, admitsAll_bufferBytes.mpr hsource⟩, hpayload⟩)

theorem exec_writeBlock_of_full {s : State} (hb : s.bound = true) (hbuf : BufferReady s s.arg0 s.arg1)
    (hfull : space s < prefixBytes s + s.arg1.toNat) :
    exec .writeBlock s = .next (completed s .insufficientSpace 0 false) := by
  have hkept : overlapFree .writeBlock s = true := overlapFree_of_apart nofun rfl hbuf.2
  refine (gates_pass hb (i := .writeBlock) (references_ok rfl hbuf.1) _).trans ?_
  exact (keepContract_of_ok hkept _).trans (if_pos hfull)

/-- WRITE_BLOCK's two appends are the append of one block on the wire. -/
theorem effect_writeBlock {s : State} (hr : RingInv s) (hfit : prefixBytes s + s.arg1.toNat ≤ space s) :
    effect .writeBlock s =
      finish (append s (blockWire s (s.mem.hostBytes s.arg0.toNat s.arg1.toNat))) .ok
        (prefixBytes s + s.arg1.toNat) false := by
  obtain ⟨-, -, -, hw, -⟩ := hr
  have hcap := space_le_capacity (s := s)
  have hlen : (prefixEnc (prefixBytes s) s.arg1.toNat).length +
      (s.mem.hostBytes s.arg0.toNat s.arg1.toNat).length ≤ s.capacity.toNat := by
    rw [prefixEnc_length, hostBytes_length]; omega
  rw [effect, withPrefix, append_append hw hlen, blockWire, hostBytes_length]

/-- What WRITE_BLOCK has done when it completes: the whole state, the live bytes, and no byte written but the places
appended to. -/
theorem writeBlock_completes {s : State} (hs : MachineInv s) (h : WriteBlockReady s) :
    effect .writeBlock s =
        { completed s .ok (prefixBytes s + s.arg1.toNat) false with
          mem := (effect .writeBlock s).mem
          length := BitVec.ofNat 32 (s.length.toNat + (prefixBytes s + s.arg1.toNat))
          wrIdx := BitVec.ofNat 32 ((s.wrIdx.toNat + (prefixBytes s + s.arg1.toNat)) % s.capacity.toNat) } ∧
      contents (effect .writeBlock s) = contents s ++ blockWire s (s.mem.hostBytes s.arg0.toNat s.arg1.toNat) ∧
      MemoryKeptButAppended s (effect .writeBlock s) (prefixBytes s + s.arg1.toNat) := by
  obtain ⟨⟨hb, hring⟩, -, hfit, -⟩ := h
  have hlen : (blockWire s (s.mem.hostBytes s.arg0.toNat s.arg1.toNat)).length = prefixBytes s + s.arg1.toNat := by
    rw [blockWire_length, hostBytes_length]
  have hspace := hlen.trans_le hfit
  have hstate := finish_append hring hspace .ok (prefixBytes s + s.arg1.toNat) false
  obtain ⟨-, -, -, -, hcontents, hkept⟩ := append_spec hring (ringAndMemory_of_bound hs hb).2 hspace
  rw [hlen] at hstate hkept
  rw [effect_writeBlock hring hfit]
  exact ⟨hstate, hcontents, hkept⟩

end Sys2Proof.Machine
end

section
/-! When each reader of a block leaves its effect, and when it fails (20_memory.md R53, R57, R60, 41_block_codec.md
R141, R144 to R147). -/

namespace Sys2Proof.Machine

open Sys2Proof.Safety

/-! ## The bytes of `Head(0)` and of a block that is copied out -/

theorem admitsAll_headBytes {s : State} : admitsAll s (headBytes s 0) = true ↔ LiveBacked s 0 (headSpan s) := by
  rw [headBytes_eq, admitsAll_liveBytes]

theorem headSpan_of_present {s : State} (h : BlockPresent s) : headSpan s = prefixBytes s :=
  if_neg (Nat.not_lt.mpr h.1)

/-- The prefix, the payload and the buffer of a block that is ready to be copied out are backed. -/
theorem admitsAll_of_blockOutReady {s : State} {n : Nat} (hp : BlockPresent s) (h : BlockOutReady s n) :
    admitsAll s (headBytes s 0 ++ liveBytes s (prefixBytes s) n ++ bufferBytes s.arg0.toNat n) = true := by
  obtain ⟨⟨-, hlive⟩, -, hout⟩ := h
  obtain ⟨hprefix, hpayload⟩ := backed_split hlive
  rw [← headSpan_of_present hp] at hprefix
  simp only [Nat.zero_add] at hpayload
  exact admitsAll_append.mpr ⟨admitsAll_append.mpr ⟨admitsAll_headBytes.mpr hprefix,
    admitsAll_liveBytes.mpr hpayload⟩, admitsAll_bufferBytes.mpr hout⟩

/-! ## The failing checks -/

/-- Every codec reader reports NOT_PRESENT where no complete block is buffered (R141, R161). -/
theorem exec_of_absent {i : Instr} {s : State} (hi : readsPrefix i = true) (hlook : LookReady s (headSpan s))
    (hr : ∀ r ∈ referenceOperands i s, regionOK r = true) (habsent : ¬ BlockPresent s) :
    exec i s = .next (completed s .notPresent 0 false) := by
  obtain ⟨⟨hb, -⟩, hlive⟩ := hlook
  have hfail : touchBytes s (headBytes s 0) (fail s .notPresent) = .next (completed s .notPresent 0 false) :=
    touchBytes_of_ok (admitsAll_headBytes.mpr hlive)
  cases i with
  | peekBlockLength | discardBlock =>
    refine (boundGate_of_bound hb _).trans ?_
    rw [head_zero, if_neg habsent]
    exact hfail
  | readBlock | peekBlock =>
    refine (gates_pass hb hr _).trans ?_
    rw [head_zero, if_neg habsent]
    exact hfail
  | peekFrame | readFrame =>
    refine (gates_pass hb hr _).trans ?_
    rw [frameCheck_eq, if_neg habsent]
    exact hfail
  | _ => exact absurd hi nofun

theorem exec_readBlock_of_small {s : State} (hlook : LookReady s (headSpan s)) (href : ReferenceOK s.arg0 s.arg1)
    (hp : BlockPresent s) (hsmall : s.arg1.toNat < declaredLength s) :
    exec .readBlock s = .next (completed s .destTooSmall 0 false) := by
  obtain ⟨⟨hb, -⟩, hlive⟩ := hlook
  refine (gates_pass hb (i := .readBlock) (references_ok rfl href) _).trans ?_
  rw [head_zero, if_pos hp]
  exact (if_pos hsmall).trans (touchBytes_of_ok (admitsAll_headBytes.mpr hlive))

/-! ## The effects -/

/-- The commands that only look at the prefix ask for no byte beyond it. -/
theorem exec_of_present {i : Instr} {s : State} (hi : i = .peekBlockLength ∨ i = .discardBlock)
    (hlook : LookReady s (headSpan s)) (hp : BlockPresent s) : exec i s = .next (effect i s) := by
  obtain ⟨⟨hb, -⟩, hlive⟩ := hlook
  have hhead := admitsAll_headBytes.mpr hlive
  rcases hi with rfl | rfl
  · exact exec_done (fun _ => hb) (List.forall_mem_nil _) hp (overlapFree_of_readOnly rfl rfl) hhead
  · exact exec_done (fun _ => hb) (List.forall_mem_nil _) hp (overlapFree_of_readOnly rfl rfl) hhead

theorem exec_readBlock_of_ready {s : State} (hp : BlockPresent s) (hcap : declaredLength s ≤ s.arg1.toNat)
    (h : BlockOutReady s (declaredLength s)) : exec .readBlock s = .next (effect .readBlock s) :=
  exec_of_bufferReady nofun rfl h.1.1.1 h.2.1 ⟨hp, hcap⟩ (admitsAll_of_blockOutReady hp h)

theorem exec_peekBlock_of_ready {s : State} (hp : BlockPresent s)
    (h : BlockOutReady s (min (declaredLength s) s.arg1.toNat)) :
    exec .peekBlock s = .next (effect .peekBlock s) :=
  exec_of_bufferReady nofun rfl h.1.1.1 h.2.1 hp (admitsAll_of_blockOutReady hp h)

/-- What READ_BLOCK has done when it completes: the whole state, the payload in the buffer, the live bytes behind the
block, and no byte written but the buffer's. -/
theorem readBlock_completes {s : State} (hs : MachineInv s) (hp : BlockPresent s)
    (hcap : declaredLength s ≤ s.arg1.toNat) (h : BlockOutReady s (declaredLength s)) :
    effect .readBlock s =
        { completed s .ok (declaredLength s) false with
          mem := (effect .readBlock s).mem
          length := BitVec.ofNat 32 (s.length.toNat - (prefixBytes s + declaredLength s))
          rdIdx := BitVec.ofNat 32
            ((s.rdIdx.toNat + (prefixBytes s + declaredLength s)) % s.capacity.toNat) } ∧
      (effect .readBlock s).mem.hostBytes s.arg0.toNat (declaredLength s) =
        ((contents s).drop (prefixBytes s)).take (declaredLength s) ∧
      contents (effect .readBlock s) = (contents s).drop (prefixBytes s + declaredLength s) ∧
      MemoryKeptOutside s (effect .readBlock s) s.arg0.toNat (declaredLength s) := by
  obtain ⟨⟨⟨hb, hring⟩, -⟩, hbuf, -⟩ := h
  have hlen := prefix_add_declaredLength_le hp
  obtain ⟨hbytes, hcontents, hkept⟩ :=
    copyOut_into_buffer (off := prefixBytes s) (ringAndMemory_of_bound hs hb) hbuf hcap
  rw [ringBytes_eq_slice hlen] at hbytes
  obtain ⟨-, -, -, hrest⟩ :=
    remove_spec (s := copyOut s s (prefixBytes s) (declaredLength s) s.arg0.toNat) hring hlen
  rw [hcontents] at hrest
  exact ⟨finish_remove (s := copyOut s s (prefixBytes s) (declaredLength s) s.arg0.toNat) hring hlen _ _ _, hbytes,
    hrest, hkept⟩

end Sys2Proof.Machine
end

section
/-! The walk of the counters over blocks back to back (41_block_codec.md R140, R142, R148). -/

namespace Sys2Proof.Machine

open Sys2Proof.Safety

/-! ## The wire format and `Head` -/

/-- Every prefix is the encoding of its value (R55). -/
theorem prefixEnc_prefixValue : ∀ bs : List Byte, prefixEnc bs.length (prefixValue bs) = bs
  | [] => rfl
  | b :: bs => by
    have hlow : BitVec.ofNat 8 (b.toNat + 256 * prefixValue bs) = b := by
      apply BitVec.eq_of_toNat_eq
      rw [BitVec.toNat_ofNat, Nat.add_mul_mod_self_left, Nat.mod_eq_of_lt b.isLt]
    have hhigh : (b.toNat + 256 * prefixValue bs) / 256 = prefixValue bs := by
      have := b.isLt
      omega
    rw [List.length_cons, prefixEnc, prefixValue, hlow, hhigh, prefixEnc_prefixValue bs]

/-- Where `Head` finds a block, the live bytes from there on are that block on the wire and what stands behind it. -/
theorem blockWire_of_head {s : State} {off len : Nat} (ho : off ≤ s.length.toNat) (h : head s off = some len) :
    ∃ p tail, (contents s).drop off = blockWire s p ++ tail ∧ p.length = len := by
  rw [head_eq s ho] at h
  generalize (contents s).drop off = live at h
  split_ifs at h with hprefix hpayload
  obtain rfl := Option.some.inj h
  have hp : ((live.drop (prefixBytes s)).take (prefixValue (live.take (prefixBytes s)))).length =
      prefixValue (live.take (prefixBytes s)) := by
    rw [List.length_take, List.length_drop]
    omega
  have henc : prefixEnc (prefixBytes s) (prefixValue (live.take (prefixBytes s))) = live.take (prefixBytes s) := by
    have hfull : (live.take (prefixBytes s)).length = prefixBytes s := by
      rw [List.length_take]
      omega
    have := prefixEnc_prefixValue (live.take (prefixBytes s))
    rwa [hfull] at this
  refine ⟨_, (live.drop (prefixBytes s)).drop (prefixValue (live.take (prefixBytes s))), ?_, hp⟩
  rw [blockWire, hp, henc, List.append_assoc, List.take_append_drop, List.take_append_drop]

/-- Behind a block the live bytes go on where the walk goes on. -/
theorem drop_behind_block {s : State} {off : Nat} {p tail : List Byte}
    (h : (contents s).drop off = blockWire s p ++ tail) :
    (contents s).drop (off + prefixBytes s + p.length) = tail := by
  rw [Nat.add_assoc, ← List.drop_drop, h, ← blockWire_length s p, List.drop_left]

theorem length_behind_block {s : State} {off : Nat} {p tail : List Byte}
    (h : (contents s).drop off = blockWire s p ++ tail) :
    s.length.toNat - off = prefixBytes s + p.length + tail.length := by
  simpa using congrArg List.length h

/-- A ring whose live bytes begin with a block on the wire has that block present, with its payload's length. -/
theorem present_of_blockWire {s : State} {p tail : List Byte} (h : contents s = blockWire s p ++ tail) :
    BlockPresent s ∧ declaredLength s = p.length := by
  have hhead := head_of_blockWire (Nat.zero_le _) (by rwa [List.drop_zero])
  rw [head_zero] at hhead
  split_ifs at hhead with hp
  exact ⟨hp, Option.some.inj hhead⟩

/-! ## The walk -/

theorem blocksWire_cons (s : State) (p : List Byte) (ps : List (List Byte)) :
    blocksWire s (p :: ps) = blockWire s p ++ blocksWire s ps := rfl

/-- The walk over blocks back to back counts them. -/
theorem walkFrom_of_blocks {s : State} {payloads : List (List Byte)} : ∀ {fuel off count : Nat},
    off ≤ s.length.toNat → s.length.toNat ≤ off + fuel → (contents s).drop off = blocksWire s payloads →
    walkFrom s fuel off count = some (count + payloads.length) := by
  have hpos := prefixBytes_pos s
  induction payloads with
  | nil =>
    intro fuel off count ho _ h
    have hend : ¬ off < s.length.toNat := by
      have := congrArg List.length h
      rw [List.length_drop, contents_length] at this
      exact Nat.not_lt.mpr (Nat.le_of_sub_eq_zero this)
    cases fuel <;> exact if_neg hend
  | cons p ps ih =>
    intro fuel off count ho hfuel h
    rw [blocksWire_cons] at h
    have hlen := length_behind_block h
    obtain ⟨fuel, rfl⟩ : ∃ n, fuel = n + 1 := ⟨fuel - 1, by omega⟩
    rw [walkFrom, if_pos (by omega), head_of_blockWire ho h]
    refine (ih (by omega) (by omega) (drop_behind_block h)).trans ?_
    rw [List.length_cons, Nat.add_right_comm, Nat.add_assoc]

/-- A walk that gives a count has gone over blocks back to back. -/
theorem blocks_of_walkFrom {s : State} {k : Nat} : ∀ {fuel off count : Nat}, off ≤ s.length.toNat →
    walkFrom s fuel off count = some k → ∃ payloads, (contents s).drop off = blocksWire s payloads := by
  have atEnd : ∀ {off}, ¬ off < s.length.toNat → ∃ payloads, (contents s).drop off = blocksWire s payloads :=
    fun h => ⟨[], List.drop_of_length_le (by rw [contents_length]; exact Nat.not_lt.mp h)⟩
  intro fuel
  induction fuel with
  | zero =>
    intro off count _ h
    rw [walkFrom] at h
    split_ifs at h with hend
    exact atEnd hend
  | succ fuel ih =>
    intro off count ho h
    rw [walkFrom] at h
    split_ifs at h with hlt
    · cases hhead : head s off with
      | none => rw [hhead] at h; cases h
      | some len =>
        rw [hhead] at h
        obtain ⟨p, tail, hwire, rfl⟩ := blockWire_of_head ho hhead
        have hlen := length_behind_block hwire
        obtain ⟨ps, hps⟩ := ih (by omega) h
        rw [drop_behind_block hwire] at hps
        exact ⟨p :: ps, by rw [hwire, hps, blocksWire_cons]⟩
    · exact atEnd hlt

theorem walk_of_blocks {s : State} {payloads : List (List Byte)} (h : contents s = blocksWire s payloads) :
    walk s = some payloads.length := by
  refine (walkFrom_of_blocks (Nat.zero_le _) (Nat.le_add_left _ _) ?_).trans (congrArg some (Nat.zero_add _))
  rwa [List.drop_zero]

theorem walk_of_no_blocks {s : State} (h : ¬ ∃ payloads, contents s = blocksWire s payloads) : walk s = none := by
  cases hw : walk s with
  | none => rfl
  | some k => exact absurd (blocks_of_walkFrom (Nat.zero_le _) hw) h

theorem countResult_of_blocks {s : State} {payloads : List (List Byte)} (h : contents s = blocksWire s payloads) :
    countResult s = completed s .ok payloads.length false := by
  rw [countResult, walk_of_blocks h]
  rfl

theorem countResult_of_no_blocks {s : State} (h : ¬ ∃ payloads, contents s = blocksWire s payloads) :
    countResult s = completed s .corrupt 0 false := by
  rw [countResult, walk_of_no_blocks h]
  rfl

/-! ## The bytes the walk touches -/

theorem headBytes_backed {s : State} (h : LiveBacked s 0 s.length.toNat) (off : Nat) :
    admitsAll s (headBytes s off) = true := by
  have hpos := prefixBytes_pos s
  unfold headBytes
  split
  · rfl
  · refine admitsAll_liveBytes.mpr fun j hj => ?_
    have hback : byteBacked s.cfg (liveAddr s (0 + (off + j))) = true := h (off + j) (by omega)
    rwa [Nat.zero_add] at hback

/-- The walk reads live bytes alone. -/
theorem walkBytesFrom_backed {s : State} (h : LiveBacked s 0 s.length.toNat) (fuel : Nat) :
    ∀ off, admitsAll s (walkBytesFrom s fuel off) = true := by
  induction fuel with
  | zero => exact fun _ => rfl
  | succ fuel ih =>
    intro off
    unfold walkBytesFrom
    split
    · split
      · exact headBytes_backed h off
      · exact admitsAll_append.mpr ⟨headBytes_backed h off, ih _⟩
    · rfl

theorem exec_countBlocks_of_backed {s : State} (h : LookReady s s.length.toNat) :
    exec .countBlocks s = .next (countResult s) :=
  exec_done (i := .countBlocks) (fun _ => h.1.1) (List.forall_mem_nil _) trivial (overlapFree_of_readOnly rfl rfl)
    (walkBytesFrom_backed h.2 _ 0)

end Sys2Proof.Machine
end

section
/-! A block written to an empty ring, and the READ_BLOCK of it (95_test_vectors.md L1.3). -/

namespace Sys2Proof.Machine

open Sys2Proof.Safety

/-- After a WRITE_BLOCK to an empty ring the live bytes are that block. -/
theorem contents_writeBlock_of_empty {s : State} (hs : MachineInv s) (h : WriteBlockReady s)
    (hempty : s.length = 0) :
    contents (effect .writeBlock s) = blockWire s (s.mem.hostBytes s.arg0.toNat s.arg1.toNat) := by
  obtain ⟨-, hcontents, -⟩ := writeBlock_completes hs h
  rwa [contents_of_empty hempty] at hcontents

/-- The block stands in the places that the WRITE_BLOCK has found backed. -/
theorem lookReady_after_writeBlock {s : State} (hs : MachineInv s) (h : WriteBlockReady s) (hempty : s.length = 0) :
    LookReady (effect .writeBlock s) (prefixBytes s + s.arg1.toNat) := by
  obtain ⟨⟨hb, hring⟩, -, hfit, -, hfree⟩ := id h
  have hring' := (ringAndMemory_of_bound (exec_machineInv hs (exec_writeBlock_of_ready h)) hb).1
  refine ⟨⟨hb, hring'⟩, fun j hj => ?_⟩
  have hcap := space_le_capacity (s := s)
  have hplace : liveAddr s (0 + j) = freeAddr s j := by
    rw [Nat.zero_add, freeAddr_of_empty hring hempty (by omega)]
  exact (congrArg (byteBacked s.cfg) hplace).trans (hfree j hj)

/-- A READ_BLOCK of the only block in the ring copies its payload and leaves the ring empty. -/
theorem readBlock_of_only_block {s : State} {p : List Byte} (hs : MachineInv s) (hwire : contents s = blockWire s p)
    (hcap : p.length ≤ s.arg1.toNat) (h : BlockOutReady s p.length) :
    ∃ u, exec .readBlock s = .next u ∧ u.code = .ok ∧ u.result = BitVec.ofNat 32 p.length ∧ u.length = 0 ∧
      u.mem.hostBytes s.arg0.toNat p.length = p := by
  obtain ⟨hp, hlen⟩ := present_of_blockWire (hwire.trans (List.append_nil _).symm)
  rw [← hlen] at hcap h
  obtain ⟨-, hbytes, hrest, -⟩ := readBlock_completes hs hp hcap h
  rw [hlen, hwire] at hbytes hrest
  refine ⟨_, exec_readBlock_of_ready hp hcap h, rfl, congrArg (BitVec.ofNat 32) hlen, ?_, ?_⟩
  · have hzero := congrArg List.length hrest
    rw [contents_length, List.length_drop, blockWire_length, Nat.sub_self] at hzero
    exact BitVec.eq_of_toNat_eq hzero
  · rw [hbytes, blockWire, List.drop_left' (prefixEnc_length _ _), List.take_length]

end Sys2Proof.Machine
end

section
/-! The statements about the Block Codec commands, settled (41_block_codec.md). -/

namespace Sys2Proof.Proofs

open Sys2Proof.Machine Sys2Proof.Safety

/-- Settles O34: the append of one block on the wire, behind the references, the overlap contract and the space
check. -/
theorem writeBlockAppendsBlock : Obligations.WriteBlockAppendsBlock :=
  ⟨rfl, fun _ => ⟨fun hb => exec_of_badBuffer rfl fun _ => hb, exec_writeBlock_of_full,
    fun hs h => ⟨_, exec_writeBlock_of_ready h, writeBlock_completes hs h⟩⟩⟩

/-- Settles O35: what `Head(0)` finds is what the command reports. -/
theorem peekBlockLengthReportsDeclared : Obligations.PeekBlockLengthReportsDeclared :=
  ⟨rfl, fun _ => ⟨fun hlook => exec_of_absent rfl hlook (List.forall_mem_nil _), exec_of_present (.inl rfl)⟩⟩

/-- Settles O36: the failing checks in the order of R145, then the copy of the payload and the removal of the block. -/
theorem readBlockRemovesBlock : Obligations.ReadBlockRemovesBlock :=
  ⟨rfl, fun _ => ⟨fun hb => exec_of_badBuffer rfl fun _ => hb,
    fun hlook href => exec_of_absent rfl hlook (references_ok rfl href),
    exec_readBlock_of_small,
    fun hs hp hcap h => ⟨_, exec_readBlock_of_ready hp hcap h, readBlock_completes hs hp hcap h⟩⟩⟩

/-- Settles O37: the copy of as much of the payload as the buffer takes. -/
theorem peekBlockCopiesPayload : Obligations.PeekBlockCopiesPayload := by
  refine ⟨rfl, fun s => ⟨fun hb => exec_of_badBuffer rfl fun _ => hb,
    fun hlook href => exec_of_absent rfl hlook (references_ok rfl href), fun hs hp h => ?_⟩⟩
  obtain ⟨⟨⟨hb, -⟩, -⟩, hbuf, -⟩ := id h
  have hlen := prefix_add_declaredLength_le hp
  obtain ⟨hbytes, hcontents, hkept⟩ :=
    copyOut_into_buffer (off := prefixBytes s) (ringAndMemory_of_bound hs hb) hbuf
      (Nat.min_le_right (declaredLength s) _)
  rw [ringBytes_eq_slice (by omega)] at hbytes
  rw [← truncated_min]
  exact ⟨_, exec_peekBlock_of_ready hp h, rfl, hbytes, hcontents, hkept⟩

/-- Settles O38: the removal of what `Head(0)` finds. -/
theorem discardBlockRemovesBlock : Obligations.DiscardBlockRemovesBlock :=
  ⟨rfl, fun _ => ⟨fun hlook => exec_of_absent rfl hlook (List.forall_mem_nil _), fun hlook hp =>
    (exec_of_present (.inr rfl) hlook hp).trans
      (congrArg _ (finish_remove hlook.1.2 (prefix_add_declaredLength_le hp) _ _ _))⟩⟩

/-- Settles O39: the walk gives a count exactly where the live bytes are blocks back to back. -/
theorem countBlocksCountsOrCorrupt : Obligations.CountBlocksCountsOrCorrupt := by
  refine ⟨rfl, fun s hlook => ⟨fun payloads h => ?_, fun h => ?_⟩⟩
  · rw [exec_countBlocks_of_backed hlook, countResult_of_blocks h]
  · rw [exec_countBlocks_of_backed hlook, countResult_of_no_blocks h]

/-- Settles O45: the WRITE_BLOCK makes its block the live bytes, and the READ_BLOCK copies its payload and removes all
of them. -/
theorem writeBlockThenReadBlockRoundTrip : Obligations.WriteBlockThenReadBlockRoundTrip := by
  intro s out outCap hs hw hempty hcap hbuf hback
  have hwrite := exec_writeBlock_of_ready hw
  have hinv : MachineInv (effect .writeBlock s) := exec_machineInv hs hwrite
  obtain ⟨u, hread, hok, hresult, hlen, hbytes⟩ :=
    readBlock_of_only_block (s := { effect .writeBlock s with arg0 := out, arg1 := outCap })
      hinv (contents_writeBlock_of_empty hs hw hempty)
      (by rwa [hostBytes_length])
      (by rw [hostBytes_length]; exact ⟨lookReady_after_writeBlock hs hw hempty, hbuf, hback⟩)
  rw [hostBytes_length] at hresult hbytes
  rw [BitVec.ofNat_toNat, BitVec.setWidth_eq] at hresult
  exact ⟨_, u, hwrite, hread, rfl, hok, hresult, hlen, hbytes⟩

end Sys2Proof.Proofs
end

section
/-! The gates of a command with two operand buffers (20_memory.md R57, R60). -/

namespace Sys2Proof.Machine

open Sys2Proof.Safety

section buffers
variable {i : Instr} {s : State} {a c b d : Word}

theorem twoReferences_ok (href : referenceOperands i s = [reference a c, reference b d])
    (hfirst : ReferenceOK a c) (hsecond : ReferenceOK b d) : ∀ r ∈ referenceOperands i s, regionOK r = true := by
  rw [href, List.forall_mem_cons, List.forall_mem_singleton]
  exact ⟨regionOK_reference.mpr hfirst, regionOK_reference.mpr hsecond⟩

theorem exec_of_badBuffers (href : referenceOperands i s = [reference a c, reference b d])
    (hbound : i ≠ .init → s.bound = true) (h : ¬ (ReferenceOK a c ∧ ReferenceOK b d)) :
    exec i s = .next (completed s .invalidArgument 0 false) := by
  refine exec_of_badReference hbound ?_
  by_contra hgood
  push Not at hgood
  rw [href, List.forall_mem_cons, List.forall_mem_singleton] at hgood
  exact h (hgood.imp regionOK_reference.mp regionOK_reference.mp)

/-- Two buffers keep the overlap contract where each keeps clear of the storage region and, if the command writes them,
they keep clear of each other. -/
theorem overlapFree_of_twoApart (hi : i ≠ .init) (href : referenceOperands i s = [reference a c, reference b d])
    (hfirst : Apart (reference a c) (storageRegion s)) (hsecond : Apart (reference b d) (storageRegion s))
    (hdst : (destinationRegions i s).Pairwise Apart) : overlapFree i s = true := by
  have hapart : ∀ r ∈ sourceRegions i s ++ destinationRegions i s, Apart r (storageRegion s) := by
    rw [buffers_eq_references hi s, href, List.forall_mem_cons, List.forall_mem_singleton]
    exact ⟨hfirst, hsecond⟩
  exact overlapFree_iff.mpr ⟨fun r hr => hapart r (List.mem_append_right _ hr), hdst,
    fun _ r hr => hapart r (List.mem_append_left _ hr)⟩

/-- A command whose two buffers are ready, whose checks pass and whose bytes are backed leaves its effect. -/
theorem exec_of_buffersReady (hi : i ≠ .init) (href : referenceOperands i s = [reference a c, reference b d])
    (hbound : s.bound = true) (hfirst : BufferReady s a c) (hsecond : BufferReady s b d)
    (hdst : (destinationRegions i s).Pairwise Apart) (hp : checksPass i s)
    (ha : admitsAll s (touched i s) = true) : exec i s = .next (effect i s) :=
  exec_done (fun _ => hbound) (twoReferences_ok href hfirst.1 hsecond.1) hp
    (overlapFree_of_twoApart hi href hfirst.2 hsecond.2 hdst) ha

end buffers

end Sys2Proof.Machine
end

section
/-! WRITE_FRAME appends a frame on the wire (42_frame_codec.md R160, R162). -/

namespace Sys2Proof.Machine

open Sys2Proof.Safety

/-! ## The three appends as one -/

/-- A frame has a block's outer layout; header and payload together are the block's payload (R160). -/
theorem frameWire_eq_blockWire (s : State) (hdr pay : List Byte) :
    frameWire s hdr pay = blockWire s (hdr ++ pay) := by
  rw [frameWire, blockWire, List.length_append, List.append_assoc]

@[simp] theorem frameWire_length (s : State) (hdr pay : List Byte) :
    (frameWire s hdr pay).length = prefixBytes s + hdr.length + pay.length := by
  rw [frameWire_eq_blockWire, blockWire_length, List.length_append, Nat.add_assoc]

theorem withHeader_eq_append {s : State} (hw : s.wrIdx.toNat < s.capacity.toNat)
    (hfit : prefixBytes s + s.arg1.toNat ≤ s.capacity.toNat) :
    withHeader s = append s (prefixEnc (prefixBytes s) (s.arg1.toNat + s.arg3.toNat) ++
      s.mem.hostBytes s.arg0.toNat s.arg1.toNat) :=
  append_append hw (by rwa [prefixEnc_length, hostBytes_length])

theorem effect_writeFrame {s : State} (hr : RingInv s)
    (hfit : prefixBytes s + s.arg1.toNat + s.arg3.toNat ≤ space s) :
    effect .writeFrame s =
      finish (append s (frameWire s (s.mem.hostBytes s.arg0.toNat s.arg1.toNat)
        (s.mem.hostBytes s.arg2.toNat s.arg3.toNat))) .ok (prefixBytes s + s.arg1.toNat + s.arg3.toNat) false := by
  obtain ⟨-, -, -, hw, -⟩ := hr
  have hcap := space_le_capacity (s := s)
  rw [effect, withHeader_eq_append hw (by omega), append_append hw, frameWire, hostBytes_length, hostBytes_length]
  rw [List.length_append, prefixEnc_length, hostBytes_length, hostBytes_length]
  omega

/-! ## When it leaves its effect, and when it fails -/

/-- Where memory backs one run of free places, it backs the three appends of WRITE_FRAME. -/
theorem admitsAll_withHeader {s : State} (hr : RingInv s)
    (hfit : prefixBytes s + s.arg1.toNat + s.arg3.toNat ≤ space s)
    (h : Backed s (freeAddr s) (prefixBytes s + s.arg1.toNat + s.arg3.toNat)) :
    admitsAll s (freeBytes s (prefixBytes s)) = true ∧
      admitsAll s (freeBytes (withPrefix s (s.arg1.toNat + s.arg3.toNat)) s.arg1.toNat) = true ∧
      admitsAll s (freeBytes (withHeader s) s.arg3.toNat) = true := by
  have hcap := space_le_capacity (s := s)
  obtain ⟨hfront, hrest⟩ := backed_split h
  obtain ⟨hprefix, hheader⟩ := admitsAll_withPrefix hr (by omega) hfront
  refine ⟨hprefix, hheader, admitsAll_map.mpr fun j hj => ?_⟩
  rw [freeAddr_withHeader hr (by omega)]
  exact hrest j hj

theorem exec_writeFrame_of_ready {s : State} (h : WriteFrameReady s) :
    exec .writeFrame s = .next (effect .writeFrame s) := by
  obtain ⟨⟨hb, hring⟩, hhdr, hpay, hfit, hsource, hsource', hfree⟩ := h
  obtain ⟨hprefix, hheader, hpayload⟩ := admitsAll_withHeader hring hfit hfree
  refine exec_of_buffersReady nofun rfl hb hhdr hpay List.Pairwise.nil hfit ?_
  simp only [touched, admitsAll_append, admitsAll_bufferBytes]
  exact ⟨⟨⟨⟨hprefix, hsource⟩, hheader⟩, hsource'⟩, hpayload⟩

theorem exec_writeFrame_of_full {s : State} (hb : s.bound = true) (hhdr : BufferReady s s.arg0 s.arg1)
    (hpay : BufferReady s s.arg2 s.arg3) (hfull : space s < prefixBytes s + s.arg1.toNat + s.arg3.toNat) :
    exec .writeFrame s = .next (completed s .insufficientSpace 0 false) := by
  have hkept : overlapFree .writeFrame s = true :=
    overlapFree_of_twoApart nofun rfl hhdr.2 hpay.2 List.Pairwise.nil
  refine (gates_pass hb (i := .writeFrame) (twoReferences_ok rfl hhdr.1 hpay.1) _).trans ?_
  exact (keepContract_of_ok hkept _).trans (if_pos hfull)

/-- What WRITE_FRAME has done when it completes: the whole state, the live bytes, and no byte written but the places
appended to. -/
theorem writeFrame_completes {s : State} (hs : MachineInv s) (h : WriteFrameReady s) :
    effect .writeFrame s =
        { completed s .ok (prefixBytes s + s.arg1.toNat + s.arg3.toNat) false with
          mem := (effect .writeFrame s).mem
          length := BitVec.ofNat 32 (s.length.toNat + (prefixBytes s + s.arg1.toNat + s.arg3.toNat))
          wrIdx := BitVec.ofNat 32
            ((s.wrIdx.toNat + (prefixBytes s + s.arg1.toNat + s.arg3.toNat)) % s.capacity.toNat) } ∧
      contents (effect .writeFrame s) = contents s ++
        frameWire s (s.mem.hostBytes s.arg0.toNat s.arg1.toNat) (s.mem.hostBytes s.arg2.toNat s.arg3.toNat) ∧
      MemoryKeptButAppended s (effect .writeFrame s) (prefixBytes s + s.arg1.toNat + s.arg3.toNat) := by
  obtain ⟨⟨hb, hring⟩, -, -, hfit, -⟩ := h
  have hlen : (frameWire s (s.mem.hostBytes s.arg0.toNat s.arg1.toNat)
      (s.mem.hostBytes s.arg2.toNat s.arg3.toNat)).length = prefixBytes s + s.arg1.toNat + s.arg3.toNat := by
    rw [frameWire_length, hostBytes_length, hostBytes_length]
  have hspace := hlen.trans_le hfit
  have hstate := finish_append hring hspace .ok (prefixBytes s + s.arg1.toNat + s.arg3.toNat) false
  obtain ⟨-, -, -, -, hcontents, hkept⟩ := append_spec hring (ringAndMemory_of_bound hs hb).2 hspace
  rw [hlen] at hstate hkept
  rw [effect_writeFrame hring hfit]
  exact ⟨hstate, hcontents, hkept⟩

end Sys2Proof.Machine
end

section
/-! The two readers of a frame: `FrameCheck`, and the copy of header and payload into their buffers
(42_frame_codec.md R161, R163, R164). -/

namespace Sys2Proof.Machine

open Sys2Proof.Safety

/-! ## The failing checks -/

/-- Both readers complete with the code that `FrameCheck` fails with (R161). -/
theorem exec_of_frameCheck_error {i : Instr} {s : State} {c : StatusCode} (hi : i = .peekFrame ∨ i = .readFrame)
    (hlook : LookReady s (headSpan s)) (hr : ∀ r ∈ referenceOperands i s, regionOK r = true)
    (hcheck : frameCheck s s.arg1.toNat s.arg3.toNat = .error c) :
    exec i s = .next (completed s c 0 false) := by
  obtain ⟨⟨hb, -⟩, hlive⟩ := hlook
  have hfail : touchBytes s (headBytes s 0) (fail s c) = .next (completed s c 0 false) :=
    touchBytes_of_ok (admitsAll_headBytes.mpr hlive)
  rcases hi with rfl | rfl
  all_goals
    refine (gates_pass hb hr _).trans ?_
    rw [hcheck]
    exact hfail

theorem frameCheck_of_short {s : State} {hlen maxp : Nat} (hp : BlockPresent s) (h : declaredLength s < hlen) :
    frameCheck s hlen maxp = .error .shortFrame := by
  rw [frameCheck_eq, if_pos hp, if_pos h]

theorem frameCheck_of_large {s : State} {hlen maxp : Nat} (hp : BlockPresent s)
    (h : hlen + maxp < declaredLength s) : frameCheck s hlen maxp = .error .destTooSmall := by
  rw [frameCheck_eq, if_pos hp, if_neg (by omega), if_pos h]

/-- The three checks of R161, in its order. -/
theorem exec_frame_fails {i : Instr} {s : State} (hi : i = .peekFrame ∨ i = .readFrame)
    (hlook : LookReady s (headSpan s)) (hhdr : ReferenceOK s.arg0 s.arg1) (hpay : ReferenceOK s.arg2 s.arg3) :
    (¬ BlockPresent s → exec i s = .next (completed s .notPresent 0 false)) ∧
      (BlockPresent s → declaredLength s < s.arg1.toNat → exec i s = .next (completed s .shortFrame 0 false)) ∧
      (BlockPresent s → s.arg1.toNat + s.arg3.toNat < declaredLength s →
        exec i s = .next (completed s .destTooSmall 0 false)) := by
  have href : referenceOperands i s = [reference s.arg0 s.arg1, reference s.arg2 s.arg3] := by
    rcases hi with rfl | rfl <;> rfl
  have hr := twoReferences_ok href hhdr hpay
  have hprefix : readsPrefix i = true := by rcases hi with rfl | rfl <;> rfl
  exact ⟨exec_of_absent hprefix hlook hr,
    fun hp h => exec_of_frameCheck_error hi hlook hr (frameCheck_of_short hp h),
    fun hp h => exec_of_frameCheck_error hi hlook hr (frameCheck_of_large hp h)⟩

/-! ## The copy of a frame -/

/-- The bytes of a range that read alike are the same list. -/
theorem hostBytes_congr {m m' : Memory} {a n : Nat} (h : ∀ x, a ≤ x ∧ x < a + n → m.read x = m'.read x) :
    m.hostBytes a n = m'.hostBytes a n :=
  List.map_congr_left fun j hj => h (a + j) ⟨Nat.le_add_right a j, Nat.add_lt_add_left (List.mem_range.mp hj) a⟩

section frame
variable {s : State} (hp : BlockPresent s) (hhlen : s.arg1.toNat ≤ declaredLength s)
  (hcap : declaredLength s ≤ s.arg1.toNat + s.arg3.toNat)
  (h : FrameOutReady s (declaredLength s - s.arg1.toNat))
include hp hhlen hcap h

omit hcap in
/-- The prefix, the frame and as much of both buffers as it fills are backed. -/
theorem admitsAll_of_frameOutReady : admitsAll s (frameBytes s (declaredLength s)) = true := by
  obtain ⟨⟨-, hlive⟩, -, -, -, hhdr, hpay⟩ := h
  rw [Nat.add_assoc, Nat.add_sub_of_le hhlen] at hlive
  obtain ⟨hprefix, hframe⟩ := backed_split hlive
  rw [← headSpan_of_present hp] at hprefix
  simp only [Nat.zero_add] at hframe
  simp only [frameBytes, admitsAll_append, admitsAll_headBytes, admitsAll_liveBytes, admitsAll_bufferBytes]
  exact ⟨⟨⟨hprefix, hframe⟩, hhdr⟩, hpay⟩

theorem exec_of_frameOutReady {i : Instr} (hi : i = .peekFrame ∨ i = .readFrame) :
    exec i s = .next (effect i s) := by
  have hadmitted := admitsAll_of_frameOutReady hp hhlen h
  obtain ⟨⟨⟨hb, -⟩, -⟩, hhdr, hpay, hapart, -⟩ := h
  have hdst := List.pairwise_pair.mpr hapart
  rcases hi with rfl | rfl
  all_goals exact exec_of_buffersReady nofun rfl hb hhdr hpay hdst ⟨hp, hhlen, hcap⟩ hadmitted

/-- What the copy has done: each buffer holds its part, the live bytes are the same, and nothing but the bytes of both
parts is written. The second copy keeps the header because the buffers are apart (R60). -/
theorem copyFrame_splits (hs : MachineInv s) :
    (copyFrame s (declaredLength s)).mem.hostBytes s.arg0.toNat s.arg1.toNat =
        ((contents s).drop (prefixBytes s)).take s.arg1.toNat ∧
      (copyFrame s (declaredLength s)).mem.hostBytes s.arg2.toNat (declaredLength s - s.arg1.toNat) =
        ((contents s).drop (prefixBytes s + s.arg1.toNat)).take (declaredLength s - s.arg1.toNat) ∧
      contents (copyFrame s (declaredLength s)) = contents s ∧
      ∀ a, ¬ (s.arg0.toNat ≤ a ∧ a < s.arg0.toNat + s.arg1.toNat) →
        ¬ (s.arg2.toNat ≤ a ∧ a < s.arg2.toNat + (declaredLength s - s.arg1.toNat)) →
        (copyFrame s (declaredLength s)).mem.read a = s.mem.read a := by
  obtain ⟨⟨⟨hb, -⟩, -⟩, hhdr, hpay, hapart, -⟩ := h
  have hlen := prefix_add_declaredLength_le hp
  have hring := ringAndMemory_of_bound hs hb
  obtain ⟨hheader, hlive, hkept⟩ := copyOut_into_buffer (off := prefixBytes s) hring hhdr le_rfl
  have hmid : RingAndMemory (copyOut s s (prefixBytes s) s.arg1.toNat s.arg0.toNat) :=
    copyOut_ringAndMemory hring hhdr.1.2
  have hcount : declaredLength s - s.arg1.toNat ≤ s.arg3.toNat := by omega
  have hend := hpay.1.2
  obtain ⟨-, hpayload, hkept'⟩ := copyOut_spec (s := s) (off := prefixBytes s + s.arg1.toNat)
    (m := declaredLength s - s.arg1.toNat) (dst := s.arg2.toNat) hmid.2 (by omega)
  have hheader' : (copyFrame s (declaredLength s)).mem.hostBytes s.arg0.toNat s.arg1.toNat =
      (copyOut s s (prefixBytes s) s.arg1.toNat s.arg0.toNat).mem.hostBytes s.arg0.toNat s.arg1.toNat := by
    refine hostBytes_congr fun x hx => hkept' x fun hx' => ?_
    simp only [Apart, reference] at hapart
    omega
  rw [ringBytes_eq_slice (by omega)] at hheader hpayload
  exact ⟨hheader'.trans hheader, hpayload, (contents_copyOut hmid hpay hcount).trans hlive,
    fun a ha ha' => (hkept' a ha').trans (hkept a ha)⟩

/-- What READ_FRAME has done to the ring when it completes: the whole state, and the live bytes behind the frame. Host
memory is what `copyFrame` has left. -/
theorem readFrame_removes (hs : MachineInv s) :
    effect .readFrame s =
        { completed s .ok (declaredLength s - s.arg1.toNat) false with
          mem := (copyFrame s (declaredLength s)).mem
          length := BitVec.ofNat 32 (s.length.toNat - (prefixBytes s + declaredLength s))
          rdIdx := BitVec.ofNat 32
            ((s.rdIdx.toNat + (prefixBytes s + declaredLength s)) % s.capacity.toNat) } ∧
      contents (effect .readFrame s) = (contents s).drop (prefixBytes s + declaredLength s) := by
  have hlen := prefix_add_declaredLength_le hp
  obtain ⟨⟨⟨-, hring⟩, -⟩, -⟩ := id h
  obtain ⟨-, -, hlive, -⟩ := copyFrame_splits hp hhlen hcap h hs
  obtain ⟨-, -, -, hrest⟩ := remove_spec (s := copyFrame s (declaredLength s)) hring hlen
  rw [hlive] at hrest
  exact ⟨finish_remove (s := copyFrame s (declaredLength s)) hring hlen _ _ _, hrest⟩

end frame

end Sys2Proof.Machine
end

section
/-! A frame written to an empty ring, and the READ_FRAME of it (95_test_vectors.md L1.3). -/

namespace Sys2Proof.Machine

open Sys2Proof.Safety

/-- After a WRITE_FRAME to an empty ring the live bytes are that frame. -/
theorem contents_writeFrame_of_empty {s : State} (hs : MachineInv s) (h : WriteFrameReady s)
    (hempty : s.length = 0) :
    contents (effect .writeFrame s) =
      frameWire s (s.mem.hostBytes s.arg0.toNat s.arg1.toNat) (s.mem.hostBytes s.arg2.toNat s.arg3.toNat) := by
  obtain ⟨-, hcontents, -⟩ := writeFrame_completes hs h
  rwa [contents_of_empty hempty] at hcontents

/-- In an empty ring the places to append to are the places the appended bytes will be read from. -/
theorem liveBacked_of_empty {s : State} (hr : RingInv s) (hempty : s.length = 0) {n : Nat} (hn : n ≤ space s)
    (h : Backed s (freeAddr s) n) : LiveBacked s 0 n := by
  intro j hj
  have hcap := space_le_capacity (s := s)
  have hplace : liveAddr s (0 + j) = freeAddr s j := by
    rw [Nat.zero_add, freeAddr_of_empty hr hempty (by omega)]
  exact (congrArg (byteBacked s.cfg) hplace).trans (h j hj)

/-- The frame stands in the places that the WRITE_FRAME has found backed. -/
theorem lookReady_after_writeFrame {s : State} (hs : MachineInv s) (h : WriteFrameReady s) (hempty : s.length = 0) :
    LookReady (effect .writeFrame s) (prefixBytes s + s.arg1.toNat + s.arg3.toNat) := by
  obtain ⟨⟨hb, hring⟩, -, -, hfit, -, -, hfree⟩ := id h
  have hring' := (ringAndMemory_of_bound (exec_machineInv hs (exec_writeFrame_of_ready h)) hb).1
  exact ⟨⟨hb, hring'⟩, liveBacked_of_empty hring hempty hfit hfree⟩

/-- A READ_FRAME of the only frame in the ring, with its header's length, copies header and payload and leaves the ring
empty. -/
theorem readFrame_of_only_frame {s : State} {hdr pay : List Byte} (hs : MachineInv s)
    (hwire : contents s = frameWire s hdr pay) (hhlen : s.arg1.toNat = hdr.length)
    (hcap : pay.length ≤ s.arg3.toNat) (h : FrameOutReady s pay.length) :
    ∃ u, exec .readFrame s = .next u ∧ u.code = .ok ∧ u.result = BitVec.ofNat 32 pay.length ∧ u.length = 0 ∧
      u.mem.hostBytes s.arg0.toNat s.arg1.toNat = hdr ∧ u.mem.hostBytes s.arg2.toNat pay.length = pay := by
  obtain ⟨hp, hlen⟩ := present_of_blockWire (p := hdr ++ pay) (tail := [])
    (by rw [hwire, frameWire_eq_blockWire, List.append_nil])
  rw [List.length_append] at hlen
  have hplen : declaredLength s - s.arg1.toNat = pay.length := by omega
  rw [← hplen] at h
  obtain ⟨hheader, hpayload, -⟩ := copyFrame_splits hp (by omega) (by omega) h hs
  obtain ⟨-, hrest⟩ := readFrame_removes hp (by omega) (by omega) h hs
  rw [hplen, hwire, frameWire, hhlen, List.drop_left' (by rw [List.length_append, prefixEnc_length]),
    List.take_length] at hpayload
  rw [hwire, frameWire, hhlen, List.append_assoc, List.drop_left' (prefixEnc_length _ _), List.take_left] at hheader
  have hzero : (effect .readFrame s).length.toNat = 0 := by
    rw [← contents_length, hrest, List.length_drop, hwire, frameWire_length, hlen, Nat.add_assoc, Nat.sub_self]
  exact ⟨_, exec_of_frameOutReady hp (by omega) (by omega) h (.inr rfl), rfl, congrArg (BitVec.ofNat 32) hplen,
    BitVec.eq_of_toNat_eq hzero, hhlen ▸ hheader, hpayload⟩

end Sys2Proof.Machine
end

section
/-! The statements about the Frame Codec commands, settled (42_frame_codec.md). -/

namespace Sys2Proof.Proofs

open Sys2Proof.Machine Sys2Proof.Safety

/-- Settles O40: the append of one frame on the wire, behind the references, the overlap contract and the space
check. -/
theorem writeFrameAppendsFrame : Obligations.WriteFrameAppendsFrame :=
  ⟨rfl, fun _ => ⟨fun hb => exec_of_badBuffers rfl fun _ => hb, exec_writeFrame_of_full,
    fun hs h => ⟨_, exec_writeFrame_of_ready h, writeFrame_completes hs h⟩⟩⟩

/-- Settles O41: the checks in the order of R161, then the copy of both parts. -/
theorem peekFrameSplitsFrame : Obligations.PeekFrameSplitsFrame :=
  ⟨rfl, fun _ => ⟨fun hb => exec_of_badBuffers rfl fun _ => hb, exec_frame_fails (.inl rfl),
    fun hs hp hhlen hcap h =>
      ⟨_, exec_of_frameOutReady hp hhlen hcap h (.inl rfl), rfl, copyFrame_splits hp hhlen hcap h hs⟩⟩⟩

/-- Settles O42: the checks of PEEK_FRAME and its copy, then the removal of prefix and frame. -/
theorem readFrameRemovesFrame : Obligations.ReadFrameRemovesFrame := by
  refine ⟨rfl, fun _ => ⟨fun hb => exec_of_badBuffers rfl fun _ => hb, exec_frame_fails (.inr rfl),
    fun hs hp hhlen hcap h => ?_⟩⟩
  obtain ⟨hheader, hpayload, -, hkept⟩ := copyFrame_splits hp hhlen hcap h hs
  obtain ⟨hstate, hrest⟩ := readFrame_removes hp hhlen hcap h hs
  exact ⟨_, exec_of_frameOutReady hp hhlen hcap h (.inr rfl), hstate, hheader, hpayload, hrest, hkept⟩

/-- Settles O43: COUNT_FRAMES is the walk of COUNT_BLOCKS, which counts exactly blocks back to back. -/
theorem countFramesCountsOrCorrupt : Obligations.CountFramesCountsOrCorrupt := by
  refine ⟨rfl, fun _ => rfl, fun s hlook => ?_⟩
  obtain ⟨-, hcount⟩ := countBlocksCountsOrCorrupt
  obtain ⟨hblocks, hcorrupt⟩ := hcount s hlook
  by_cases h : ∃ payloads, contents s = blocksWire s payloads
  · obtain ⟨payloads, hwire⟩ := h
    exact ⟨_, hblocks payloads hwire, finish_readBack (finish_eq _ _ _ _).symm, .inl ⟨payloads, hwire, rfl, rfl⟩⟩
  · exact ⟨_, hcorrupt h, rfl, .inr ⟨h, rfl, rfl⟩⟩

/-- Settles O46: the WRITE_FRAME makes its frame the live bytes, and the READ_FRAME copies both parts and removes all of
them. -/
theorem writeFrameThenReadFrameRoundTrip : Obligations.WriteFrameThenReadFrameRoundTrip := by
  intro s headerOut payloadOut maxPlen hs hw hempty hcap hhdr hpay hapart hhback hpback
  have hwrite := exec_writeFrame_of_ready hw
  have hinv : MachineInv (effect .writeFrame s) := exec_machineInv hs hwrite
  obtain ⟨u, hread, hok, hresult, hlen, hheader, hpayload⟩ :=
    readFrame_of_only_frame (s := { effect .writeFrame s with arg0 := headerOut, arg2 := payloadOut, arg3 := maxPlen })
      hinv (contents_writeFrame_of_empty hs hw hempty) (hostBytes_length _ _ _).symm
      (by rwa [hostBytes_length])
      (by
        rw [hostBytes_length]
        exact ⟨lookReady_after_writeFrame hs hw hempty, hhdr, hpay, hapart, hhback, hpback⟩)
  rw [hostBytes_length] at hresult hpayload
  rw [BitVec.ofNat_toNat, BitVec.setWidth_eq] at hresult
  exact ⟨_, u, hwrite, hread, rfl, hok, hresult, hlen, hheader, hpayload⟩

end Sys2Proof.Proofs
end

section
/-! The codes each command can give on a bound ring (60_exceptions.md R181). -/

namespace Sys2Proof.Machine

/-- The codes of each command on a bound ring: R181's "raised by" column, with the list under its table. -/
def boundCodes (i : Instr) : List StatusCode :=
  match i with
  | .clear | .length | .space | .discard => [.ok]
  | .countBlocks | .countFrames => [.ok, .corrupt]
  | .peekBlockLength | .discardBlock => [.ok, .notPresent]
  | .init | .write | .read | .peek | .peekOffset => [.ok, .invalidArgument]
  | .writeAll | .writeBlock | .writeFrame => [.ok, .invalidArgument, .insufficientSpace]
  | .find => [.ok, .invalidArgument, .notFound]
  | .readBlock => [.ok, .invalidArgument, .notPresent, .destTooSmall]
  | .peekBlock => [.ok, .invalidArgument, .notPresent]
  | .peekFrame | .readFrame => [.ok, .invalidArgument, .notPresent, .shortFrame, .destTooSmall]

/-- Behind the bound gate, INVALID_ARGUMENT is a code only of the commands that have a reference operand. -/
theorem invalidArgument_mem_boundCodes {i : Instr} {s : State} (h : referenceOperands i s ≠ []) :
    .invalidArgument ∈ boundCodes i := by
  cases i with
  | clear | length | space | discard | peekBlockLength | discardBlock | countBlocks | countFrames =>
    exact absurd rfl h
  | _ => decide

theorem failCodes_subset (i : Instr) : failCodes i ⊆ .invalidArgument :: boundCodes i := by
  cases i <;> decide

/-- Only FIND and the counters can complete with another code than OK once their checks have passed. -/
theorem effect_code_mem_boundCodes (i : Instr) (s : State) : (effect i s).code ∈ boundCodes i := by
  have counted : (countResult s).code ∈ [StatusCode.ok, .corrupt] := by
    rcases countResult_cases s with ⟨_, e⟩ | e <;> simp [e, fail]
  cases i with
  | find => rcases findResult_cases s with ⟨_, _, e⟩ | ⟨_, e⟩ <;> simp [effect, boundCodes, e]
  | countBlocks => exact counted
  | countFrames => exact counted
  | _ => exact List.mem_cons_self

theorem exec_code_mem_boundCodes {i : Instr} {s t : State} (hb : s.bound = true) (h : exec i s = .next t) :
    t.code ∈ boundCodes i := by
  rcases exec_next h with ⟨c, hc, hk, rfl⟩ | ⟨_, _, _, _, _, rfl⟩
  · rcases List.mem_cons.mp (failCodes_subset i hc) with rfl | hmem
    · exact invalidArgument_mem_boundCodes (hk hb rfl)
    · exact hmem
  · exact effect_code_mem_boundCodes i s

end Sys2Proof.Machine
end

section
/-! The statements about failed commands and their codes, settled (60_exceptions.md). -/

namespace Sys2Proof.Proofs

open Sys2Proof.Machine Sys2Proof.Safety

/-- Settles O12: a command that fails has finished from its own state. -/
theorem failedCommandsChangeNothing : Obligations.FailedCommandsChangeNothing := by
  intro i s t h hc
  rcases exec_failed h hc with ⟨-, rfl⟩ | ⟨c, -, -, rfl⟩
  · exact finish_readBack rfl
  · exact finish_readBack rfl

/-- Settles O15: each clause reads `boundCodes` at the commands it names. -/
theorem codesOfEachCommand : Obligations.CodesOfEachCommand := by
  intro i s t hb h
  have hcode : t.code ∈ boundCodes i := exec_code_mem_boundCodes hb h
  have of_group {is : List Instr} {cs : List StatusCode} (hcs : ∀ j ∈ is, boundCodes j = cs) (hi : i ∈ is) :
      t.code ∈ cs := hcs i hi ▸ hcode
  refine ⟨fun hi => ?clear, fun hi => ?counters, fun hi => ?lookers, fun hi => ?movers, fun hi => ?strictWriters,
    fun hi => ?find, fun hi => ?readBlock, fun hi => ?peekBlock, fun hi => ?frameReaders⟩
  case clear => simpa using of_group (cs := [.ok]) (by decide) hi
  case counters => simpa using of_group (cs := [.ok, .corrupt]) (by decide) hi
  case lookers => simpa using of_group (cs := [.ok, .notPresent]) (by decide) hi
  case movers => simpa using of_group (cs := [.ok, .invalidArgument]) (by decide) hi
  case strictWriters => simpa using of_group (cs := [.ok, .invalidArgument, .insufficientSpace]) (by decide) hi
  case frameReaders =>
    simpa using of_group (cs := [.ok, .invalidArgument, .notPresent, .shortFrame, .destTooSmall]) (by decide) hi
  all_goals simpa [hi, boundCodes] using hcode

end Sys2Proof.Proofs
end

section
/-! The reset event, said once for each thing the engine's move can answer (70_reset_and_hazards.md R200, R201). -/

namespace Sys2Proof.Machine

open Sys2Proof.Safety

/-- Drawing between two equal bytes changes none. -/
theorem mix_self {landed : Nat → Bool} {m : Memory} (hm : m.wf) : m.mix landed m = m :=
  wf_ext (mix_wf hm hm) hm fun a => by rw [read_mix hm hm, ite_self]

/-- The fields of STATUS are among the registers that reset clears. -/
theorem statusWord_resetRegisters (s : State) : statusWord (resetRegisters s) = 0 :=
  calc statusWord (resetRegisters s)
    _ = statusWord State.reset := rfl
    _ = 0 := by decide

theorem step_reset {s : State} {rest : List Input} (hin : s.inputs = .reset :: rest) :
    step s = resetMove { s with inputs := rest } := by
  simp only [step, nextMove, hin]

theorem resetMove_of_idle {s : State} (hb : s.busy = false) : resetMove s = .next (resetRegisters s) := by
  simp [resetMove, hb]

theorem resetMove_of_engineMove_next {s t : State} (hb : s.busy = true) (h : engineMove s = .next t) :
    resetMove s = .next { resetRegisters s with
      mem := s.mem.mix (Config.freeLanded s.draws) t.mem, draws := s.draws + 1 } := by
  simp [resetMove, hb, h]

theorem resetMove_of_engineMove_fault {s : State} {f : Fault} (hb : s.busy = true) (h : engineMove s = .fault f) :
    resetMove s = .next (resetRegisters s) := by
  simp [resetMove, hb, h]

/-- An illegal word completes through `fail`, which writes no byte, so the draw has nothing to choose. -/
theorem resetMove_of_illegal {s : State} (hm : s.mem.wf) (hb : s.busy = true) (hd : decode s.cmd = none) :
    resetMove s = .next { resetRegisters s with draws := s.draws + 1 } := by
  rw [resetMove_of_engineMove_next hb (engineMove_of_illegal hd), fail_mem, mix_self hm]
  rfl

end Sys2Proof.Machine
end

section
/-! The statements about reset, settled (70_reset_and_hazards.md). -/

namespace Sys2Proof.Proofs

open Sys2Proof.Machine Sys2Proof.Safety

/-- Settles O59: the mix of R201 takes each byte from one of the two memories, and a command that the engine completes
without a write, or cannot complete, leaves nothing to mix. -/
theorem resetAbandonsPendingCommand : Obligations.ResetAbandonsPendingCommand := by
  intro s rest hs hb hin
  obtain ⟨-, -, -, hmem⟩ := id hs
  have hengine {i : Instr} (hd : decode s.cmd = some i) :
      engineMove { s with inputs := rest } = exec i { s with inputs := rest } :=
    engineMove_of_decode (s := { s with inputs := rest }) hd
  rw [step_reset hin]
  refine ⟨fun i t hd he => ?completing, ?writesNothing⟩
  case completing =>
    obtain ⟨-, -, -, htmem⟩ := exec_machineInv (s := { s with inputs := rest }) hs he
    refine ⟨_, resetMove_of_engineMove_next hb ((hengine hd).trans he), rfl, fun a => ?_⟩
    simp only [read_mix hmem htmem]
    split
    · exact .inr rfl
    · exact .inl rfl
  case writesNothing =>
    rintro (hd | ⟨i, f, hd, he⟩)
    · exact ⟨_, resetMove_of_illegal hmem hb hd, rfl⟩
    · exact ⟨_, resetMove_of_engineMove_fault hb ((hengine hd).trans he), rfl⟩

/-- Settles O58: with nothing pending the reset event is `resetRegisters` alone. -/
theorem resetGivesResetValues : Obligations.ResetGivesResetValues := by
  intro s rest hb hin
  have hstep : step s = .next (resetRegisters { s with inputs := rest }) :=
    (step_reset hin).trans (resetMove_of_idle hb)
  exact ⟨_, hstep, rfl, rfl, rfl, rfl, rfl, rfl, rfl, rfl, rfl, rfl, rfl, rfl, rfl,
    statusWord_resetRegisters _, rfl⟩

end Sys2Proof.Proofs
end
